-- ==== Sys2Proof/Word.lean ====
section
/-! DEFINITION. The fixed widths of CORE (00_scope.md R7): a byte is 8 bits, a code-point word and every
host-visible register 32 bits, the accumulator 21 bits. -/
namespace Sys2Proof

/-- One entry of BBUF, one byte of the UTF-8 stream (R7, R29). -/
abbrev Byte := BitVec 8

/-- One entry of WBUF and the width of every host-visible register (R7, R21, R30). -/
abbrev Word := BitVec 32

/-- The width of the decoder's accumulator (R7, R32). -/
abbrev AccWord := BitVec 21

end Sys2Proof
end

