-- ==== Sys2Proof/Config.lean ====
section
/-! DEFINITION. What one instance of CORE fixes (00_scope.md R6) and the free values: what the spec leaves
"unspecified (any value)". A free value is an opaque constant without a body, so no proof can see what it is. -/
namespace Sys2Proof

/-- The two parameters the spec leaves OPEN (R6, 92_eei_decisions.md D3). They stand in State, where no step writes
them: a statement over every state is then a statement over every instance. -/
structure Config where
  /-- B_CAP, the number of entries of BBUF. -/
  bCap : Nat
  /-- W_CAP, the number of entries of WBUF. -/
  wCap : Nat
  deriving DecidableEq, Repr

/-- The range R6 gives both parameters. -/
def Config.valid (c : Config) : Bool :=
  decide (1 ≤ c.bCap) && decide (c.bCap ≤ 2 ^ 32 - 1) && decide (1 ≤ c.wCap) && decide (c.wCap ≤ 2 ^ 32 - 1)

/-- The instance of 95_test_vectors.md ("Unless a vector says otherwise, B_CAP = W_CAP = 16"). State.reset is the reset
state of this instance. DESIGN CHOICE, log entry 1. -/
def Config.vectors : Config := { bCap := 16, wCap := 16 }

/-- FREE VALUE (R208, R230, R231; log entries 4, 5): the byte that draw number `draw` leaves in entry `index` of BBUF. -/
opaque Config.freeByte (draw index : Nat) : Byte

/-- FREE VALUE (R208, R230, R231; log entries 4, 5): the word that draw number `draw` leaves in entry `index` of WBUF. -/
opaque Config.freeWord (draw index : Nat) : Word

/-- FREE VALUE (R34; log entry 3): `acc` after the reset that is draw number `draw`. -/
opaque Config.freeAcc (draw : Nat) : AccWord

/-- FREE VALUE (R34; log entry 3): the two bits of `phase` after a reset. -/
opaque Config.freePhase (draw : Nat) : BitVec 2

/-- FREE VALUE (R34; log entry 3): `n_in` after a reset. -/
opaque Config.freeNIn (draw : Nat) : Word

/-- FREE VALUE (R34; log entry 3): `rd_pos` after a reset. -/
opaque Config.freeRdPos (draw : Nat) : Word

/-- FREE VALUE (R34; log entry 3): `wr_pos` after a reset. -/
opaque Config.freeWrPos (draw : Nat) : Word

/-- FREE VALUE (R34; log entry 3): `rem` after a reset. -/
opaque Config.freeRem (draw : Nat) : BitVec 2

/-- FREE VALUE (R34; log entry 3): `cp_latch` after a reset. -/
opaque Config.freeCpLatch (draw : Nat) : Word

/-- FREE VALUE (R34; log entry 3): `rbits` after a reset. -/
opaque Config.freeRbits (draw : Nat) : BitVec 5

end Sys2Proof
end

