-- ==== Sys2Proof/Syntax.lean ====
section
/-! DEFINITION. The rows of spec/opcode_table.json, one constructor each (30_encoding.md R72, R80, R81). -/
namespace Sys2Proof

/-- What CORE interprets: the three command words a host writes to CMD (format CMDW, R81) and the five byte formats the
decoder pipeline consumes one a microstep (format UTF8_BYTE, R72). `x` is the byte's payload, right-aligned in a byte:
the bits of the byte that its mask does not cover (R75). -/
inductive Instr where
  | clear
  | decode
  | encode
  | lead1 (x : Byte)
  | lead2 (x : Byte)
  | lead3 (x : Byte)
  | lead4 (x : Byte)
  | cont (x : Byte)
  deriving DecidableEq, Repr

end Sys2Proof
end

