-- ==== Sys2Proof/WellFormed.lean ====
section
/-! DEFINITION. Well-formed instructions: a payload is no wider than the payload field of its format
(30_encoding.md R72, column "payload width"). -/
namespace Sys2Proof

/-- A command has no operand (R80); a byte format's payload has the width R72 gives it: 7, 5, 4, 3 or 6 bits. -/
def Instr.wf : Instr → Bool
  | .clear => true
  | .decode => true
  | .encode => true
  | .lead1 x => decide (x.toNat < 2 ^ 7)
  | .lead2 x => decide (x.toNat < 2 ^ 5)
  | .lead3 x => decide (x.toNat < 2 ^ 4)
  | .lead4 x => decide (x.toNat < 2 ^ 3)
  | .cont x => decide (x.toNat < 2 ^ 6)

end Sys2Proof
end

