-- ==== Sys2Proof/Decode.lean ====
section
/-! DEFINITION. The length-class ROM (30_encoding.md R70, R71; 10_state.md R31), the length classifier and the
continuation check (40_decoder.md R101, R103), the decoder of command words and of bytes, and the encoder. -/
namespace Sys2Proof

/-- The index `k` of the length-class ROM: the unit's length in bytes, 1 to 4 (R31, R70). -/
inductive LengthClass where
  | one
  | two
  | three
  | four
  deriving DecidableEq, Repr

/-- The number of bytes of a unit of the class (R70, column k). -/
def LengthClass.len : LengthClass → Nat
  | .one => 1
  | .two => 2
  | .three => 3
  | .four => 4

/-- The classes in the order both classifiers try them (R101, R141). -/
def LengthClass.all : List LengthClass := [.one, .two, .three, .four]

/-- MARKER[k] (R70). -/
def romMarker : LengthClass → Byte
  | .one => 0x00#8
  | .two => 0xC0#8
  | .three => 0xE0#8
  | .four => 0xF0#8

/-- MASK[k] (R70). -/
def romMask : LengthClass → Byte
  | .one => 0x80#8
  | .two => 0xE0#8
  | .three => 0xF0#8
  | .four => 0xF8#8

/-- MAXCP[k] (R70), 21 bits (R31). -/
def romMaxCp : LengthClass → AccWord
  | .one => 0x00007F#21
  | .two => 0x0007FF#21
  | .three => 0x00FFFF#21
  | .four => 0x10FFFF#21

/-- LEADBITS[k] (R70). -/
def romLeadBits : LengthClass → Nat
  | .one => 7
  | .two => 5
  | .three => 4
  | .four => 3

/-- TOTALBITS[k] (R70). -/
def romTotalBits : LengthClass → Nat
  | .one => 7
  | .two => 11
  | .three => 16
  | .four => 21

/-- CONT_MARKER (R71). -/
def contMarker : Byte := 0x80#8

/-- CONT_MASK (R71). -/
def contMask : Byte := 0xC0#8

/-- CONT_BITS (R71). -/
def contBits : Nat := 6

/-- The length classifier `Classify(b)`: the first class whose marker the masked byte equals (R101). -/
def classify (b : Byte) : Option LengthClass :=
  LengthClass.all.find? fun k => (b &&& romMask k) == romMarker k

/-- The byte validator's continuation check `IsCont(b)` (R103). -/
def isCont (b : Byte) : Bool := (b &&& contMask) == contMarker

/-- Why a word is no instruction. -/
inductive DecodeRefusal where
  /-- A CMD word with OP = 3 or a bit of [31:2] set: a reserved encoding (R82). -/
  | reservedCommand (w : Word)
  /-- A byte 0xF8 to 0xFF: it matches none of the five byte formats (R72, R73). -/
  | noByteFormat (b : Byte)
  deriving DecidableEq, Repr

/-- The two kinds of word CORE reads: a command word written to CMD (R80) and a byte of BBUF the decoder consumes (R72). -/
inductive Code where
  | command (w : Word)
  | unitByte (b : Byte)
  deriving DecidableEq, Repr

/-- Decoding a command word (R80, R81, R82): OP is bits [1:0], bits [31:2] must be 0. -/
def decodeCommand (w : Word) : Except DecodeRefusal Instr :=
  if w >>> 2 ≠ 0#32 then .error (.reservedCommand w)
  else if w &&& 3#32 = 0#32 then .ok .clear
  else if w &&& 3#32 = 1#32 then .ok .decode
  else if w &&& 3#32 = 2#32 then .ok .encode
  else .error (.reservedCommand w)

/-- Decoding a byte (R72): a leading byte of the class `Classify` gives, else a continuation byte, else no format. The
payload of a leading byte is `b & ~MASK[k]`, of a continuation byte its low six bits (R75). -/
def decodeByte (b : Byte) : Except DecodeRefusal Instr :=
  match classify b with
  | some .one => .ok (.lead1 (b &&& ~~~romMask .one))
  | some .two => .ok (.lead2 (b &&& ~~~romMask .two))
  | some .three => .ok (.lead3 (b &&& ~~~romMask .three))
  | some .four => .ok (.lead4 (b &&& ~~~romMask .four))
  | none => if isCont b then .ok (.cont (b &&& ~~~contMask)) else .error (.noByteFormat b)

/-- Decoding either kind of word, total, rejecting by name. -/
def decode : Code → Except DecodeRefusal Instr
  | .command w => decodeCommand w
  | .unitByte b => decodeByte b

/-- The word of an instruction (R72, R81): a command's word is its opcode, a byte is its format's marker with the payload
OR'd in. -/
def encode : Instr → Code
  | .clear => .command 0x00000000#32
  | .decode => .command 0x00000001#32
  | .encode => .command 0x00000002#32
  | .lead1 x => .unitByte (romMarker .one ||| x)
  | .lead2 x => .unitByte (romMarker .two ||| x)
  | .lead3 x => .unitByte (romMarker .three ||| x)
  | .lead4 x => .unitByte (romMarker .four ||| x)
  | .cont x => .unitByte (contMarker ||| x)

/-- The row of spec/opcode_table.json an instruction belongs to: its width in bits, "mask" and "match". -/
def tableRow : Instr → Nat × Nat × Nat
  | .clear => (32, 0xFFFFFFFF, 0x00000000)
  | .decode => (32, 0xFFFFFFFF, 0x00000001)
  | .encode => (32, 0xFFFFFFFF, 0x00000002)
  | .lead1 _ => (8, 0x80, 0x00)
  | .lead2 _ => (8, 0xE0, 0xC0)
  | .lead3 _ => (8, 0xF0, 0xE0)
  | .lead4 _ => (8, 0xF8, 0xF0)
  | .cont _ => (8, 0xC0, 0x80)

/-- The instruction the decoder reads from `w`, numbered as spec/opcode_table.json numbers it: a row of 32 bits is a
command word, a row of 8 bits a byte. No other width occurs in the table. -/
def decodeTableWord (nbits w : Nat) : Option Instr :=
  if nbits = 32 then (decode (.command (BitVec.ofNat 32 w))).toOption
  else if nbits = 8 then (decode (.unitByte (BitVec.ofNat 8 w))).toOption
  else none

end Sys2Proof
end

