-- ==== Sys2Proof/Machine/State.lean ====
section
/-! DEFINITION. The state of CORE and of its host as plain data (10_state.md), the reasons a step stops, and the
state after reset (70_reset_and_hazards.md R230). -/
namespace Sys2Proof.Machine

/-- STATUS.STATE (R23). -/
inductive RunState where
  | idle
  | busy
  | doneOk
  | doneErr
  deriving DecidableEq, Repr

/-- The two operations (R14); `Option Op` is STATUS.LASTOP, `none` its value 0 (R23). -/
inductive Op where
  | decode
  | encode
  deriving DecidableEq, Repr

/-- The four errors (R200); `Option CoreError` is ERR_CODE.CODE, `none` its value 0 (R26). -/
inductive CoreError where
  | invalidLeadByte
  | truncatedSequence
  | invalidContinuationByte
  | codePointOutOfRange
  deriving DecidableEq, Repr

/-- The sequencer's `phase` (R33). -/
inductive Phase where
  | decLead
  | decCont
  | encLead
  | encCont
  deriving DecidableEq, Repr

/-- The two agents (R20). -/
inductive Agent where
  | host
  | core
  deriving DecidableEq, Repr

/-- The six host-visible registers (R21). -/
inductive Reg where
  | cmd
  | status
  | inLen
  | outLen
  | errCode
  | errPos
  deriving DecidableEq, Repr

/-- The host actions, and no others (R51). Offsets and indices are plain numbers, so that one out of range can be
written down (and is refused, R218). -/
inductive HostAction where
  | regRead (off : Nat)
  | regWrite (off : Nat) (v : Word)
  | bbufRead (i : Nat)
  | bbufWrite (i : Nat) (v : Byte)
  | wbufRead (i : Nat)
  | wbufWrite (i : Nat) (v : Word)
  deriving DecidableEq, Repr

/-- What the outside does next to CORE: a host action (R51), the statement WAIT of a host program (R83: repeat
`RegRead(0x04)` until STATE is not BUSY), or an assertion of the reset input (R213, R230). -/
inductive Input where
  | act (a : HostAction)
  | wait
  | reset
  deriving DecidableEq, Repr

/-- The value a host read returned (R51). -/
inductive Reply where
  | byte (v : Byte)
  | word (v : Word)
  deriving DecidableEq, Repr

/-- A buffer: pairs of an element index (not a byte address, R10) and an entry of `w` bits, in the canonical form
`Memory.wf` of Machine/Ops.lean. `Memory 8` is a list of `Host.Cell`. -/
abbrev Memory (w : Nat) := List (Nat × BitVec w)

/-- Everything the spec gives CORE (R21 to R34), then the outside (the host's side of R51) and the model's own counter.
CMD holds no value (R22), the ROM is constant (R31) and `done_irq` is a function of STATE (R36), so none of them is a field. -/
structure State where
  /-- The instance's parameters B_CAP and W_CAP (R6); no step writes them. -/
  cfg : Config
  /-- STATUS.STATE (R23). -/
  run : RunState
  /-- STATUS.LASTOP (R23). -/
  lastOp : Option Op
  /-- IN_LEN (R24). -/
  inLen : Word
  /-- OUT_LEN (R25). -/
  outLen : Word
  /-- ERR_CODE.CODE (R26). -/
  errCode : Option CoreError
  /-- ERR_POS (R27). -/
  errPos : Word
  /-- BBUF (R29). -/
  bbuf : List Host.Cell
  /-- WBUF (R30). -/
  wbuf : List (Nat × Word)
  /-- The accumulator `acc` (R32). -/
  acc : AccWord
  /-- `phase` (R33). -/
  phase : Phase
  /-- `n_in` (R33). -/
  nIn : Word
  /-- `rd_pos` (R33), the part a program counter plays. -/
  rdPos : Word
  /-- `wr_pos` (R33). -/
  wrPos : Word
  /-- `rem` (R33). -/
  rem : BitVec 2
  /-- `cp_latch` (R33). -/
  cpLatch : Word
  /-- `rbits` (R33). -/
  rbits : BitVec 5
  /-- THE OUTSIDE: what the host and the reset input do next, oldest first (R51, R213). -/
  inputs : List Input
  /-- THE OUTSIDE: what the host's reads have returned, newest first (R51). -/
  replies : List Reply
  /-- THE OUTSIDE: which agent moves next while an operation runs (R20, R237); log entry 6. -/
  sched : List Agent
  /-- THE MODEL'S OWN: how many times unspecified contents have been drawn; log entries 3, 4 and 5. -/
  draws : Nat
  deriving DecidableEq, Repr

/-- Why the machine stops with a fault. No run from a state that meets `Inv` raises one (R184: with the capacity
precondition "no microstep reads or writes a buffer index out of range"). -/
inductive Fault where
  /-- Raised by a microstep whose `rd_pos` names no entry of the input buffer (R50, R184). Safe: the model stops. -/
  | microstepReadOutOfRange
  /-- Raised by a microstep whose `wr_pos` names no entry of the output buffer (R50, R184). Safe: the model stops. -/
  | microstepWriteOutOfRange
  deriving DecidableEq, Repr

/-- Why the model refuses: the host actions to which CORE gives no meaning (60_exceptions.md R218). Every one is safe: the
run is refused and nothing is claimed of it. -/
inductive Refusal where
  /-- An instruction whose meaning has not been written. No arm of exec uses it. Safe. -/
  | notModelled (mnemonic : String)
  /-- A CMD write with OP = 3 or a bit of [31:2] set, raised by the host port (R82, R180). Safe. -/
  | reservedCommand
  /-- A CMD write while STATE = BUSY, raised by CLEAR, DECODE and ENCODE (R185). Safe. -/
  | commandWhileBusy
  /-- An IN_LEN write while STATE = BUSY, raised by the host port (R185). Safe. -/
  | inLenWriteWhileBusy
  /-- A BBUF or WBUF access while STATE = BUSY, raised by the host port (R185). Safe. -/
  | bufferAccessWhileBusy
  /-- A DECODE or ENCODE that fails its capacity precondition (R184). Safe. -/
  | capacityExceeded
  /-- A register access at an offset other than the six of R21, raised by the host port (R28). Safe. -/
  | unmappedOffset
  /-- A buffer access at an index the buffer does not have, raised by the host port (R52). Safe. -/
  | indexOutOfRange
  deriving DecidableEq, Repr

/-- The outcome of a step of CORE. -/
abbrev Outcome := Host.Outcome State Fault Refusal

/-- Right after reset (R230): STATUS, IN_LEN, OUT_LEN, ERR_CODE and ERR_POS are 0. DESIGN CHOICE: the hidden registers,
which R34 leaves unspecified, are 0 (log entry 2), the buffers list nothing (log entry 5), the instance is that of the
test vectors (log entry 1), and the outside has nothing pending (log entry 7). -/
def State.reset : State :=
  { cfg := Config.vectors
    run := .idle
    lastOp := none
    inLen := 0#32
    outLen := 0#32
    errCode := none
    errPos := 0#32
    bbuf := []
    wbuf := []
    acc := 0#21
    phase := .decLead
    nIn := 0#32
    rdPos := 0#32
    wrPos := 0#32
    rem := 0#2
    cpLatch := 0#32
    rbits := 0#5
    inputs := []
    replies := []
    sched := []
    draws := 0 }

end Sys2Proof.Machine
end

