-- ==== Sys2Proof/Machine/Flags.lean ====
section
/-! DEFINITION. CORE's status fields and what a register read returns (10_state.md R21 to R27), the error codes
(60_exceptions.md R200) and the completion signal (R212). CORE has no condition codes (R23). -/
namespace Sys2Proof.Machine

/-- STATUS.STATE as two bits (R23). -/
def RunState.code : RunState → BitVec 2
  | .idle => 0#2
  | .busy => 1#2
  | .doneOk => 2#2
  | .doneErr => 3#2

/-- The command opcode of an operation (R81). -/
def Op.code : Op → BitVec 2
  | .decode => 1#2
  | .encode => 2#2

/-- STATUS.LASTOP as two bits (R23); the value 3 is never produced. -/
def lastOpCode : Option Op → BitVec 2
  | none => 0#2
  | some op => op.code

/-- ERR_CODE.CODE as three bits (R26, R200); 5 to 7 are never produced. -/
def errorCode : Option CoreError → BitVec 3
  | none => 0#3
  | some .invalidLeadByte => 1#3
  | some .truncatedSequence => 2#3
  | some .invalidContinuationByte => 3#3
  | some .codePointOutOfRange => 4#3

/-- The STATUS register: STATE in [1:0], LASTOP in [3:2], [31:4] read as 0 (R23). -/
def State.statusWord (s : State) : Word := ((0#28 ++ lastOpCode s.lastOp) ++ s.run.code).setWidth 32

/-- The ERR_CODE register: CODE in [2:0], [31:3] read as 0 (R26). -/
def State.errCodeWord (s : State) : Word := (errorCode s.errCode).setWidth 32

/-- The register at an offset, if one is mapped there (R21). -/
def regAt (off : Nat) : Option Reg :=
  if off = 0x00 then some .cmd
  else if off = 0x04 then some .status
  else if off = 0x08 then some .inLen
  else if off = 0x0C then some .outLen
  else if off = 0x10 then some .errCode
  else if off = 0x14 then some .errPos
  else none

/-- The offset of a register (R21). -/
def Reg.offset : Reg → Nat
  | .cmd => 0x00
  | .status => 0x04
  | .inLen => 0x08
  | .outLen => 0x0C
  | .errCode => 0x10
  | .errPos => 0x14

/-- What `RegRead` of a register returns (R22 to R27); CMD reads as 0. -/
def State.regValue (s : State) : Reg → Word
  | .cmd => 0#32
  | .status => s.statusWord
  | .inLen => s.inLen
  | .outLen => s.outLen
  | .errCode => s.errCodeWord
  | .errPos => s.errPos

/-- STATE = BUSY. -/
def State.busy (s : State) : Bool := s.run == .busy

/-- The level output `done_irq` (R212, R36). -/
def State.doneIrq (s : State) : Bool := s.run == .doneOk || s.run == .doneErr

end Sys2Proof.Machine
end

