-- ==== Sys2Proof/Machine/Operands.lean ====
section
/-! DEFINITION. The stage functions of both pipelines: bit fields (00_scope.md R8), the bit-field extractor and the
accumulator (40_decoder.md R104 to R107), the magnitude classifier, the length allocator, the bit-packer and the
continuation-byte generator (41_encoder.md R141 to R144). They read their arguments and the ROM only (R12). -/
namespace Sys2Proof.Machine

/-- `v[hi:lo]`, right-aligned: `(v >> lo) & (2^(hi-lo+1) - 1)` (R8). -/
def bits (v : Word) (hi lo : Nat) : Word := (v >>> lo) &&& BitVec.ofNat 32 (2 ^ (hi - lo + 1) - 1)

/-- `LeadPayload(b, L) = zext_21(b & ~MASK[L])` (R104). -/
def leadPayload (b : Byte) (k : LengthClass) : AccWord := (b &&& ~~~romMask k).setWidth 21

/-- `ContPayload(b) = zext_21(b[5:0])` (R105). -/
def contPayload (b : Byte) : AccWord := (b.extractLsb' 0 contBits).setWidth 21

/-- The accumulator's seed from a payload already taken out of its leading byte (R106). -/
def accSeed (x : Byte) : AccWord := x.setWidth 21

/-- The accumulator's shift and merge, `((acc << 6) | payload)[20:0]` (R107). -/
def accMerge (acc : AccWord) (x : Byte) : AccWord := (acc <<< contBits) ||| x.setWidth 21

/-- The emitted word `zext_32(acc)` (R108). -/
def accEmit (acc : AccWord) : Word := acc.setWidth 32

/-- `MagClass(cp)`: the first class whose MAXCP admits the value, unsigned at 32 bits (R141). -/
def magClass (cp : Word) : Option LengthClass :=
  LengthClass.all.find? fun k => decide (cp.toNat ≤ (romMaxCp k).toNat)

/-- `remaining_bits` of class `k`, `TOTALBITS[k] - LEADBITS[k]` (R142). -/
def remainingBits (k : LengthClass) : Nat := romTotalBits k - romLeadBits k

/-- The leading byte `MARKER[k] | cp[TOTALBITS[k]-1 : remaining_bits]` (R143). -/
def packLead (k : LengthClass) (cp : Word) : Byte :=
  romMarker k ||| (bits cp (romTotalBits k - 1) (remainingBits k)).setWidth 8

/-- The continuation byte `CONT_MARKER | cp[r+5 : r]` (R144). -/
def packCont (cp : Word) (r : Nat) : Byte := contMarker ||| (bits cp (r + 5) r).setWidth 8

end Sys2Proof.Machine
end

