-- ==== Sys2Proof/Machine/Ops.lean ====
section
/-! DEFINITION. The named operations over the buffers and the registers: reading, writing and drawing buffer entries
(20_memory.md), starting and finishing an operation (42_control.md R183, R186), TAKING AN ERROR (60_exceptions.md R207,
R208) and leaving one (R210, R181), and the reset input (70_reset_and_hazards.md R230, R231). -/
namespace Sys2Proof.Machine

/-! ## Buffers -/

/-- What an entry that is not listed reads as. DESIGN CHOICE, log entry 5: R29 and R30 leave the contents after reset open. -/
def Memory.unlisted (w : Nat) : BitVec w := 0#w

/-- Reading entry `i` (R10); one whole entry (R52). -/
def Memory.read {w : Nat} : Memory w → Nat → BitVec w
  | [], _ => Memory.unlisted w
  | (j, u) :: rest, i => if i = j then u else Memory.read rest i

/-- Writing entry `i` (R10), keeping indices rising and no entry equal to an unlisted one. -/
def Memory.write {w : Nat} : Memory w → Nat → BitVec w → Memory w
  | [], i, v => if v = Memory.unlisted w then [] else [(i, v)]
  | (j, u) :: rest, i, v =>
    if i < j then (if v = Memory.unlisted w then (j, u) :: rest else (i, v) :: (j, u) :: rest)
    else if i = j then (if v = Memory.unlisted w then rest else (i, v) :: rest)
    else (j, u) :: Memory.write rest i v

/-- Entries `0 .. n-1` take the values `value` gives them, the others keep theirs. -/
def Memory.fill {w : Nat} (value : Nat → BitVec w) : Nat → Memory w → Memory w
  | 0, m => m
  | n + 1, m => Memory.write (Memory.fill value n m) n (value n)

/-- The canonical form above a bound: indices strictly rise from `lo`, no entry equals an unlisted one. -/
def Memory.wfFrom {w : Nat} : Nat → Memory w → Bool
  | _, [] => true
  | lo, (j, u) :: rest => decide (lo ≤ j) && u != Memory.unlisted w && Memory.wfFrom (j + 1) rest

/-- The canonical form of a buffer: equal contents are equal data. -/
def Memory.wf {w : Nat} (m : Memory w) : Bool := Memory.wfFrom 0 m

/-- Every listed index is below the buffer's capacity (R29, R30: no other entry exists). -/
def Memory.within {w : Nat} (m : Memory w) (cap : Nat) : Bool := m.all fun c => decide (c.1 < cap)

/-- `MemRead(BBUF, i, 1)` (R10, R51). -/
def State.readByte (s : State) (i : Nat) : Byte := Memory.read s.bbuf i

/-- `MemRead(WBUF, i, 4)` (R10, R51). -/
def State.readWord (s : State) (i : Nat) : Word := Memory.read s.wbuf i

/-- `MemWrite(BBUF, i, 1, v)` (R10, R51). -/
def State.writeByte (s : State) (i : Nat) (v : Byte) : State := { s with bbuf := Memory.write s.bbuf i v }

/-- `MemWrite(WBUF, i, 4, v)` (R10, R51). -/
def State.writeWord (s : State) (i : Nat) (v : Word) : State := { s with wbuf := Memory.write s.wbuf i v }

/-- The sequence that stands in BBUF at indices `0 .. n-1` (R53). -/
def State.bytesIn (s : State) (n : Nat) : List Byte := (List.range n).map s.readByte

/-- The sequence that stands in WBUF at indices `0 .. n-1` (R53). -/
def State.wordsIn (s : State) (n : Nat) : List Word := (List.range n).map s.readWord

/-- The host gets a value it read (R51). -/
def State.reply (s : State) (r : Reply) : State := { s with replies := r :: s.replies }

/-! ## Starting and finishing an operation -/

/-- The phase an operation begins in (R111, R147). -/
def Op.startPhase : Op → Phase
  | .decode => .decLead
  | .encode => .encLead

/-- The capacity precondition, on exact integers (R184). -/
def State.fits (s : State) : Op → Bool
  | .decode => decide (s.inLen.toNat ≤ s.cfg.bCap) && decide (s.inLen.toNat ≤ s.cfg.wCap)
  | .encode => decide (s.inLen.toNat ≤ s.cfg.wCap) && decide (4 * s.inLen.toNat ≤ s.cfg.bCap)

/-- `start(op)` with the pipeline's own start, one atomic step (R183, R111, R147). `acc`, `rem`, `cp_latch` and `rbits`
are not set. -/
def State.start (s : State) (op : Op) : State :=
  { s with
    nIn := s.inLen
    run := .busy
    lastOp := some op
    outLen := 0#32
    errCode := none
    errPos := 0#32
    phase := op.startPhase
    rdPos := 0#32
    wrPos := 0#32 }

/-- `finish_ok(n)` (R186). -/
def State.finishOk (s : State) (n : Word) : State := { s with outLen := n, run := .doneOk }

/-! ## Taking an error and leaving it -/

/-- The output entries below the output bound OB hold unspecified values after an error (R57, R208): DECODE draws the
entries `0 .. n_in-1` of WBUF anew, ENCODE the entries `0 .. 4*n_in-1` of BBUF, none beyond the buffer. -/
def State.dropOutput (s : State) : Op → State
  | .decode =>
    { s with wbuf := Memory.fill (Config.freeWord s.draws) (min s.nIn.toNat s.cfg.wCap) s.wbuf, draws := s.draws + 1 }
  | .encode =>
    { s with bbuf := Memory.fill (Config.freeByte s.draws) (min (4 * s.nIn.toNat) s.cfg.bCap) s.bbuf, draws := s.draws + 1 }

/-- TAKING AN ERROR, `raise E(pos)` of operation `op` (R207): ERR_CODE, ERR_POS, OUT_LEN and STATE in one step, LASTOP
kept, and the output dropped (R208). Nothing else is saved: CORE has no saved program counter, mode or mask. -/
def State.raise (s : State) (op : Op) (e : CoreError) (pos : Word) : State :=
  { s.dropOutput op with
    errCode := some e
    errPos := pos
    outLen := 0#32
    run := .doneErr }

/-- LEAVING AN ERROR (or any result) with CLEAR (R181, R210): nothing is restored. -/
def State.clearResult (s : State) : State :=
  { s with
    run := .idle
    lastOp := none
    outLen := 0#32
    errCode := none
    errPos := 0#32 }

/-! ## The reset input -/

/-- The phase two bits stand for; which bits stand for which phase is not observable (R33). -/
def Phase.ofBits (b : BitVec 2) : Phase :=
  if b = 0#2 then .decLead else if b = 1#2 then .decCont else if b = 2#2 then .encLead else .encCont

/-- The reset input (R230, R231): the registers are 0, the buffers and the hidden registers are drawn anew, a running
operation is abandoned. The parameters stay, and so does the outside. -/
def State.resetInput (s : State) : State :=
  { s with
    run := .idle
    lastOp := none
    inLen := 0#32
    outLen := 0#32
    errCode := none
    errPos := 0#32
    bbuf := Memory.fill (Config.freeByte s.draws) s.cfg.bCap []
    wbuf := Memory.fill (Config.freeWord s.draws) s.cfg.wCap []
    acc := Config.freeAcc s.draws
    phase := Phase.ofBits (Config.freePhase s.draws)
    nIn := Config.freeNIn s.draws
    rdPos := Config.freeRdPos s.draws
    wrPos := Config.freeWrPos s.draws
    rem := Config.freeRem s.draws
    cpLatch := Config.freeCpLatch s.draws
    rbits := Config.freeRbits s.draws
    draws := s.draws + 1 }

/-! ## Turns -/

/-- Which agent moves (R20, R187): only the host while no operation runs. While one runs, the schedule says who is first;
a schedule or an input list that is used up leaves the move to the sequencer, which is the fairness R237 assumes. -/
def State.nextAgent (s : State) : Agent :=
  if s.busy then
    match s.inputs, s.sched with
    | _ :: _, .host :: _ => .host
    | _, _ => .core
  else .host

/-- The schedule's entry for this turn is used up; the schedule only runs while an operation does. -/
def State.afterTurn (s : State) : State := if s.busy then { s with sched := s.sched.tail } else s

end Sys2Proof.Machine
end

