-- ==== Sys2Proof/Machine/Control.lean ====
section
/-! DEFINITION. The meanings of the three commands (42_control.md R180 to R185; 40_decoder.md R110, R111; 41_encoder.md
R146, R147). Each is what the CMD write of its command word does at once; the microsteps that follow are the sequencer's. -/
namespace Sys2Proof.Machine

/-- A DECODE or ENCODE command: refused while BUSY (R185), refused when its capacity precondition fails (R184), else the
start (R183). It may be started from IDLE, DONE_OK or DONE_ERR (R182). -/
def startCommand (op : Op) (s : State) : Outcome :=
  if s.busy then .refused .commandWhileBusy
  else if s.fits op then .next (s.start op)
  else .refused .capacityExceeded

/-- CLEAR (R181). -/
def execClear (s : State) : Outcome :=
  if s.busy then .refused .commandWhileBusy else .next s.clearResult

/-- DECODE (R110). -/
def execDecode (s : State) : Outcome := startCommand .decode s

/-- ENCODE (R146). -/
def execEncode (s : State) : Outcome := startCommand .encode s

end Sys2Proof.Machine
end

