-- ==== Sys2Proof/Machine/Decoder.lean ====
section
/-! DEFINITION. The decoder pipeline's two microsteps (40_decoder.md R112, R113) and, over them, the meanings of the five
byte formats: what the sequencer does on the byte at `rd_pos` when it has that format. -/
namespace Sys2Proof.Machine

/-- What a byte is to the decoder (R73): a leading byte of a class, a continuation byte, or neither. -/
inductive ByteRole where
  | lead (k : LengthClass)
  | cont
  | noFormat
  deriving DecidableEq, Repr

/-- The role of a byte, by its class and the continuation check (R73, R101, R103). -/
def byteRole (b : Byte) : ByteRole :=
  match classify b with
  | some k => .lead k
  | none => if isCont b then .cont else .noFormat

/-- The accumulator, emit (R108): WBUF[wr_pos] takes `zext_32(acc)` and `wr_pos` advances. -/
def emitWord (s : State) : Outcome :=
  if s.wrPos.toNat < s.cfg.wCap then
    .next { s.writeWord s.wrPos.toNat (accEmit s.acc) with wrPos := s.wrPos + 1#32 }
  else .fault .microstepWriteOutOfRange

/-- A leading byte of class `k` with payload `x` that fits the input: seed and advance, then emit (L = 1) or wait for
`L - 1` continuation bytes (R112). -/
def seedUnit (k : LengthClass) (x : Byte) (s : State) : Outcome :=
  match k with
  | .one => emitWord { s with acc := accSeed x, rdPos := s.rdPos + 1#32 }
  | k =>
    .next { s with
      acc := accSeed x
      rdPos := s.rdPos + 1#32
      rem := BitVec.ofNat 2 (k.len - 1)
      phase := .decCont }

/-- Microstep DEC_LEAD on a byte of role `r` with payload `x` (R112), the checks in the order of R205. The length check
`n_in - rd_pos < L` is on exact integers (R9). -/
def decLeadStep (r : ByteRole) (x : Byte) (s : State) : Outcome :=
  if s.rdPos = s.nIn then .next (s.finishOk s.wrPos)
  else
    match r with
    | .lead k =>
      if s.nIn.toNat < s.rdPos.toNat + k.len then .next (s.raise .decode .truncatedSequence s.rdPos)
      else seedUnit k x s
    | .cont => .next (s.raise .decode .invalidLeadByte s.rdPos)
    | .noFormat => .next (s.raise .decode .invalidLeadByte s.rdPos)

/-- A continuation byte with payload `x`: merge, advance and count down; the last one of its unit emits (R113). -/
def mergeUnit (x : Byte) (s : State) : Outcome :=
  if s.rem - 1#2 = 0#2 then
    emitWord { s with acc := accMerge s.acc x, rdPos := s.rdPos + 1#32, rem := s.rem - 1#2, phase := .decLead }
  else
    .next { s with acc := accMerge s.acc x, rdPos := s.rdPos + 1#32, rem := s.rem - 1#2 }

/-- Microstep DEC_CONT on a byte of role `r` with payload `x` (R113). -/
def decContStep (r : ByteRole) (x : Byte) (s : State) : Outcome :=
  match r with
  | .cont => mergeUnit x s
  | .lead _ => .next (s.raise .decode .invalidContinuationByte s.rdPos)
  | .noFormat => .next (s.raise .decode .invalidContinuationByte s.rdPos)

/-- The decoder microstep that `phase` names, on a byte of role `r` with payload `x`. Where no decoder microstep is enabled
(R187) a byte is data that nothing reads, and CORE holds its state (R217). DEDUCED, log entry 8. -/
def consumeByte (r : ByteRole) (x : Byte) (s : State) : Outcome :=
  if s.busy then
    match s.phase with
    | .decLead => decLeadStep r x s
    | .decCont => decContStep r x s
    | .encLead => .next s
    | .encCont => .next s
  else .next s

/-- LEAD1, the leading byte of a 1-byte unit (R72, R101, R112). -/
def execLead1 (x : Byte) (s : State) : Outcome := consumeByte (.lead .one) x s

/-- LEAD2, the leading byte of a 2-byte unit (R72, R101, R112). -/
def execLead2 (x : Byte) (s : State) : Outcome := consumeByte (.lead .two) x s

/-- LEAD3, the leading byte of a 3-byte unit (R72, R101, R112). -/
def execLead3 (x : Byte) (s : State) : Outcome := consumeByte (.lead .three) x s

/-- LEAD4, the leading byte of a 4-byte unit (R72, R101, R112). -/
def execLead4 (x : Byte) (s : State) : Outcome := consumeByte (.lead .four) x s

/-- CONT, a continuation byte (R72, R103, R113). -/
def execCont (x : Byte) (s : State) : Outcome := consumeByte .cont x s

end Sys2Proof.Machine
end

