-- ==== Sys2Proof/Machine/Dispatch.lean ====
section
/-! DEFINITION. One arm per row of spec/opcode_table.json. -/
namespace Sys2Proof.Machine

def exec (i : Instr) (s : State) : Host.Outcome State Fault Refusal :=
  match i with
  | .clear => Sys2Proof.Machine.execClear s
  | .decode => Sys2Proof.Machine.execDecode s
  | .encode => Sys2Proof.Machine.execEncode s
  | .lead1 x => Sys2Proof.Machine.execLead1 x s
  | .lead2 x => Sys2Proof.Machine.execLead2 x s
  | .lead3 x => Sys2Proof.Machine.execLead3 x s
  | .lead4 x => Sys2Proof.Machine.execLead4 x s
  | .cont x => Sys2Proof.Machine.execCont x s

end Sys2Proof.Machine
end

