-- ==== Sys2Proof/Machine/HostPort.lean ====
section
/-! DEFINITION. The host port: what each host action of 20_memory.md R51 does, with the refusals of 60_exceptions.md R218,
and one turn of the outside. -/
namespace Sys2Proof.Machine

/-- `RegWrite(0x00, v)` (R180): a reserved word is refused first; a command runs. -/
def writeCommand (v : Word) (s : State) : Outcome :=
  match Sys2Proof.decode (.command v) with
  | .ok i => exec i s
  | .error _ => .refused .reservedCommand

/-- `RegRead(off)` (R51, R58): allowed at any time (R185). -/
def readRegister (off : Nat) (s : State) : Outcome :=
  match regAt off with
  | some r => .next (s.reply (.word (s.regValue r)))
  | none => .refused .unmappedOffset

/-- A write to a mapped register: CMD runs a command (R22), IN_LEN takes the value unless BUSY (R24, R185), a read-only
register is unchanged (R28). -/
def writeMapped (r : Reg) (v : Word) (s : State) : Outcome :=
  match r with
  | .cmd => writeCommand v s
  | .inLen => if s.busy then .refused .inLenWriteWhileBusy else .next { s with inLen := v }
  | .status => .next s
  | .outLen => .next s
  | .errCode => .next s
  | .errPos => .next s

/-- `RegWrite(off, v)` (R51). -/
def writeRegister (off : Nat) (v : Word) (s : State) : Outcome :=
  match regAt off with
  | some r => writeMapped r v s
  | none => .refused .unmappedOffset

/-- A buffer access at index `i` of a buffer of `cap` entries: refused while BUSY (R185), refused out of range (R52), else
`t`. DESIGN CHOICE, log entry 9: an access that breaks both duties is refused as BufferAccessWhileBusy. -/
def bufferAccess (cap i : Nat) (s t : State) : Outcome :=
  if s.busy then .refused .bufferAccessWhileBusy
  else if i < cap then .next t
  else .refused .indexOutOfRange

/-- A host action (R51). -/
def hostAct (a : HostAction) (s : State) : Outcome :=
  match a with
  | .regRead off => readRegister off s
  | .regWrite off v => writeRegister off v s
  | .bbufRead i => bufferAccess s.cfg.bCap i s (s.reply (.byte (s.readByte i)))
  | .bbufWrite i v => bufferAccess s.cfg.bCap i s (s.writeByte i v)
  | .wbufRead i => bufferAccess s.cfg.wCap i s (s.reply (.word (s.readWord i)))
  | .wbufWrite i v => bufferAccess s.cfg.wCap i s (s.writeWord i v)

/-- WAIT reads STATUS, and stays the next statement as long as it reads BUSY (R83). -/
def waitTurn (rest : List Input) (s : State) : State :=
  if s.busy then s.reply (.word s.statusWord) else { s.reply (.word s.statusWord) with inputs := rest }

/-- One turn of the outside. With nothing to do CORE holds its state (R217). -/
def hostTurn (s : State) : Outcome :=
  match s.inputs with
  | [] => .next s
  | .act a :: rest => hostAct a { s with inputs := rest }
  | .wait :: rest => .next (waitTurn rest s)
  | .reset :: rest => .next { s with inputs := rest }.resetInput

/-! ## Host programs (30_encoding.md R83, R84) -/

/-- `W <reg>, <v>`. -/
def Reg.put (r : Reg) (v : Word) : Input := .act (.regWrite r.offset v)

/-- `R <reg>`. -/
def Reg.get (r : Reg) : Input := .act (.regRead r.offset)

/-- `LOADB i, b0, b1, ..., bn`. -/
def loadBytes : Nat → List Byte → List Input
  | _, [] => []
  | i, b :: rest => .act (.bbufWrite i b) :: loadBytes (i + 1) rest

/-- `LOADW i, w0, w1, ..., wn`. -/
def loadWords : Nat → List Word → List Input
  | _, [] => []
  | i, v :: rest => .act (.wbufWrite i v) :: loadWords (i + 1) rest

/-- `CLEAR`. -/
def clearProgram : List Input := [Reg.put .cmd 0#32]

/-- `RUNDEC n`. -/
def runDecode (n : Word) : List Input := [Reg.put .inLen n, Reg.put .cmd 1#32, .wait]

/-- `RUNENC n`. -/
def runEncode (n : Word) : List Input := [Reg.put .inLen n, Reg.put .cmd 2#32, .wait]

end Sys2Proof.Machine
end

