-- ==== Sys2Proof/Machine/Encoder.lean ====
section
/-! DEFINITION. The encoder pipeline's two microsteps (41_encoder.md R148, R149). Their input is a code-point word, which
has no format of its own in the opcode table: every 32-bit value is a legal word (30_encoding.md R76). -/
namespace Sys2Proof.Machine

/-- The leading byte of the unit for `cp`, of class `k` (R148): one output byte; the unit's remaining bytes are left to
ENC_CONT. -/
def placeLead (k : LengthClass) (cp : Word) (s : State) : State :=
  match k with
  | .one =>
    { s.writeByte s.wrPos.toNat (packLead .one cp) with wrPos := s.wrPos + 1#32, rdPos := s.rdPos + 1#32 }
  | k =>
    { s.writeByte s.wrPos.toNat (packLead k cp) with
      wrPos := s.wrPos + 1#32
      cpLatch := cp
      rbits := BitVec.ofNat 5 (remainingBits k)
      rem := BitVec.ofNat 2 (k.len - 1)
      phase := .encCont }

/-- Microstep ENC_LEAD (R148). -/
def encLeadStep (s : State) : Outcome :=
  if s.rdPos = s.nIn then .next (s.finishOk s.wrPos)
  else if s.rdPos.toNat < s.cfg.wCap then
    match magClass (s.readWord s.rdPos.toNat) with
    | none => .next (s.raise .encode .codePointOutOfRange s.rdPos)
    | some k =>
      if s.wrPos.toNat < s.cfg.bCap then .next (placeLead k (s.readWord s.rdPos.toNat) s)
      else .fault .microstepWriteOutOfRange
  else .fault .microstepReadOutOfRange

/-- The next continuation byte of the unit (R149). -/
def placeCont (s : State) : State :=
  { s.writeByte s.wrPos.toNat (packCont s.cpLatch (s.rbits - 6#5).toNat) with
    rbits := s.rbits - 6#5
    wrPos := s.wrPos + 1#32
    rem := s.rem - 1#2
    rdPos := if s.rem - 1#2 = 0#2 then s.rdPos + 1#32 else s.rdPos
    phase := if s.rem - 1#2 = 0#2 then .encLead else s.phase }

/-- Microstep ENC_CONT (R149). -/
def encContStep (s : State) : Outcome :=
  if s.wrPos.toNat < s.cfg.bCap then .next (placeCont s) else .fault .microstepWriteOutOfRange

end Sys2Proof.Machine
end

