-- ==== Sys2Proof/Machine/Sequencer.lean ====
section
/-! DEFINITION. The CORE sequencer (10_state.md R20, R33): it takes the one microstep that `phase` names (42_control.md R187).
In the decoder's phases it fetches the byte at `rd_pos`, decodes it, and runs the byte format it has. -/
namespace Sys2Proof.Machine

/-- The byte `b` runs: as the instruction it decodes to, or as a byte of no format (R73). -/
def runByte (b : Byte) (s : State) : Outcome :=
  match Sys2Proof.decode (.unitByte b) with
  | .ok i => exec i s
  | .error _ => consumeByte .noFormat b s

/-- Fetching the byte at `rd_pos`, which plays the part of a program counter (R33), and running it. -/
def fetchByte (s : State) : Outcome :=
  if s.rdPos.toNat < s.cfg.bCap then runByte (s.readByte s.rdPos.toNat) s
  else .fault .microstepReadOutOfRange

/-- One microstep: none is enabled while no operation runs (R187); DEC_LEAD reads no byte once the input is used up
(R112). -/
def microstep (s : State) : Outcome :=
  if s.busy then
    match s.phase with
    | .decLead => if s.rdPos = s.nIn then .next (s.finishOk s.wrPos) else fetchByte s
    | .decCont => fetchByte s
    | .encLead => encLeadStep s
    | .encCont => encContStep s
  else .next s

end Sys2Proof.Machine
end

