-- ==== Sys2Proof/Machine/Step.lean ====
section
/-! DEFINITION. One step of the machine: one turn of the agent that moves (10_state.md R20). -/
namespace Sys2Proof.Machine

/-- One step: the outside's turn, which carries out one host action (an indivisible event, R51), or one microstep of the
running operation. -/
def step (s : State) : Host.Outcome State Fault Refusal :=
  match s.nextAgent with
  | .host => hostTurn s.afterTurn
  | .core => microstep s.afterTurn

/-- The command word `w` becomes the host's next action, a CMD write, and the host moves next. -/
def State.withCommand (s : State) (w : Word) : State :=
  { s with
    inputs := .act (.regWrite 0x00 w) :: s.inputs
    sched := if s.busy then .host :: s.sched else s.sched }

/-- The byte `b` becomes the byte the decoder reads next: a DECODE runs, it stands at `rd_pos = 0` with four bytes of input
left, in the phase that reads a byte of its format, and the sequencer moves next. -/
def State.withUnitByte (s : State) (b : Byte) : State :=
  { s.writeByte 0 b with
    run := .busy
    phase := if isCont b then .decCont else .decLead
    nIn := 4#32
    rdPos := 0#32
    wrPos := 0#32
    rem := 1#2
    sched := .core :: s.sched }

/-- The instruction whose bits are `w` stands where `step` takes its next instruction from (log entry 7): a command word is
the host's next CMD write, a byte is the decoder's next input byte. -/
def State.withFetchWord (s : State) (nbits w : Nat) : State :=
  if nbits = 32 then s.withCommand (BitVec.ofNat 32 w)
  else if nbits = 8 then s.withUnitByte (BitVec.ofNat 8 w)
  else s

end Sys2Proof.Machine
end

