-- ==== Sys2Proof/Machine/Functions.lean ====
section
/-! DEFINITION. The whole-operation functions of the spec: `DecodeFn` (40_decoder.md R109) and `EncodeFn` (41_encoder.md
R145). The machine does not call them: it takes the microsteps, and the statements say that they agree. -/
namespace Sys2Proof.Machine

/-- `Ok(out)` or `Err(code, pos)`. -/
inductive CodecResult (α : Type) where
  | ok (out : List α)
  | err (e : CoreError) (pos : Nat)
  deriving DecidableEq, Repr

/-- The loop of R109 over `j`: `n` continuation bytes are taken from `s`, the first of them at index `pos`. It answers the
accumulator and the bytes after them, or the index of the first byte that is no continuation byte. A sequence that ends
early cannot occur, because R109 checks the length first. -/
def takeConts : Nat → List Byte → Nat → AccWord → Except Nat (AccWord × List Byte)
  | 0, s, _, acc => .ok (acc, s)
  | _ + 1, [], pos, _ => .error pos
  | n + 1, b :: s, pos, acc =>
    if isCont b then takeConts n s (pos + 1) ((acc <<< contBits) ||| contPayload b) else .error pos

/-- The loop of R109 over units: `s` is the input from index `pos` on, `out` the output so far. `fuel` bounds the number of
units; each takes at least one byte, so the input's length is enough. -/
def decodeUnits : Nat → List Byte → Nat → List Word → CodecResult Word
  | _, [], _, out => .ok out
  | 0, _ :: _, _, out => .ok out
  | fuel + 1, b0 :: s, pos, out =>
    match classify b0 with
    | none => .err .invalidLeadByte pos
    | some k =>
      if (b0 :: s).length < k.len then .err .truncatedSequence pos
      else
        match takeConts (k.len - 1) s (pos + 1) (leadPayload b0 k) with
        | .error p => .err .invalidContinuationByte p
        | .ok (acc, rest) => decodeUnits fuel rest (pos + k.len) (out ++ [accEmit acc])

/-- `DecodeFn(s)` (R109). -/
def decodeFn (s : List Byte) : CodecResult Word := decodeUnits s.length s 0 []

/-- The classes of the units a byte sequence falls into, in order, as R109 cuts it (R118 speaks of the class of a unit). -/
def unitClassesFrom : Nat → List Byte → List LengthClass
  | _, [] => []
  | 0, _ :: _ => []
  | fuel + 1, b0 :: s =>
    match classify b0 with
    | none => []
    | some k => k :: unitClassesFrom fuel (s.drop (k.len - 1))

/-- The classes of the units of `s`. -/
def unitClasses (s : List Byte) : List LengthClass := unitClassesFrom s.length s

/-- The continuation bytes of R145: `n` of them, `r` the bits not yet placed. -/
def contBytes (cp : Word) : Nat → Nat → List Byte
  | 0, _ => []
  | n + 1, r => packCont cp (r - 6) :: contBytes cp n (r - 6)

/-- The unit of class `k` for `cp` (R145, R77). -/
def unitBytes (k : LengthClass) (cp : Word) : List Byte :=
  packLead k cp :: contBytes cp (k.len - 1) (remainingBits k)

/-- The loop of R145: `s` is the input from index `i` on, `out` the output so far. -/
def encodeWords : List Word → Nat → List Byte → CodecResult Byte
  | [], _, out => .ok out
  | cp :: s, i, out =>
    match magClass cp with
    | none => .err .codePointOutOfRange i
    | some k => encodeWords s (i + 1) (out ++ unitBytes k cp)

/-- `EncodeFn(s)` (R145). -/
def encodeFn (s : List Word) : CodecResult Byte := encodeWords s 0 []

end Sys2Proof.Machine
end

