-- ==== Sys2Proof/Safety.lean ====
section
/-! DEFINITION. What a good state and a good host action are, in the terms the statements use: the invariant `Inv`, which
holds at reset and rules out the states no run reaches, and the duties of the host (60_exceptions.md R218). -/
namespace Sys2Proof.Machine

/-- The parameters are in the range of R6, and each buffer is in canonical form and lists only entries it has (R29, R30). -/
abbrev BuffersOk (s : State) : Prop :=
  s.cfg.valid = true ∧ Memory.wf s.bbuf = true ∧ Memory.wf s.wbuf = true ∧
    Memory.within s.bbuf s.cfg.bCap = true ∧ Memory.within s.wbuf s.cfg.wCap = true

/-- OUT_LEN is 0 but in DONE_OK (R25), ERR_CODE and ERR_POS are 0 but in DONE_ERR (R26, R27), where ERR_POS names an input
element; LASTOP is 0 exactly in IDLE (R23). -/
abbrev ResultOk (s : State) : Prop :=
  (s.run ≠ .doneOk → s.outLen = 0#32) ∧
    (s.run ≠ .doneErr → s.errCode = none ∧ s.errPos = 0#32) ∧
    (s.run = .doneErr → s.errCode ≠ none ∧ s.errPos.toNat < s.nIn.toNat) ∧
    (s.run = .idle ↔ s.lastOp = none)

/-- DECODE reports only its three errors and ENCODE only its one (R204), and OUT_LEN obeys the bounds of R117 and R155. -/
abbrev OutcomeOk (s : State) : Prop :=
  (s.run = .doneErr → s.lastOp = some .decode → s.errCode ≠ some .codePointOutOfRange) ∧
    (s.run = .doneErr → s.lastOp = some .encode → s.errCode = some .codePointOutOfRange) ∧
    (s.run = .doneOk → s.lastOp = some .decode → s.outLen.toNat ≤ s.nIn.toNat) ∧
    (s.run = .doneOk → s.lastOp = some .encode →
      s.nIn.toNat ≤ s.outLen.toNat ∧ s.outLen.toNat ≤ 4 * s.nIn.toNat)

/-- While an operation runs, the sampled length meets the capacity precondition (R184). -/
abbrev CapacityOk (s : State) : Prop :=
  (s.run = .busy → s.lastOp = some .decode → s.nIn.toNat ≤ s.cfg.bCap ∧ s.nIn.toNat ≤ s.cfg.wCap) ∧
    (s.run = .busy → s.lastOp = some .encode → s.nIn.toNat ≤ s.cfg.wCap ∧ 4 * s.nIn.toNat ≤ s.cfg.bCap)

/-- The sequencer's positions between two units of a DECODE (R112). -/
abbrev DecLeadOk (s : State) : Prop :=
  s.run = .busy → s.phase = .decLead →
    s.lastOp = some .decode ∧ s.rdPos.toNat ≤ s.nIn.toNat ∧ s.wrPos.toNat ≤ s.rdPos.toNat

/-- Inside a unit of a DECODE the unit's remaining bytes are in the input (R113), and the accumulator has room for their
payloads (R107). -/
abbrev DecContOk (s : State) : Prop :=
  s.run = .busy → s.phase = .decCont →
    s.lastOp = some .decode ∧ 1 ≤ s.rem.toNat ∧ s.rdPos.toNat + s.rem.toNat ≤ s.nIn.toNat ∧
      s.wrPos.toNat + 1 ≤ s.rdPos.toNat ∧ s.acc.toNat < 2 ^ (21 - 6 * s.rem.toNat)

/-- The sequencer's positions between two units of an ENCODE (R148, R155). -/
abbrev EncLeadOk (s : State) : Prop :=
  s.run = .busy → s.phase = .encLead →
    s.lastOp = some .encode ∧ s.rdPos.toNat ≤ s.nIn.toNat ∧ s.rdPos.toNat ≤ s.wrPos.toNat ∧
      s.wrPos.toNat ≤ 4 * s.rdPos.toNat

/-- Inside a unit of an ENCODE: "`rbits = 6 * rem`" (R149), and the unit's remaining bytes have room (R142). -/
abbrev EncContOk (s : State) : Prop :=
  s.run = .busy → s.phase = .encCont →
    s.lastOp = some .encode ∧ s.rdPos.toNat < s.nIn.toNat ∧ 1 ≤ s.rem.toNat ∧ s.rbits.toNat = 6 * s.rem.toNat ∧
      s.rdPos.toNat + 1 ≤ s.wrPos.toNat ∧ s.wrPos.toNat + s.rem.toNat ≤ 4 * s.rdPos.toNat + 4 ∧
      s.cpLatch.toNat ≤ 0x10FFFF

/-- The invariant of the machine. -/
structure Inv (s : State) : Prop where
  buffers : BuffersOk s
  result : ResultOk s
  outcome : OutcomeOk s
  capacity : CapacityOk s
  decLead : DecLeadOk s
  decCont : DecContOk s
  encLead : EncLeadOk s
  encCont : EncContOk s

/-- What the hidden pipeline registers do not show: every register the host reads, both buffers, the outside and the model's
counter. The eight registers of R32 and R33 are put to one fixed value each. -/
def State.visible (s : State) : State :=
  { s with
    acc := 0#21
    phase := .decLead
    nIn := 0#32
    rdPos := 0#32
    wrPos := 0#32
    rem := 0#2
    cpLatch := 0#32
    rbits := 0#5 }

/-- Two outcomes show the host the same: the same kind, and next states with the same visible part or the same reason. -/
def Outcome.showsTheSame : Outcome → Outcome → Prop
  | .next t, .next t' => t.visible = t'.visible
  | .fault f, .fault f' => f = f'
  | .refused r, .refused r' => r = r'
  | _, _ => False

/-- A command word CORE gives a meaning to in this state: not reserved (R82), not while BUSY (R185), and one whose capacity
precondition holds (R184). -/
def State.commandAllowed (s : State) (v : Word) : Bool :=
  match decodeCommand v with
  | .ok .clear => !s.busy
  | .ok .decode => !s.busy && s.fits .decode
  | .ok .encode => !s.busy && s.fits .encode
  | .ok _ => false
  | .error _ => false

/-- A host action that breaks none of the duties of R218. -/
def HostAction.allowed (s : State) : HostAction → Bool
  | .regRead off => (regAt off).isSome
  | .regWrite off v =>
    match regAt off with
    | none => false
    | some .cmd => s.commandAllowed v
    | some .inLen => !s.busy
    | some .status => true
    | some .outLen => true
    | some .errCode => true
    | some .errPos => true
  | .bbufRead i => !s.busy && decide (i < s.cfg.bCap)
  | .bbufWrite i _ => !s.busy && decide (i < s.cfg.bCap)
  | .wbufRead i => !s.busy && decide (i < s.cfg.wCap)
  | .wbufWrite i _ => !s.busy && decide (i < s.cfg.wCap)

end Sys2Proof.Machine
end

