-- ==== Sys2Proof/Certificates/Slice0/Obligations.lean ====
section
/-! DEFINITION. The statements for the provers. A statement quantifies over every state, so over every instance (B_CAP,
W_CAP), every buffer contents, every schedule and every value of the draw counter: no statement rests on a value that
State.reset chooses, and none on a free value. -/
open Sys2Proof Sys2Proof.Machine

/-! ## Encodings (30_encoding.md) -/

/-- The words of R81 and one byte of each format of R72 decode to what they stand for; OP = 3, a set reserved bit and the
byte 0xF8 are rejected by name (R82, R73). -/
def Obligations.WordsOfTheSpecDecode : Prop :=
  decode (.command 0x00000000#32) = .ok .clear ∧
  decode (.command 0x00000001#32) = .ok .decode ∧
  decode (.command 0x00000002#32) = .ok .encode ∧
  decode (.command 0x00000003#32) = .error (.reservedCommand 0x00000003#32) ∧
  decode (.command 0x80000001#32) = .error (.reservedCommand 0x80000001#32) ∧
  decode (.unitByte 0x24#8) = .ok (.lead1 0x24#8) ∧
  decode (.unitByte 0xD0#8) = .ok (.lead2 0x10#8) ∧
  decode (.unitByte 0xE2#8) = .ok (.lead3 0x02#8) ∧
  decode (.unitByte 0xF4#8) = .ok (.lead4 0x04#8) ∧
  decode (.unitByte 0xAF#8) = .ok (.cont 0x2F#8) ∧
  decode (.unitByte 0xF8#8) = .error (.noByteFormat 0xF8#8)

/-- Decoding the word of a well-formed instruction gives the instruction back, every payload at every value (R72, R75, R81). -/
def Obligations.DecodeOfEncodeIsTheInstruction : Prop :=
  ∀ i : Instr, i.wf = true → decode (encode i) = .ok i

/-- Every word that decodes is the word of the instruction it decodes to, which is well formed: each word has one meaning. -/
def Obligations.EncodeOfDecodeIsTheWord : Prop :=
  ∀ (c : Code) (i : Instr), decode c = .ok i → i.wf = true ∧ encode i = c

/-- R74: no byte matches two classes, and any order of trying the four patterns selects the class that the order of R101
does. -/
def Obligations.LeadingPatternsAreDisjoint : Prop :=
  ∀ b : Byte,
    (∀ k k' : LengthClass, b &&& romMask k = romMarker k → b &&& romMask k' = romMarker k' → k = k') ∧
    (∀ order : List LengthClass, order.Perm LengthClass.all →
      (order.find? fun k => (b &&& romMask k) == romMarker k) = classify b)

/-- R73: the ranges of the classes; a byte of no class at a leading position raises InvalidLeadByte; where a continuation byte
is expected exactly the bytes 0x80 to 0xBF pass, with their low six bits, and the others raise InvalidContinuationByte. -/
def Obligations.ByteValuesFallIntoClasses : Prop :=
  ∀ (b : Byte) (s : State),
    classify b = (if b.toNat < 0x80 then some .one else if b.toNat < 0xC0 then none
      else if b.toNat < 0xE0 then some .two else if b.toNat < 0xF0 then some .three
      else if b.toNat < 0xF8 then some .four else none) ∧
    (s.run = .busy → s.phase = .decLead → s.rdPos ≠ s.nIn → classify b = none →
      runByte b s = .next (s.raise .decode .invalidLeadByte s.rdPos)) ∧
    (s.run = .busy → s.phase = .decCont → 0x80 ≤ b.toNat → b.toNat ≤ 0xBF →
      runByte b s = mergeUnit (b &&& 0x3F#8) s) ∧
    (s.run = .busy → s.phase = .decCont → b.toNat < 0x80 ∨ 0xBF < b.toNat →
      runByte b s = .next (s.raise .decode .invalidContinuationByte s.rdPos))

/-- R104 and R105: the payload of a leading byte is `b[6:0]`, `b[4:0]`, `b[3:0]`, `b[2:0]` for L = 1, 2, 3, 4, that of a
continuation byte `b[5:0]`, each zero-extended to 21 bits. -/
def Obligations.PayloadsAreTheUnmaskedBits : Prop :=
  ∀ b : Byte,
    leadPayload b .one = (b.extractLsb' 0 7).setWidth 21 ∧
    leadPayload b .two = (b.extractLsb' 0 5).setWidth 21 ∧
    leadPayload b .three = (b.extractLsb' 0 4).setWidth 21 ∧
    leadPayload b .four = (b.extractLsb' 0 3).setWidth 21 ∧
    contPayload b = (b.extractLsb' 0 6).setWidth 21

/-- R77: the four rows of the unit layout, written as concatenations of bit fields. -/
def Obligations.UnitLayoutOfEachClass : Prop :=
  ∀ cp : Word,
    unitBytes .one cp = [0b0#1 ++ cp.extractLsb' 0 7] ∧
    unitBytes .two cp = [0b110#3 ++ cp.extractLsb' 6 5, 0b10#2 ++ cp.extractLsb' 0 6] ∧
    unitBytes .three cp =
      [0b1110#4 ++ cp.extractLsb' 12 4, 0b10#2 ++ cp.extractLsb' 6 6, 0b10#2 ++ cp.extractLsb' 0 6] ∧
    unitBytes .four cp =
      [0b11110#5 ++ cp.extractLsb' 18 3, 0b10#2 ++ cp.extractLsb' 12 6, 0b10#2 ++ cp.extractLsb' 6 6,
        0b10#2 ++ cp.extractLsb' 0 6]

/-! ## What a step runs -/

/-- A CMD write of a word that decodes runs the instruction it decodes to, on the state with that input taken and the turn
counted. -/
def Obligations.StepRunsTheWrittenCommand : Prop :=
  ∀ (s : State) (w : Word) (rest : List Input) (i : Instr),
    s.nextAgent = .host → s.inputs = .act (.regWrite 0x00 w) :: rest → decode (.command w) = .ok i →
    step s = exec i { s.afterTurn with inputs := rest }

/-- In a decoder phase the sequencer runs the byte format of the byte at `rd_pos`, the decoder's program counter. -/
def Obligations.StepRunsTheByteAtRdPos : Prop :=
  ∀ (s : State) (i : Instr),
    s.nextAgent = .core → s.run = .busy →
    (s.phase = .decLead ∧ s.rdPos ≠ s.nIn) ∨ s.phase = .decCont →
    s.rdPos.toNat < s.cfg.bCap → decode (.unitByte (s.readByte s.rdPos.toNat)) = .ok i →
    step s = exec i s.afterTurn

/-- Every other host action is carried out by the host port in the same way. -/
def Obligations.StepRunsTheHostAction : Prop :=
  ∀ (s : State) (a : HostAction) (rest : List Input),
    s.nextAgent = .host → s.inputs = .act a :: rest → step s = hostAct a { s.afterTurn with inputs := rest }

/-! ## Commands (42_control.md) -/

/-- R180: the dispatch of a CMD write, and no step starts or clears an operation but by one (or by the reset input, which
R230 gives). -/
def Obligations.CmdWriteDispatch : Prop :=
  ∀ (s : State) (v : Word),
    hostAct (.regWrite 0x00 v) s =
      (if v.extractLsb' 2 30 ≠ 0#30 ∨ v.extractLsb' 0 2 = 3#2 then .refused .reservedCommand
       else if s.run = .busy then .refused .commandWhileBusy
       else if v.extractLsb' 0 2 = 0#2 then exec .clear s
       else if v.extractLsb' 0 2 = 1#2 then exec .decode s
       else exec .encode s) ∧
    (∀ t, step s = .next t → s.run ≠ .busy → t.run = .busy →
      ∃ w rest, s.inputs = .act (.regWrite 0x00 w) :: rest ∧ (w = 1#32 ∨ w = 2#32)) ∧
    (∀ t, step s = .next t → s.run ≠ .idle → t.run = .idle →
      (∃ rest, s.inputs = .act (.regWrite 0x00 0#32) :: rest) ∨ ∃ rest, s.inputs = .reset :: rest)

/-- R181: CLEAR, the command word 0. Everything it does not name is unchanged; from IDLE it changes nothing. -/
def Obligations.ClearReturnsToIdle : Prop :=
  ∀ s : State,
    hostAct (.regWrite 0x00 0x00000000#32) s = exec .clear s ∧
    (s.run ≠ .busy →
      exec .clear s =
        .next { s with run := .idle, lastOp := none, outLen := 0#32, errCode := none, errPos := 0#32 }) ∧
    (s.run = .busy → exec .clear s = .refused .commandWhileBusy) ∧
    (Inv s → s.run = .idle → exec .clear s = .next s) ∧
    (∀ t, exec .clear s = .next t → t.doneIrq = false)

/-- R182, R183, R111, R147: DECODE and ENCODE start from IDLE, DONE_OK and DONE_ERR alike, in one step, and leave everything
the rules do not name: the buffers, IN_LEN, `acc`, `rem`, `cp_latch` and `rbits`. -/
def Obligations.CommandsStartAtomically : Prop :=
  ∀ s : State, s.run ≠ .busy →
    (s.inLen.toNat ≤ s.cfg.bCap → s.inLen.toNat ≤ s.cfg.wCap →
      exec .decode s =
        .next { s with
          nIn := s.inLen, run := .busy, lastOp := some .decode, outLen := 0#32, errCode := none, errPos := 0#32,
          phase := .decLead, rdPos := 0#32, wrPos := 0#32 }) ∧
    (s.inLen.toNat ≤ s.cfg.wCap → 4 * s.inLen.toNat ≤ s.cfg.bCap →
      exec .encode s =
        .next { s with
          nIn := s.inLen, run := .busy, lastOp := some .encode, outLen := 0#32, errCode := none, errPos := 0#32,
          phase := .encLead, rdPos := 0#32, wrPos := 0#32 })

/-- R184, R185: when DECODE and ENCODE are refused, and by which name. -/
def Obligations.CommandsRefused : Prop :=
  ∀ s : State,
    (s.run = .busy → exec .decode s = .refused .commandWhileBusy ∧ exec .encode s = .refused .commandWhileBusy) ∧
    (s.run ≠ .busy → s.cfg.bCap < s.inLen.toNat ∨ s.cfg.wCap < s.inLen.toNat →
      exec .decode s = .refused .capacityExceeded) ∧
    (s.run ≠ .busy → s.cfg.wCap < s.inLen.toNat ∨ s.cfg.bCap < 4 * s.inLen.toNat →
      exec .encode s = .refused .capacityExceeded)

/-- R185: while BUSY the host may only read registers and write read-only ones; what the reads return. The buffer clauses run
over every index. THE MODEL'S CHOICE (log entry 9): an access that is out of range as well is refused as BufferAccessWhileBusy,
where R218 would allow IndexOutOfRange. -/
def Obligations.HostPortWhileBusy : Prop :=
  ∀ s : State, s.run = .busy →
    (∀ r : Reg, hostAct (.regRead r.offset) s = .next (s.reply (.word (s.regValue r)))) ∧
    (∀ (r : Reg) (v : Word), r ≠ .cmd → r ≠ .inLen → hostAct (.regWrite r.offset v) s = .next s) ∧
    (∀ v : Word, v.toNat ≤ 2 → hostAct (.regWrite 0x00 v) s = .refused .commandWhileBusy) ∧
    (∀ v : Word, hostAct (.regWrite 0x08 v) s = .refused .inLenWriteWhileBusy) ∧
    (∀ i : Nat, hostAct (.bbufRead i) s = .refused .bufferAccessWhileBusy ∧
      hostAct (.wbufRead i) s = .refused .bufferAccessWhileBusy) ∧
    (∀ (i : Nat) (b : Byte) (v : Word), hostAct (.bbufWrite i b) s = .refused .bufferAccessWhileBusy ∧
      hostAct (.wbufWrite i v) s = .refused .bufferAccessWhileBusy) ∧
    (∀ a : HostAction, (∀ r : Reg, a ≠ .regRead r.offset) →
      (∀ (r : Reg) (v : Word), r ≠ .cmd → r ≠ .inLen → a ≠ .regWrite r.offset v) →
      ∃ why, hostAct a s = .refused why) ∧
    (s.regValue .status).extractLsb' 0 2 = 1#2 ∧
    (s.regValue .status).extractLsb' 2 2 = lastOpCode s.lastOp ∧
    (Inv s → s.regValue .outLen = 0#32 ∧ s.regValue .errCode = 0#32 ∧ s.regValue .errPos = 0#32)

/-- R186: a successful finish, in either pipeline, and no microstep after it. -/
def Obligations.InputExhaustedFinishes : Prop :=
  ∀ s : State, s.run = .busy → s.phase = .decLead ∨ s.phase = .encLead → s.rdPos = s.nIn →
    ∃ t, microstep s = .next t ∧ t = { s with outLen := s.wrPos, run := .doneOk } ∧
      t.nextAgent = .host ∧ microstep t = .next t

/-! ## The byte formats at the decoder (40_decoder.md) -/

/-- LEAD1 where a leading byte is expected: it seeds the accumulator and emits it at once (R106, R108, R112). One word of WBUF
is stored, at `wr_pos`; nothing else changes. -/
def Obligations.Lead1EmitsItsPayload : Prop :=
  ∀ (s : State) (x : Byte),
    s.run = .busy → s.phase = .decLead → s.rdPos.toNat < s.nIn.toNat → s.wrPos.toNat < s.cfg.wCap →
    Memory.wf s.wbuf = true →
    ∃ t, exec (.lead1 x) s = .next t ∧
      t = { s with acc := x.setWidth 21, rdPos := s.rdPos + 1#32, wrPos := s.wrPos + 1#32, wbuf := t.wbuf } ∧
      Memory.wf t.wbuf = true ∧ t.readWord s.wrPos.toNat = x.setWidth 32 ∧
      ∀ j, j ≠ s.wrPos.toNat → t.readWord j = s.readWord j

/-- LEAD2, LEAD3 and LEAD4 where a leading byte is expected and the unit fits: the accumulator is seeded and L - 1
continuation bytes are awaited (R106, R112). No buffer entry and nothing else changes. -/
def Obligations.LongLeadsSeedTheAccumulator : Prop :=
  ∀ (s : State) (x : Byte), s.run = .busy → s.phase = .decLead →
    (s.rdPos.toNat + 2 ≤ s.nIn.toNat →
      exec (.lead2 x) s =
        .next { s with acc := x.setWidth 21, rdPos := s.rdPos + 1#32, rem := 1#2, phase := .decCont }) ∧
    (s.rdPos.toNat + 3 ≤ s.nIn.toNat →
      exec (.lead3 x) s =
        .next { s with acc := x.setWidth 21, rdPos := s.rdPos + 1#32, rem := 2#2, phase := .decCont }) ∧
    (s.rdPos.toNat + 4 ≤ s.nIn.toNat →
      exec (.lead4 x) s =
        .next { s with acc := x.setWidth 21, rdPos := s.rdPos + 1#32, rem := 3#2, phase := .decCont })

/-- CONT where a continuation byte is expected: it is merged, and the last one of its unit emits the accumulator (R107, R108,
R113). One word of WBUF is stored by the last one, at `wr_pos`, and none by the others; nothing else changes. -/
def Obligations.ContMergesItsPayload : Prop :=
  ∀ (s : State) (x : Byte), s.run = .busy → s.phase = .decCont →
    (2 ≤ s.rem.toNat →
      exec (.cont x) s =
        .next { s with acc := (s.acc <<< 6) ||| x.setWidth 21, rdPos := s.rdPos + 1#32, rem := s.rem - 1#2 }) ∧
    (s.rem = 1#2 → s.wrPos.toNat < s.cfg.wCap → Memory.wf s.wbuf = true →
      ∃ t, exec (.cont x) s = .next t ∧
        t = { s with
          acc := (s.acc <<< 6) ||| x.setWidth 21, rdPos := s.rdPos + 1#32, rem := 0#2, phase := .decLead,
          wrPos := s.wrPos + 1#32, wbuf := t.wbuf } ∧
        Memory.wf t.wbuf = true ∧ t.readWord s.wrPos.toNat = ((s.acc <<< 6) ||| x.setWidth 21).setWidth 32 ∧
        ∀ j, j ≠ s.wrPos.toNat → t.readWord j = s.readWord j)

/-- R107: at each valid continuation byte the accumulator takes `((acc << 6) | ContPayload(b))[20:0]`, and no bit is lost: as
an integer it is `64 * acc` plus the payload. -/
def Obligations.AccumulatorLosesNoBit : Prop :=
  ∀ s t : State, Inv s → s.run = .busy → s.phase = .decCont → isCont (s.readByte s.rdPos.toNat) = true →
    microstep s = .next t →
    t.acc = (s.acc <<< 6) ||| contPayload (s.readByte s.rdPos.toNat) ∧
      t.acc.toNat = 64 * s.acc.toNat + (s.readByte s.rdPos.toNat).toNat % 64

/-- R202: a leading byte of class L with fewer than L bytes left raises TruncatedSequence at its own index; LEAD1 never does,
where a byte is left to read. -/
def Obligations.ShortUnitsRaiseTruncatedSequence : Prop :=
  ∀ (s : State) (b x : Byte) (k : LengthClass), s.run = .busy → s.phase = .decLead → s.rdPos ≠ s.nIn →
    (classify b = some k → s.nIn.toNat < s.rdPos.toNat + k.len →
      runByte b s = .next (s.raise .decode .truncatedSequence s.rdPos)) ∧
    (s.nIn.toNat < s.rdPos.toNat + 2 → exec (.lead2 x) s = .next (s.raise .decode .truncatedSequence s.rdPos)) ∧
    (s.nIn.toNat < s.rdPos.toNat + 3 → exec (.lead3 x) s = .next (s.raise .decode .truncatedSequence s.rdPos)) ∧
    (s.nIn.toNat < s.rdPos.toNat + 4 → exec (.lead4 x) s = .next (s.raise .decode .truncatedSequence s.rdPos)) ∧
    (s.rdPos.toNat < s.nIn.toNat → ∀ t, exec (.lead1 x) s = .next t → t.run = .busy)

/-- R201, R203: a continuation byte at a leading position raises InvalidLeadByte, a leading byte at a continuation position
InvalidContinuationByte, each at its own index. -/
def Obligations.MisplacedBytesRaise : Prop :=
  ∀ (s : State) (x : Byte), s.run = .busy →
    (s.phase = .decLead → s.rdPos ≠ s.nIn →
      exec (.cont x) s = .next (s.raise .decode .invalidLeadByte s.rdPos)) ∧
    (s.phase = .decCont →
      exec (.lead1 x) s = .next (s.raise .decode .invalidContinuationByte s.rdPos) ∧
      exec (.lead2 x) s = .next (s.raise .decode .invalidContinuationByte s.rdPos) ∧
      exec (.lead3 x) s = .next (s.raise .decode .invalidContinuationByte s.rdPos) ∧
      exec (.lead4 x) s = .next (s.raise .decode .invalidContinuationByte s.rdPos))

/-- R112, branch by branch. -/
def Obligations.DecLeadMicrostep : Prop :=
  ∀ s : State, s.run = .busy → s.phase = .decLead →
    (s.rdPos ≠ s.nIn → s.rdPos.toNat < s.cfg.bCap ∧ s.wrPos.toNat < s.cfg.wCap) →
    microstep s =
      (if s.rdPos = s.nIn then .next (s.finishOk s.wrPos)
       else
        match classify (s.readByte s.rdPos.toNat) with
        | none => .next (s.raise .decode .invalidLeadByte s.rdPos)
        | some k =>
          if (s.nIn.toNat : Int) - s.rdPos.toNat < k.len then .next (s.raise .decode .truncatedSequence s.rdPos)
          else if k.len = 1 then
            .next { s.writeWord s.wrPos.toNat ((leadPayload (s.readByte s.rdPos.toNat) k).setWidth 32) with
              acc := leadPayload (s.readByte s.rdPos.toNat) k
              rdPos := s.rdPos + 1#32
              wrPos := s.wrPos + 1#32 }
          else
            .next { s with
              acc := leadPayload (s.readByte s.rdPos.toNat) k
              rdPos := s.rdPos + 1#32
              rem := BitVec.ofNat 2 (k.len - 1)
              phase := .decCont })

/-- R113, branch by branch; `rd_pos < n_in` holds whenever DEC_CONT runs. -/
def Obligations.DecContMicrostep : Prop :=
  ∀ (s : State) (acc : AccWord), s.run = .busy → s.phase = .decCont → s.rdPos.toNat < s.cfg.bCap →
    s.wrPos.toNat < s.cfg.wCap → acc = (s.acc <<< 6) ||| contPayload (s.readByte s.rdPos.toNat) →
    microstep s =
      (if isCont (s.readByte s.rdPos.toNat) = false then .next (s.raise .decode .invalidContinuationByte s.rdPos)
       else if s.rem - 1#2 = 0#2 then
        .next { s.writeWord s.wrPos.toNat (acc.setWidth 32) with
          acc := acc
          rdPos := s.rdPos + 1#32
          rem := s.rem - 1#2
          wrPos := s.wrPos + 1#32
          phase := .decLead }
       else .next { s with acc := acc, rdPos := s.rdPos + 1#32, rem := s.rem - 1#2 }) ∧
    (Inv s → s.rdPos.toNat < s.nIn.toNat)

/-! ## The encoder (41_encoder.md) -/

/-- R141: `MagClass` as ranges, unsigned on all 32 bits. -/
def Obligations.MagnitudeClassRanges : Prop :=
  ∀ cp : Word,
    magClass cp =
      (if cp.toNat ≤ 0x7F then some .one else if cp.toNat ≤ 0x7FF then some .two
       else if cp.toNat ≤ 0xFFFF then some .three else if cp.toNat ≤ 0x10FFFF then some .four else none)

/-- R148, branch by branch. -/
def Obligations.EncLeadMicrostep : Prop :=
  ∀ (s : State) (cp : Word), s.run = .busy → s.phase = .encLead →
    (s.rdPos ≠ s.nIn → s.rdPos.toNat < s.cfg.wCap ∧ s.wrPos.toNat < s.cfg.bCap) →
    cp = s.readWord s.rdPos.toNat →
    microstep s =
      (if s.rdPos = s.nIn then .next (s.finishOk s.wrPos)
       else
        match magClass cp with
        | none => .next (s.raise .encode .codePointOutOfRange s.rdPos)
        | some k =>
          if k.len = 1 then
            .next { s.writeByte s.wrPos.toNat (packLead k cp) with
              wrPos := s.wrPos + 1#32
              rdPos := s.rdPos + 1#32 }
          else
            .next { s.writeByte s.wrPos.toNat (packLead k cp) with
              wrPos := s.wrPos + 1#32
              cpLatch := cp
              rbits := BitVec.ofNat 5 (romTotalBits k - romLeadBits k)
              rem := BitVec.ofNat 2 (k.len - 1)
              phase := .encCont })

/-- R149: one continuation byte, `0x80 | cp_latch[rbits+5 : rbits]`, and the end of the unit;
`rbits >= 6` holds whenever ENC_CONT runs, because `rbits = 6 * rem`. -/
def Obligations.EncContMicrostep : Prop :=
  ∀ s : State, s.run = .busy → s.phase = .encCont → s.wrPos.toNat < s.cfg.bCap →
    microstep s =
      (if s.rem - 1#2 = 0#2 then
        .next { s.writeByte s.wrPos.toNat (0x80#8 ||| (s.cpLatch.extractLsb' (s.rbits - 6#5).toNat 6).setWidth 8) with
          rbits := s.rbits - 6#5
          wrPos := s.wrPos + 1#32
          rem := s.rem - 1#2
          rdPos := s.rdPos + 1#32
          phase := .encLead }
       else
        .next { s.writeByte s.wrPos.toNat (0x80#8 ||| (s.cpLatch.extractLsb' (s.rbits - 6#5).toNat 6).setWidth 8) with
          rbits := s.rbits - 6#5
          wrPos := s.wrPos + 1#32
          rem := s.rem - 1#2 }) ∧
    (Inv s → 6 ≤ s.rbits.toNat ∧ s.rbits.toNat = 6 * s.rem.toNat)

/-! ## Errors and the completion signal (60_exceptions.md) -/

/-- R207: taking an error writes ERR_CODE (the codes of R200), ERR_POS, OUT_LEN and STATE, keeps LASTOP and saves nothing
else, and no microstep follows. -/
def Obligations.RaisedErrorCompletes : Prop :=
  ∀ (s t : State) (op : Op) (e : CoreError) (pos : Word), t = s.raise op e pos →
    t.regValue .errCode =
      (match e with
       | .invalidLeadByte => 1#32
       | .truncatedSequence => 2#32
       | .invalidContinuationByte => 3#32
       | .codePointOutOfRange => 4#32) ∧
    t.regValue .errPos = pos ∧ t.regValue .outLen = 0#32 ∧ t.run = .doneErr ∧
    t = { s with
      errCode := t.errCode, errPos := t.errPos, outLen := t.outLen, run := t.run, bbuf := t.bbuf, wbuf := t.wbuf,
      draws := t.draws } ∧
    t.nextAgent = .host ∧ microstep t = .next t

/-- R208: after an error the input buffer and every output entry at or above the bound OB of R57 are unchanged, and OUT_LEN is
0; the entries below OB are free values, of which nothing is said. -/
def Obligations.OutputAfterAnError : Prop :=
  ∀ (s : State) (e : CoreError) (pos : Word), Memory.wf s.bbuf = true → Memory.wf s.wbuf = true →
    ((s.raise .decode e pos).outLen = 0#32 ∧ (s.raise .decode e pos).bbuf = s.bbuf ∧
      Memory.wf (s.raise .decode e pos).wbuf = true ∧
      ∀ j, s.nIn.toNat ≤ j → (s.raise .decode e pos).readWord j = s.readWord j) ∧
    ((s.raise .encode e pos).outLen = 0#32 ∧ (s.raise .encode e pos).wbuf = s.wbuf ∧
      Memory.wf (s.raise .encode e pos).bbuf = true ∧
      ∀ j, 4 * s.nIn.toNat ≤ j → (s.raise .encode e pos).readByte j = s.readByte j)

/-- R210: DONE_ERR, and DONE_OK, with their result registers last until CLEAR, a new DECODE or ENCODE, or reset; errors do not
nest, since a new operation starts only when none runs. -/
def Obligations.ResultsLastUntilCleared : Prop :=
  (∀ s t : State, s.run = .busy → exec .decode s ≠ .next t ∧ exec .encode s ≠ .next t) ∧
  ∀ s t : State, s.run = .doneErr ∨ s.run = .doneOk → step s = .next t →
    (t.run = s.run ∧ t.lastOp = s.lastOp ∧ t.errCode = s.errCode ∧ t.errPos = s.errPos ∧ t.outLen = s.outLen) ∨
    (∃ rest, s.inputs = .act (.regWrite 0x00 0#32) :: rest ∧ t.run = .idle) ∨
    (∃ w rest, s.inputs = .act (.regWrite 0x00 w) :: rest ∧ (w = 1#32 ∨ w = 2#32) ∧ t.run = .busy) ∨
    (∃ rest, s.inputs = .reset :: rest ∧ t.run = .idle)

/-- R212: `done_irq` is high exactly in DONE_OK and DONE_ERR; it rises with a microstep and falls with a command or the reset
input. -/
def Obligations.DoneIrqRisesAndFalls : Prop :=
  ∀ s t : State,
    (s.doneIrq = true ↔ s.run = .doneOk ∨ s.run = .doneErr) ∧
    (step s = .next t → s.doneIrq = false → t.doneIrq = true → s.nextAgent = .core) ∧
    (step s = .next t → s.doneIrq = true → t.doneIrq = false →
      (∃ w rest, s.inputs = .act (.regWrite 0x00 w) :: rest ∧ w.toNat ≤ 2) ∨ ∃ rest, s.inputs = .reset :: rest)

/-- R218: the host port answers a next state exactly to the actions that break no duty, and refuses every other by a name of
R218's table. -/
def Obligations.RefusedExactlyWhereADutyIsBroken : Prop :=
  ∀ (s : State) (a : HostAction),
    (a.allowed s = true → ∃ t, hostAct a s = .next t) ∧
    (a.allowed s = false →
      ∃ why, hostAct a s = .refused why ∧
        why ∈ [Refusal.reservedCommand, .commandWhileBusy, .inLenWriteWhileBusy, .bufferAccessWhileBusy,
          .capacityExceeded, .unmappedOffset, .indexOutOfRange])

/-! ## Registers and buffers (10_state.md, 20_memory.md) -/

/-- R21 to R27, R58: what a read of each register returns, in every state, and that it changes nothing else; STATUS is STATE
in [1:0] and LASTOP in [3:2]. -/
def Obligations.RegisterReads : Prop :=
  ∀ s : State,
    hostAct (.regRead 0x00) s = .next { s with replies := .word 0#32 :: s.replies } ∧
    hostAct (.regRead 0x04) s = .next { s with
      replies := .word (BitVec.ofNat 32 (s.run.code.toNat + 4 * (lastOpCode s.lastOp).toNat)) :: s.replies } ∧
    hostAct (.regRead 0x08) s = .next { s with replies := .word s.inLen :: s.replies } ∧
    hostAct (.regRead 0x0C) s = .next { s with replies := .word s.outLen :: s.replies } ∧
    hostAct (.regRead 0x10) s = .next { s with
      replies := .word (BitVec.ofNat 32 (errorCode s.errCode).toNat) :: s.replies } ∧
    hostAct (.regRead 0x14) s = .next { s with replies := .word s.errPos :: s.replies }

/-- R28: unmapped offsets are refused, a write to a read-only register has no effect, reserved register bits read as 0. -/
def Obligations.UnmappedAndReadOnlyRegisters : Prop :=
  ∀ (s : State) (off : Nat) (v : Word),
    (off ∉ [0x00, 0x04, 0x08, 0x0C, 0x10, 0x14] →
      hostAct (.regRead off) s = .refused .unmappedOffset ∧ hostAct (.regWrite off v) s = .refused .unmappedOffset) ∧
    (off ∈ [0x04, 0x0C, 0x10, 0x14] → hostAct (.regWrite off v) s = .next s) ∧
    (s.regValue .status).extractLsb' 4 28 = 0#28 ∧ (s.regValue .errCode).extractLsb' 3 29 = 0#29 ∧
    s.regValue .cmd = 0#32

/-- R24: every value can be written to IN_LEN and reads back, whatever the capacities; CORE never writes IN_LEN: no microstep
and no instruction changes it; reset makes it 0. -/
def Obligations.InLenIsTheHosts : Prop :=
  ∀ s t : State,
    (∀ v : Word, s.run ≠ .busy →
      hostAct (.regWrite 0x08 v) s = .next { s with inLen := v } ∧
      hostAct (.regRead 0x08) { s with inLen := v } = .next { s with inLen := v, replies := .word v :: s.replies }) ∧
    (microstep s = .next t → t.inLen = s.inLen) ∧
    (∀ i : Instr, exec i s = .next t → t.inLen = s.inLen) ∧
    State.reset.inLen = 0#32 ∧ s.resetInput.inLen = 0#32

/-- R52, R58: buffer accesses while not BUSY. In range they read or write one whole entry and change nothing else; out of range
they are refused. -/
def Obligations.BufferAccessesWhileNotBusy : Prop :=
  ∀ (s : State) (i : Nat) (b : Byte) (v : Word), s.run ≠ .busy →
    (i < s.cfg.bCap →
      hostAct (.bbufRead i) s = .next { s with replies := .byte (s.readByte i) :: s.replies } ∧
      (Memory.wf s.bbuf = true →
        ∃ t, hostAct (.bbufWrite i b) s = .next t ∧ t = { s with bbuf := t.bbuf } ∧ Memory.wf t.bbuf = true ∧
          ∀ j, t.readByte j = if j = i then b else s.readByte j)) ∧
    (i < s.cfg.wCap →
      hostAct (.wbufRead i) s = .next { s with replies := .word (s.readWord i) :: s.replies } ∧
      (Memory.wf s.wbuf = true →
        ∃ t, hostAct (.wbufWrite i v) s = .next t ∧ t = { s with wbuf := t.wbuf } ∧ Memory.wf t.wbuf = true ∧
          ∀ j, t.readWord j = if j = i then v else s.readWord j)) ∧
    (s.cfg.bCap ≤ i →
      hostAct (.bbufRead i) s = .refused .indexOutOfRange ∧ hostAct (.bbufWrite i b) s = .refused .indexOutOfRange) ∧
    (s.cfg.wCap ≤ i →
      hostAct (.wbufRead i) s = .refused .indexOutOfRange ∧ hostAct (.wbufWrite i v) s = .refused .indexOutOfRange)

/-- R56: a microstep reads input entries below `n_in` only and never writes the input buffer: with the input buffer replaced by
any other that agrees below `n_in`, it takes the same next state, that buffer left as it is. -/
def Obligations.MicrostepsReadInputBelowNInOnly : Prop :=
  ∀ s t : State, Inv s → s.run = .busy → microstep s = .next t →
    (s.phase = .decLead ∨ s.phase = .decCont → ∀ m : List Host.Cell,
      (∀ j, j < s.nIn.toNat → Memory.read m j = s.readByte j) →
      microstep { s with bbuf := m } = .next { t with bbuf := m }) ∧
    (s.phase = .encLead ∨ s.phase = .encCont → ∀ m : List (Nat × Word),
      (∀ j, j < s.nIn.toNat → Memory.read m j = s.readWord j) →
      microstep { s with wbuf := m } = .next { t with wbuf := m })

/-- R57: a microstep that raises no error writes at most the output entry at `wr_pos`, below the output bound, and then
advances `wr_pos`, so each output index is written at most once, in increasing order. -/
def Obligations.OutputIsWrittenInOrder : Prop :=
  ∀ s t : State, Inv s → s.run = .busy → microstep s = .next t → t.run ≠ .doneErr →
    (t.bbuf = s.bbuf ∧ t.wbuf = s.wbuf ∧ t.wrPos = s.wrPos) ∨
    (t.bbuf = s.bbuf ∧ s.wrPos.toNat < s.nIn.toNat ∧ t.wrPos.toNat = s.wrPos.toNat + 1 ∧
      ∀ j, j ≠ s.wrPos.toNat → t.readWord j = s.readWord j) ∨
    (t.wbuf = s.wbuf ∧ s.wrPos.toNat < 4 * s.nIn.toNat ∧ t.wrPos.toNat = s.wrPos.toNat + 1 ∧
      ∀ j, j ≠ s.wrPos.toNat → t.readByte j = s.readByte j)

/-- R61: while an operation runs, no turn of the outside but the reset input changes a buffer, a result register or a hidden
register: the entries then belong to the sequencer alone. -/
def Obligations.BuffersBelongToOneAgent : Prop :=
  ∀ s t : State, s.run = .busy → s.nextAgent = .host → step s = .next t → (∀ rest, s.inputs ≠ .reset :: rest) →
    t = { s with inputs := t.inputs, replies := t.replies, sched := t.sched }

/-- R236: IN_LEN is sampled when a command starts; after an operation, writes to IN_LEN and to the buffers leave STATUS, OUT_LEN,
ERR_CODE and ERR_POS unchanged. -/
def Obligations.WritesAfterCompletion : Prop :=
  ∀ (s : State) (v : Word) (b : Byte) (i : Nat) (r : Reg), s.run = .doneOk ∨ s.run = .doneErr →
    hostAct (.regWrite 0x08 v) s = .next { s with inLen := v } ∧
    (r ≠ .inLen → State.regValue { s with inLen := v } r = s.regValue r) ∧
    (i < s.cfg.bCap → ∃ t, hostAct (.bbufWrite i b) s = .next t ∧ t.regValue r = s.regValue r ∧ t.wbuf = s.wbuf) ∧
    (i < s.cfg.wCap → ∃ t, hostAct (.wbufWrite i v) s = .next t ∧ t.regValue r = s.regValue r ∧ t.bbuf = s.bbuf) ∧
    (∀ t, exec .decode s = .next t ∨ exec .encode s = .next t → t.nIn = s.inLen)

/-! ## Reset (70_reset_and_hazards.md) -/

/-- R230: whatever CORE was doing, the reset input leaves every host-visible register reading 0 and `done_irq` low, and a
running operation abandoned. State.reset reads the same. -/
def Obligations.ResetInputClearsTheRegisters : Prop :=
  (∀ (s : State) (rest : List Input), s.nextAgent = .host → s.inputs = .reset :: rest →
    ∃ t, step s = .next t ∧ t.run = .idle ∧ t.lastOp = none ∧ (∀ r : Reg, t.regValue r = 0#32) ∧
      t.doneIrq = false ∧ t.cfg = s.cfg ∧ t.inputs = rest ∧ t.nextAgent = .host ∧ microstep t = .next t) ∧
  State.reset.run = .idle ∧ State.reset.lastOp = none ∧ (∀ r : Reg, State.reset.regValue r = 0#32) ∧
  State.reset.doneIrq = false

/-! ## The results of whole operations -/

/-- R205: the order of the checks within a unit, wherever in the input the unit stands. -/
def Obligations.ChecksWithinAUnit : Prop :=
  ∀ (fuel pos : Nat) (b : Byte) (s : List Byte) (out : List Word),
    (classify b = none → decodeUnits (fuel + 1) (b :: s) pos out = .err .invalidLeadByte pos) ∧
    (∀ k, classify b = some k → (b :: s).length < k.len →
      decodeUnits (fuel + 1) (b :: s) pos out = .err .truncatedSequence pos) ∧
    (∀ k j c, classify b = some k → k.len ≤ (b :: s).length → 1 ≤ j → j < k.len → (b :: s)[j]? = some c →
      isCont c = false → (∀ i d, 1 ≤ i → i < j → (b :: s)[i]? = some d → isCont d = true) →
      decodeUnits (fuel + 1) (b :: s) pos out = .err .invalidContinuationByte (pos + j))

/-- R206: the elements are processed in input order and the first error ends the operation. After an input that converts, the
rest converts as it would alone, its error reported at its place in the whole. -/
def Obligations.FirstErrorInInputOrder : Prop :=
  (∀ (a b : List Byte) (out : List Word), decodeFn a = .ok out →
    decodeFn (a ++ b) =
      match decodeFn b with
      | .ok out' => .ok (out ++ out')
      | .err e pos => .err e (a.length + pos)) ∧
  (∀ (a b : List Word) (out : List Byte), encodeFn a = .ok out →
    encodeFn (a ++ b) =
      match encodeFn b with
      | .ok out' => .ok (out ++ out')
      | .err e pos => .err e (a.length + pos))

/-- R115: the decoder checks bit patterns only. Every unit of a class with its continuation bytes is accepted, overlong,
surrogate or above 0x10FFFF alike, and gives the value its payload bits spell. -/
def Obligations.DecoderSpellsPayloadBits : Prop :=
  ∀ b0 b1 b2 b3 : Byte,
    (classify b0 = some .one → decodeFn [b0] = .ok [b0.setWidth 32]) ∧
    (classify b0 = some .two → isCont b1 = true →
      decodeFn [b0, b1] = .ok [(b0.extractLsb' 0 5 ++ b1.extractLsb' 0 6).setWidth 32]) ∧
    (classify b0 = some .three → isCont b1 = true → isCont b2 = true →
      decodeFn [b0, b1, b2] =
        .ok [(b0.extractLsb' 0 4 ++ b1.extractLsb' 0 6 ++ b2.extractLsb' 0 6).setWidth 32]) ∧
    (classify b0 = some .four → isCont b1 = true → isCont b2 = true → isCont b3 = true →
      decodeFn [b0, b1, b2, b3] =
        .ok [(b0.extractLsb' 0 3 ++ b1.extractLsb' 0 6 ++ b2.extractLsb' 0 6 ++ b3.extractLsb' 0 6).setWidth 32])

/-- R116: every decoded word has bits [31:21] zero, and a unit of class L a value below `2^TOTALBITS[L]`. -/
def Obligations.DecodedValuesFitTheirClass : Prop :=
  (∀ (s : List Byte) (out : List Word), decodeFn s = .ok out → ∀ v ∈ out, v.extractLsb' 21 11 = 0#11) ∧
  (∀ (b : Byte) (s rest : List Byte) (k : LengthClass) (pos : Nat) (acc : AccWord), classify b = some k →
    takeConts (k.len - 1) s pos (leadPayload b k) = .ok (acc, rest) → acc.toNat < 2 ^ romTotalBits k)

/-- R117: one word per unit, so at most one per byte, with equality exactly when every unit is one byte. -/
def Obligations.DecodeOutputCount : Prop :=
  ∀ (s : List Byte) (out : List Word), decodeFn s = .ok out →
    out.length = (unitClasses s).length ∧ out.length ≤ s.length ∧
      (out.length = s.length ↔ ∀ k ∈ unitClasses s, k = .one)

/-- R118: the byte round trip as it actually holds. -/
def Obligations.ByteRoundTrip : Prop :=
  ∀ (b : List Byte) (cps : List Word), decodeFn b = .ok cps →
    (encodeFn cps = .ok b ↔ cps.map magClass = (unitClasses b).map some) ∧
    ((∀ cp ∈ cps, cp.toNat ≤ 0x10FFFF) → cps.map magClass ≠ (unitClasses b).map some →
      ∃ b', encodeFn cps = .ok b' ∧ b' ≠ b) ∧
    (∀ i cp, cps[i]? = some cp → 0x10FFFF < cp.toNat →
      (∀ j c, j < i → cps[j]? = some c → c.toNat ≤ 0x10FFFF) → encodeFn cps = .err .codePointOutOfRange i)

/-- R151: the encoder is minimal. No byte sequence that decodes to the same words is shorter, and the bytes it never writes. -/
def Obligations.EncoderIsMinimal : Prop :=
  ∀ (s : List Word) (out : List Byte), encodeFn s = .ok out →
    (∀ b : List Byte, decodeFn b = .ok s → out.length ≤ b.length) ∧
    (∀ b ∈ out, b ≠ 0xC0#8 ∧ b ≠ 0xC1#8 ∧ b.toNat < 0xF5) ∧
    (∀ i c : Nat, ∀ b : Byte, out[i]? = some b → (out[i + 1]?.map BitVec.toNat) = some c →
      (b = 0xE0#8 → 0xA0 ≤ c) ∧ (b = 0xF0#8 → 0x90 ≤ c) ∧ (b = 0xF4#8 → c ≤ 0x8F))

/-- R152: the code-point round trip, for all sequences with values in [0, 0x10FFFF]. -/
def Obligations.CodePointRoundTrip : Prop :=
  ∀ s : List Word, (∀ cp ∈ s, cp.toNat ≤ 0x10FFFF) → ∃ b, encodeFn s = .ok b ∧ decodeFn b = .ok s

/-- R154: the encoder rejects only values above 0x10FFFF; the surrogate values are encoded like any other value of class 3. -/
def Obligations.EncoderRejectsOnlyLargeValues : Prop :=
  ∀ cp : Word,
    (cp.toNat ≤ 0x10FFFF ↔ ∃ b, encodeFn [cp] = .ok b) ∧
    (0x10FFFF < cp.toNat → encodeFn [cp] = .err .codePointOutOfRange 0) ∧
    (0xD800 ≤ cp.toNat → cp.toNat ≤ 0xDFFF → encodeFn [cp] = .ok (unitBytes .three cp)) ∧
    encodeFn [0xD800#32] = .ok [0xED#8, 0xA0#8, 0x80#8]

/-- R155: the encoder's output count. -/
def Obligations.EncodeOutputCount : Prop :=
  ∀ (s : List Word) (out : List Byte), encodeFn s = .ok out →
    out.length = (s.map fun cp => ((magClass cp).map LengthClass.len).getD 0).sum ∧
      s.length ≤ out.length ∧ out.length ≤ 4 * s.length

/-- R114: from the state a DECODE command leaves, the microsteps reach DecodeFn of the input within `n_in + 1` steps, the host
doing nothing or not being first; the input buffer is unchanged, and so is every output entry R57 protects. -/
def Obligations.DecodeComputesDecodeFn : Prop :=
  ∀ (s : State) (n : Nat), s.run ≠ .busy → Memory.wf s.wbuf = true → n = s.inLen.toNat →
    n ≤ s.cfg.bCap → n ≤ s.cfg.wCap → s.inputs = [] ∨ s.sched = [] →
    ∃ t u k, exec .decode s = .next t ∧ k ≤ n + 1 ∧ Host.Core.run Sys2Proof.core k t = .next u ∧
      u.bbuf = s.bbuf ∧ u.inputs = s.inputs ∧
      match decodeFn (s.bytesIn n) with
      | .ok out =>
        u.run = .doneOk ∧ u.outLen.toNat = out.length ∧ u.wordsIn out.length = out ∧
          ∀ j, out.length ≤ j → u.readWord j = s.readWord j
      | .err e pos =>
        u.run = .doneErr ∧ u.errCode = some e ∧ u.errPos.toNat = pos ∧ u.outLen = 0#32 ∧
          ∀ j, n ≤ j → u.readWord j = s.readWord j

/-- R150: from the state an ENCODE command leaves, the microsteps reach EncodeFn of the input within `4 * n_in + 1` steps. -/
def Obligations.EncodeComputesEncodeFn : Prop :=
  ∀ (s : State) (n : Nat), s.run ≠ .busy → Memory.wf s.bbuf = true → n = s.inLen.toNat →
    n ≤ s.cfg.wCap → 4 * n ≤ s.cfg.bCap → s.cfg.valid = true → s.inputs = [] ∨ s.sched = [] →
    ∃ t u k, exec .encode s = .next t ∧ k ≤ 4 * n + 1 ∧ Host.Core.run Sys2Proof.core k t = .next u ∧
      u.wbuf = s.wbuf ∧ u.inputs = s.inputs ∧
      match encodeFn (s.wordsIn n) with
      | .ok out =>
        u.run = .doneOk ∧ u.outLen.toNat = out.length ∧ u.bytesIn out.length = out ∧
          ∀ j, out.length ≤ j → u.readByte j = s.readByte j
      | .err e pos =>
        u.run = .doneErr ∧ u.errCode = some e ∧ u.errPos.toNat = pos ∧ u.outLen = 0#32 ∧
          ∀ j, 4 * n ≤ j → u.readByte j = s.readByte j

/-! ## The whole machine -/

/-- State.reset meets the invariant. -/
def Obligations.ResetMeetsTheInvariant : Prop := Inv State.reset

/-- Every step keeps the invariant: the buffers in canonical form, the result registers 0 where R25 to R27 say so, the
sequencer's positions inside the input and the output, `rbits = 6 * rem`, the accumulator's free bits. -/
def Obligations.StepKeepsTheInvariant : Prop :=
  ∀ s t : State, Inv s → step s = .next t → Inv t

/-- No run from a good state faults, and the sequencer never sticks: while an operation runs a microstep answers a next state,
and while none runs none is enabled (R184, R187). -/
def Obligations.SequencerNeverSticks : Prop :=
  ∀ s : State,
    (Inv s → s.run = .busy → ∃ t, microstep s = .next t) ∧
    (s.run ≠ .busy → s.nextAgent = .host ∧ microstep s = .next s) ∧
    (Inv s → ∀ f, step s ≠ .fault f)

/-- The parameters and LASTOP: no step writes B_CAP or W_CAP (R6), and LASTOP changes only by a command or the reset input
(R23). -/
def Obligations.ParametersAndLastOp : Prop :=
  ∀ s t : State, step s = .next t →
    t.cfg = s.cfg ∧
    (t.lastOp ≠ s.lastOp →
      (∃ w rest, s.inputs = .act (.regWrite 0x00 w) :: rest ∧ w.toNat ≤ 2) ∨ ∃ rest, s.inputs = .reset :: rest)

/-- R235: after a command that starts an operation STATUS never reads IDLE, however many microsteps are taken. -/
def Obligations.StartedOperationNeverReadsIdle : Prop :=
  ∀ (s t u : State) (i : Instr) (k : Nat), i = .decode ∨ i = .encode → exec i s = .next t → s.inputs = [] →
    Host.Core.run Sys2Proof.core k t = .next u →
    (u.regValue .status).extractLsb' 0 2 ≠ 0#2 ∧ u.inputs = []

/-- R34: the hidden pipeline registers are never observable. Two states, no operation running, that differ in hidden registers
only show the host the same after any number of steps, whatever the host does. -/
def Obligations.HiddenRegistersAreUnobservable : Prop :=
  ∀ (s s' : State) (k : Nat), s.run ≠ .busy → s.visible = s'.visible →
    Outcome.showsTheSame (Host.Core.run Sys2Proof.core k s) (Host.Core.run Sys2Proof.core k s')

/-- R83: WAIT reads STATUS and is over when it reads other than BUSY; it changes nothing but the outside. -/
def Obligations.WaitReadsStatusUntilNotBusy : Prop :=
  ∀ (s : State) (rest : List Input), s.nextAgent = .host → s.inputs = .wait :: rest →
    ∃ t, step s = .next t ∧
      t = { s with inputs := t.inputs, replies := .word (s.regValue .status) :: s.replies, sched := t.sched } ∧
      t.inputs = (if s.run = .busy then s.inputs else rest)
end

