-- ==== Sys2Proof/Laws/Memory.lean ====
section
/-! SUPPORT. The laws of the buffers: an entry read after a write, after a fill, and the canonical form that every operation
keeps. -/
namespace Sys2Proof.Machine

variable {w : Nat}

theorem Memory.read_of_wfFrom_lt {lo i : Nat} {m : Memory w} (h : Memory.wfFrom lo m = true) (hi : i < lo) :
    Memory.read m i = Memory.unlisted w := by
  induction m generalizing lo with
  | nil => rfl
  | cons c rest ih =>
    obtain ⟨j, u⟩ := c
    simp only [Memory.wfFrom, Bool.and_eq_true, decide_eq_true_eq] at h
    have hij : i ≠ j := by omega
    simp only [Memory.read, hij, if_false]
    exact ih h.2 (by omega)

theorem Memory.wfFrom_mono {lo lo' : Nat} {m : Memory w} (h : Memory.wfFrom lo m = true) (hle : lo' ≤ lo) :
    Memory.wfFrom lo' m = true := by
  cases m with
  | nil => rfl
  | cons c rest =>
    simp only [Memory.wfFrom, Bool.and_eq_true, decide_eq_true_eq] at h ⊢
    exact ⟨⟨by omega, h.1.2⟩, h.2⟩

/-- Reading after a write to a buffer in canonical form. -/
theorem Memory.read_write {m : Memory w} (h : Memory.wf m = true) (i : Nat) (v : BitVec w) (j : Nat) :
    Memory.read (Memory.write m i v) j = if j = i then v else Memory.read m j := by
  unfold Memory.wf at h
  generalize 0 = lo at h
  induction m generalizing lo with
  | nil =>
    by_cases hv : v = Memory.unlisted w <;> by_cases hj : j = i <;> simp [Memory.write, Memory.read, hv, hj]
  | cons c rest ih =>
    obtain ⟨k, u⟩ := c
    simp only [Memory.wfFrom, Bool.and_eq_true, decide_eq_true_eq] at h
    have hrest := Memory.read_of_wfFrom_lt h.2 (i := i)
    have ih := ih (k + 1) h.2
    by_cases hik : i < k
    · have hne : i ≠ k := by omega
      by_cases hv : v = Memory.unlisted w <;> by_cases hj : j = i <;>
        simp [Memory.write, Memory.read, hik, hv, hj, hne, hrest (by omega)]
    · by_cases hk : i = k
      · subst hk
        by_cases hv : v = Memory.unlisted w <;> by_cases hj : j = i <;>
          simp [Memory.write, Memory.read, hv, hj, hrest (by omega)]
      · by_cases hj : j = k
        · subst hj
          simp [Memory.write, Memory.read, hik, hk, Ne.symm hk]
        · simp [Memory.write, Memory.read, hik, hk, hj, ih]

theorem Memory.wfFrom_write {lo : Nat} {m : Memory w} (h : Memory.wfFrom lo m = true) {i : Nat} (hi : lo ≤ i)
    (v : BitVec w) : Memory.wfFrom lo (Memory.write m i v) = true := by
  induction m generalizing lo with
  | nil => by_cases hv : v = Memory.unlisted w <;> simp [Memory.write, Memory.wfFrom, hv, hi]
  | cons c rest ih =>
    obtain ⟨k, u⟩ := c
    have h' := h
    simp only [Memory.wfFrom, Bool.and_eq_true, decide_eq_true_eq] at h
    by_cases hik : i < k
    · by_cases hv : v = Memory.unlisted w
      · simpa [Memory.write, hik, hv] using h'
      · simp only [Memory.write, hik, hv, if_true, if_false, Memory.wfFrom, Bool.and_eq_true, decide_eq_true_eq]
        exact ⟨⟨hi, by simp [hv]⟩, ⟨by omega, h.1.2⟩, h.2⟩
    · by_cases hk : i = k
      · subst hk
        by_cases hv : v = Memory.unlisted w
        · simpa [Memory.write, hv] using Memory.wfFrom_mono h.2 (by omega)
        · simp only [Memory.write, Nat.lt_irrefl, hv, if_true, if_false, Memory.wfFrom, Bool.and_eq_true,
            decide_eq_true_eq]
          exact ⟨⟨hi, by simp [hv]⟩, h.2⟩
      · simp only [Memory.write, hik, hk, if_false, Memory.wfFrom, Bool.and_eq_true, decide_eq_true_eq]
        exact ⟨h.1, ih h.2 (by omega)⟩

/-- A write keeps the canonical form. -/
theorem Memory.wf_write {m : Memory w} (h : Memory.wf m = true) (i : Nat) (v : BitVec w) :
    Memory.wf (Memory.write m i v) = true := Memory.wfFrom_write h (Nat.zero_le i) v

theorem Memory.within_write {m : Memory w} {cap i : Nat} (h : Memory.within m cap = true) (hi : i < cap)
    (v : BitVec w) : Memory.within (Memory.write m i v) cap = true := by
  induction m with
  | nil => by_cases hv : v = Memory.unlisted w <;> simp [Memory.write, Memory.within, hv, hi]
  | cons c rest ih =>
    obtain ⟨k, u⟩ := c
    simp only [Memory.within, List.all_cons, Bool.and_eq_true, decide_eq_true_eq] at h ih ⊢
    by_cases hik : i < k
    · by_cases hv : v = Memory.unlisted w <;> simp [Memory.write, hik, hv, h, hi]
    · by_cases hk : i = k
      · by_cases hv : v = Memory.unlisted w <;> simp [Memory.write, hk, hv, h]
      · simp only [Memory.write, hik, hk, if_false, List.all_cons, Bool.and_eq_true, decide_eq_true_eq]
        exact ⟨h.1, ih h.2⟩

/-- A fill keeps the canonical form. -/
theorem Memory.wf_fill (value : Nat → BitVec w) (n : Nat) {m : Memory w} (h : Memory.wf m = true) :
    Memory.wf (Memory.fill value n m) = true := by
  induction n with
  | zero => exact h
  | succ n ih => exact Memory.wf_write ih n (value n)

theorem Memory.within_fill (value : Nat → BitVec w) {n cap : Nat} (hn : n ≤ cap) {m : Memory w}
    (h : Memory.within m cap = true) : Memory.within (Memory.fill value n m) cap = true := by
  induction n with
  | zero => exact h
  | succ n ih => exact Memory.within_write (ih (by omega)) (by omega) (value n)

/-- Reading after a fill of a buffer in canonical form. -/
theorem Memory.read_fill (value : Nat → BitVec w) (n : Nat) {m : Memory w} (h : Memory.wf m = true) (j : Nat) :
    Memory.read (Memory.fill value n m) j = if j < n then value j else Memory.read m j := by
  induction n with
  | zero => simp [Memory.fill]
  | succ n ih =>
    rw [Memory.fill, Memory.read_write (Memory.wf_fill value n h), ih]
    by_cases hj : j = n
    · simp [hj]
    · have : (j < n + 1) = (j < n) := by simp only [eq_iff_iff]; omega
      simp [hj, this]

theorem Memory.eq_of_read_wfFrom {lo : Nat} {m m' : Memory w} (h : Memory.wfFrom lo m = true)
    (h' : Memory.wfFrom lo m' = true) (hr : ∀ i, Memory.read m i = Memory.read m' i) : m = m' := by
  induction m generalizing lo m' with
  | nil =>
    cases m' with
    | nil => rfl
    | cons c rest =>
      obtain ⟨k, u⟩ := c
      have := hr k
      simp only [Memory.wfFrom, Bool.and_eq_true, bne_iff_ne] at h'
      exact absurd (by simpa [Memory.read] using this.symm) h'.1.2
  | cons c rest ih =>
    obtain ⟨k, u⟩ := c
    simp only [Memory.wfFrom, Bool.and_eq_true, bne_iff_ne, decide_eq_true_eq] at h
    cases m' with
    | nil => exact absurd (by simpa [Memory.read] using hr k) h.1.2
    | cons c' rest' =>
      obtain ⟨k', u'⟩ := c'
      simp only [Memory.wfFrom, Bool.and_eq_true, bne_iff_ne, decide_eq_true_eq] at h'
      rcases Nat.lt_trichotomy k k' with hlt | heq | hlt
      · have hne : k ≠ k' := by omega
        have := hr k
        simp only [Memory.read, if_true, hne, if_false] at this
        rw [Memory.read_of_wfFrom_lt h'.2 (by omega)] at this
        exact absurd this h.1.2
      · subst heq
        have hu : u = u' := by simpa [Memory.read] using hr k
        subst hu
        refine congrArg _ (ih h.2 h'.2 fun i => ?_)
        by_cases hi : i = k
        · rw [hi, Memory.read_of_wfFrom_lt h.2 (by omega), Memory.read_of_wfFrom_lt h'.2 (by omega)]
        · simpa [Memory.read, hi] using hr i
      · have hne : k' ≠ k := by omega
        have := hr k'
        simp only [Memory.read, if_true, hne, if_false] at this
        rw [Memory.read_of_wfFrom_lt h.2 (by omega)] at this
        exact absurd this.symm h'.1.2

/-- Buffers in canonical form with equal contents are equal data. -/
theorem Memory.eq_of_read {m m' : Memory w} (h : Memory.wf m = true) (h' : Memory.wf m' = true)
    (hr : ∀ i, Memory.read m i = Memory.read m' i) : m = m' := Memory.eq_of_read_wfFrom h h' hr

theorem Memory.wf_reset : Memory.wf State.reset.bbuf = true ∧ Memory.wf State.reset.wbuf = true := ⟨rfl, rfl⟩

end Sys2Proof.Machine
end

