-- ==== Sys2Proof/Laws/State.lean ====
section
/-! SUPPORT. One lemma per field and named update of State, so that no proof unfolds a record update. -/
namespace Sys2Proof.Machine

variable (s : State)

@[simp] theorem State.reply_cfg (r : Reply) : (s.reply r).cfg = s.cfg := rfl
@[simp] theorem State.reply_run (r : Reply) : (s.reply r).run = s.run := rfl
@[simp] theorem State.reply_lastOp (r : Reply) : (s.reply r).lastOp = s.lastOp := rfl
@[simp] theorem State.reply_inLen (r : Reply) : (s.reply r).inLen = s.inLen := rfl
@[simp] theorem State.reply_outLen (r : Reply) : (s.reply r).outLen = s.outLen := rfl
@[simp] theorem State.reply_errCode (r : Reply) : (s.reply r).errCode = s.errCode := rfl
@[simp] theorem State.reply_errPos (r : Reply) : (s.reply r).errPos = s.errPos := rfl
@[simp] theorem State.reply_bbuf (r : Reply) : (s.reply r).bbuf = s.bbuf := rfl
@[simp] theorem State.reply_wbuf (r : Reply) : (s.reply r).wbuf = s.wbuf := rfl
@[simp] theorem State.reply_acc (r : Reply) : (s.reply r).acc = s.acc := rfl
@[simp] theorem State.reply_phase (r : Reply) : (s.reply r).phase = s.phase := rfl
@[simp] theorem State.reply_nIn (r : Reply) : (s.reply r).nIn = s.nIn := rfl
@[simp] theorem State.reply_rdPos (r : Reply) : (s.reply r).rdPos = s.rdPos := rfl
@[simp] theorem State.reply_wrPos (r : Reply) : (s.reply r).wrPos = s.wrPos := rfl
@[simp] theorem State.reply_rem (r : Reply) : (s.reply r).rem = s.rem := rfl
@[simp] theorem State.reply_cpLatch (r : Reply) : (s.reply r).cpLatch = s.cpLatch := rfl
@[simp] theorem State.reply_rbits (r : Reply) : (s.reply r).rbits = s.rbits := rfl
@[simp] theorem State.reply_inputs (r : Reply) : (s.reply r).inputs = s.inputs := rfl
@[simp] theorem State.reply_replies (r : Reply) : (s.reply r).replies = r :: s.replies := rfl
@[simp] theorem State.reply_sched (r : Reply) : (s.reply r).sched = s.sched := rfl
@[simp] theorem State.reply_draws (r : Reply) : (s.reply r).draws = s.draws := rfl

@[simp] theorem State.writeByte_cfg (i : Nat) (v : Byte) : (s.writeByte i v).cfg = s.cfg := rfl
@[simp] theorem State.writeByte_run (i : Nat) (v : Byte) : (s.writeByte i v).run = s.run := rfl
@[simp] theorem State.writeByte_lastOp (i : Nat) (v : Byte) : (s.writeByte i v).lastOp = s.lastOp := rfl
@[simp] theorem State.writeByte_inLen (i : Nat) (v : Byte) : (s.writeByte i v).inLen = s.inLen := rfl
@[simp] theorem State.writeByte_outLen (i : Nat) (v : Byte) : (s.writeByte i v).outLen = s.outLen := rfl
@[simp] theorem State.writeByte_errCode (i : Nat) (v : Byte) : (s.writeByte i v).errCode = s.errCode := rfl
@[simp] theorem State.writeByte_errPos (i : Nat) (v : Byte) : (s.writeByte i v).errPos = s.errPos := rfl
@[simp] theorem State.writeByte_bbuf (i : Nat) (v : Byte) : (s.writeByte i v).bbuf = Memory.write s.bbuf i v := rfl
@[simp] theorem State.writeByte_wbuf (i : Nat) (v : Byte) : (s.writeByte i v).wbuf = s.wbuf := rfl
@[simp] theorem State.writeByte_acc (i : Nat) (v : Byte) : (s.writeByte i v).acc = s.acc := rfl
@[simp] theorem State.writeByte_phase (i : Nat) (v : Byte) : (s.writeByte i v).phase = s.phase := rfl
@[simp] theorem State.writeByte_nIn (i : Nat) (v : Byte) : (s.writeByte i v).nIn = s.nIn := rfl
@[simp] theorem State.writeByte_rdPos (i : Nat) (v : Byte) : (s.writeByte i v).rdPos = s.rdPos := rfl
@[simp] theorem State.writeByte_wrPos (i : Nat) (v : Byte) : (s.writeByte i v).wrPos = s.wrPos := rfl
@[simp] theorem State.writeByte_rem (i : Nat) (v : Byte) : (s.writeByte i v).rem = s.rem := rfl
@[simp] theorem State.writeByte_cpLatch (i : Nat) (v : Byte) : (s.writeByte i v).cpLatch = s.cpLatch := rfl
@[simp] theorem State.writeByte_rbits (i : Nat) (v : Byte) : (s.writeByte i v).rbits = s.rbits := rfl
@[simp] theorem State.writeByte_inputs (i : Nat) (v : Byte) : (s.writeByte i v).inputs = s.inputs := rfl
@[simp] theorem State.writeByte_replies (i : Nat) (v : Byte) : (s.writeByte i v).replies = s.replies := rfl
@[simp] theorem State.writeByte_sched (i : Nat) (v : Byte) : (s.writeByte i v).sched = s.sched := rfl
@[simp] theorem State.writeByte_draws (i : Nat) (v : Byte) : (s.writeByte i v).draws = s.draws := rfl

@[simp] theorem State.writeWord_cfg (i : Nat) (v : Word) : (s.writeWord i v).cfg = s.cfg := rfl
@[simp] theorem State.writeWord_run (i : Nat) (v : Word) : (s.writeWord i v).run = s.run := rfl
@[simp] theorem State.writeWord_lastOp (i : Nat) (v : Word) : (s.writeWord i v).lastOp = s.lastOp := rfl
@[simp] theorem State.writeWord_inLen (i : Nat) (v : Word) : (s.writeWord i v).inLen = s.inLen := rfl
@[simp] theorem State.writeWord_outLen (i : Nat) (v : Word) : (s.writeWord i v).outLen = s.outLen := rfl
@[simp] theorem State.writeWord_errCode (i : Nat) (v : Word) : (s.writeWord i v).errCode = s.errCode := rfl
@[simp] theorem State.writeWord_errPos (i : Nat) (v : Word) : (s.writeWord i v).errPos = s.errPos := rfl
@[simp] theorem State.writeWord_bbuf (i : Nat) (v : Word) : (s.writeWord i v).bbuf = s.bbuf := rfl
@[simp] theorem State.writeWord_wbuf (i : Nat) (v : Word) : (s.writeWord i v).wbuf = Memory.write s.wbuf i v := rfl
@[simp] theorem State.writeWord_acc (i : Nat) (v : Word) : (s.writeWord i v).acc = s.acc := rfl
@[simp] theorem State.writeWord_phase (i : Nat) (v : Word) : (s.writeWord i v).phase = s.phase := rfl
@[simp] theorem State.writeWord_nIn (i : Nat) (v : Word) : (s.writeWord i v).nIn = s.nIn := rfl
@[simp] theorem State.writeWord_rdPos (i : Nat) (v : Word) : (s.writeWord i v).rdPos = s.rdPos := rfl
@[simp] theorem State.writeWord_wrPos (i : Nat) (v : Word) : (s.writeWord i v).wrPos = s.wrPos := rfl
@[simp] theorem State.writeWord_rem (i : Nat) (v : Word) : (s.writeWord i v).rem = s.rem := rfl
@[simp] theorem State.writeWord_cpLatch (i : Nat) (v : Word) : (s.writeWord i v).cpLatch = s.cpLatch := rfl
@[simp] theorem State.writeWord_rbits (i : Nat) (v : Word) : (s.writeWord i v).rbits = s.rbits := rfl
@[simp] theorem State.writeWord_inputs (i : Nat) (v : Word) : (s.writeWord i v).inputs = s.inputs := rfl
@[simp] theorem State.writeWord_replies (i : Nat) (v : Word) : (s.writeWord i v).replies = s.replies := rfl
@[simp] theorem State.writeWord_sched (i : Nat) (v : Word) : (s.writeWord i v).sched = s.sched := rfl
@[simp] theorem State.writeWord_draws (i : Nat) (v : Word) : (s.writeWord i v).draws = s.draws := rfl

@[simp] theorem State.start_cfg (op : Op) : (s.start op).cfg = s.cfg := rfl
@[simp] theorem State.start_run (op : Op) : (s.start op).run = .busy := rfl
@[simp] theorem State.start_lastOp (op : Op) : (s.start op).lastOp = some op := rfl
@[simp] theorem State.start_inLen (op : Op) : (s.start op).inLen = s.inLen := rfl
@[simp] theorem State.start_outLen (op : Op) : (s.start op).outLen = 0#32 := rfl
@[simp] theorem State.start_errCode (op : Op) : (s.start op).errCode = none := rfl
@[simp] theorem State.start_errPos (op : Op) : (s.start op).errPos = 0#32 := rfl
@[simp] theorem State.start_bbuf (op : Op) : (s.start op).bbuf = s.bbuf := rfl
@[simp] theorem State.start_wbuf (op : Op) : (s.start op).wbuf = s.wbuf := rfl
@[simp] theorem State.start_acc (op : Op) : (s.start op).acc = s.acc := rfl
@[simp] theorem State.start_phase (op : Op) : (s.start op).phase = op.startPhase := rfl
@[simp] theorem State.start_nIn (op : Op) : (s.start op).nIn = s.inLen := rfl
@[simp] theorem State.start_rdPos (op : Op) : (s.start op).rdPos = 0#32 := rfl
@[simp] theorem State.start_wrPos (op : Op) : (s.start op).wrPos = 0#32 := rfl
@[simp] theorem State.start_rem (op : Op) : (s.start op).rem = s.rem := rfl
@[simp] theorem State.start_cpLatch (op : Op) : (s.start op).cpLatch = s.cpLatch := rfl
@[simp] theorem State.start_rbits (op : Op) : (s.start op).rbits = s.rbits := rfl
@[simp] theorem State.start_inputs (op : Op) : (s.start op).inputs = s.inputs := rfl
@[simp] theorem State.start_replies (op : Op) : (s.start op).replies = s.replies := rfl
@[simp] theorem State.start_sched (op : Op) : (s.start op).sched = s.sched := rfl
@[simp] theorem State.start_draws (op : Op) : (s.start op).draws = s.draws := rfl

@[simp] theorem State.finishOk_cfg (n : Word) : (s.finishOk n).cfg = s.cfg := rfl
@[simp] theorem State.finishOk_run (n : Word) : (s.finishOk n).run = .doneOk := rfl
@[simp] theorem State.finishOk_lastOp (n : Word) : (s.finishOk n).lastOp = s.lastOp := rfl
@[simp] theorem State.finishOk_inLen (n : Word) : (s.finishOk n).inLen = s.inLen := rfl
@[simp] theorem State.finishOk_outLen (n : Word) : (s.finishOk n).outLen = n := rfl
@[simp] theorem State.finishOk_errCode (n : Word) : (s.finishOk n).errCode = s.errCode := rfl
@[simp] theorem State.finishOk_errPos (n : Word) : (s.finishOk n).errPos = s.errPos := rfl
@[simp] theorem State.finishOk_bbuf (n : Word) : (s.finishOk n).bbuf = s.bbuf := rfl
@[simp] theorem State.finishOk_wbuf (n : Word) : (s.finishOk n).wbuf = s.wbuf := rfl
@[simp] theorem State.finishOk_acc (n : Word) : (s.finishOk n).acc = s.acc := rfl
@[simp] theorem State.finishOk_phase (n : Word) : (s.finishOk n).phase = s.phase := rfl
@[simp] theorem State.finishOk_nIn (n : Word) : (s.finishOk n).nIn = s.nIn := rfl
@[simp] theorem State.finishOk_rdPos (n : Word) : (s.finishOk n).rdPos = s.rdPos := rfl
@[simp] theorem State.finishOk_wrPos (n : Word) : (s.finishOk n).wrPos = s.wrPos := rfl
@[simp] theorem State.finishOk_rem (n : Word) : (s.finishOk n).rem = s.rem := rfl
@[simp] theorem State.finishOk_cpLatch (n : Word) : (s.finishOk n).cpLatch = s.cpLatch := rfl
@[simp] theorem State.finishOk_rbits (n : Word) : (s.finishOk n).rbits = s.rbits := rfl
@[simp] theorem State.finishOk_inputs (n : Word) : (s.finishOk n).inputs = s.inputs := rfl
@[simp] theorem State.finishOk_replies (n : Word) : (s.finishOk n).replies = s.replies := rfl
@[simp] theorem State.finishOk_sched (n : Word) : (s.finishOk n).sched = s.sched := rfl
@[simp] theorem State.finishOk_draws (n : Word) : (s.finishOk n).draws = s.draws := rfl

@[simp] theorem State.clearResult_cfg : (s.clearResult).cfg = s.cfg := rfl
@[simp] theorem State.clearResult_run : (s.clearResult).run = .idle := rfl
@[simp] theorem State.clearResult_lastOp : (s.clearResult).lastOp = none := rfl
@[simp] theorem State.clearResult_inLen : (s.clearResult).inLen = s.inLen := rfl
@[simp] theorem State.clearResult_outLen : (s.clearResult).outLen = 0#32 := rfl
@[simp] theorem State.clearResult_errCode : (s.clearResult).errCode = none := rfl
@[simp] theorem State.clearResult_errPos : (s.clearResult).errPos = 0#32 := rfl
@[simp] theorem State.clearResult_bbuf : (s.clearResult).bbuf = s.bbuf := rfl
@[simp] theorem State.clearResult_wbuf : (s.clearResult).wbuf = s.wbuf := rfl
@[simp] theorem State.clearResult_acc : (s.clearResult).acc = s.acc := rfl
@[simp] theorem State.clearResult_phase : (s.clearResult).phase = s.phase := rfl
@[simp] theorem State.clearResult_nIn : (s.clearResult).nIn = s.nIn := rfl
@[simp] theorem State.clearResult_rdPos : (s.clearResult).rdPos = s.rdPos := rfl
@[simp] theorem State.clearResult_wrPos : (s.clearResult).wrPos = s.wrPos := rfl
@[simp] theorem State.clearResult_rem : (s.clearResult).rem = s.rem := rfl
@[simp] theorem State.clearResult_cpLatch : (s.clearResult).cpLatch = s.cpLatch := rfl
@[simp] theorem State.clearResult_rbits : (s.clearResult).rbits = s.rbits := rfl
@[simp] theorem State.clearResult_inputs : (s.clearResult).inputs = s.inputs := rfl
@[simp] theorem State.clearResult_replies : (s.clearResult).replies = s.replies := rfl
@[simp] theorem State.clearResult_sched : (s.clearResult).sched = s.sched := rfl
@[simp] theorem State.clearResult_draws : (s.clearResult).draws = s.draws := rfl

@[simp] theorem State.dropOutput_cfg (op : Op) : (s.dropOutput op).cfg = s.cfg := by cases op <;> rfl
@[simp] theorem State.dropOutput_run (op : Op) : (s.dropOutput op).run = s.run := by cases op <;> rfl
@[simp] theorem State.dropOutput_lastOp (op : Op) : (s.dropOutput op).lastOp = s.lastOp := by cases op <;> rfl
@[simp] theorem State.dropOutput_inLen (op : Op) : (s.dropOutput op).inLen = s.inLen := by cases op <;> rfl
@[simp] theorem State.dropOutput_outLen (op : Op) : (s.dropOutput op).outLen = s.outLen := by cases op <;> rfl
@[simp] theorem State.dropOutput_errCode (op : Op) : (s.dropOutput op).errCode = s.errCode := by cases op <;> rfl
@[simp] theorem State.dropOutput_errPos (op : Op) : (s.dropOutput op).errPos = s.errPos := by cases op <;> rfl
@[simp] theorem State.dropOutput_acc (op : Op) : (s.dropOutput op).acc = s.acc := by cases op <;> rfl
@[simp] theorem State.dropOutput_phase (op : Op) : (s.dropOutput op).phase = s.phase := by cases op <;> rfl
@[simp] theorem State.dropOutput_nIn (op : Op) : (s.dropOutput op).nIn = s.nIn := by cases op <;> rfl
@[simp] theorem State.dropOutput_rdPos (op : Op) : (s.dropOutput op).rdPos = s.rdPos := by cases op <;> rfl
@[simp] theorem State.dropOutput_wrPos (op : Op) : (s.dropOutput op).wrPos = s.wrPos := by cases op <;> rfl
@[simp] theorem State.dropOutput_rem (op : Op) : (s.dropOutput op).rem = s.rem := by cases op <;> rfl
@[simp] theorem State.dropOutput_cpLatch (op : Op) : (s.dropOutput op).cpLatch = s.cpLatch := by cases op <;> rfl
@[simp] theorem State.dropOutput_rbits (op : Op) : (s.dropOutput op).rbits = s.rbits := by cases op <;> rfl
@[simp] theorem State.dropOutput_inputs (op : Op) : (s.dropOutput op).inputs = s.inputs := by cases op <;> rfl
@[simp] theorem State.dropOutput_replies (op : Op) : (s.dropOutput op).replies = s.replies := by cases op <;> rfl
@[simp] theorem State.dropOutput_sched (op : Op) : (s.dropOutput op).sched = s.sched := by cases op <;> rfl
@[simp] theorem State.dropOutput_draws (op : Op) : (s.dropOutput op).draws = s.draws + 1 := by cases op <;> rfl

@[simp] theorem State.raise_cfg (op : Op) (e : CoreError) (pos : Word) : (s.raise op e pos).cfg = s.cfg := by cases op <;> rfl
@[simp] theorem State.raise_run (op : Op) (e : CoreError) (pos : Word) : (s.raise op e pos).run = .doneErr := rfl
@[simp] theorem State.raise_lastOp (op : Op) (e : CoreError) (pos : Word) : (s.raise op e pos).lastOp = s.lastOp := by cases op <;> rfl
@[simp] theorem State.raise_inLen (op : Op) (e : CoreError) (pos : Word) : (s.raise op e pos).inLen = s.inLen := by cases op <;> rfl
@[simp] theorem State.raise_outLen (op : Op) (e : CoreError) (pos : Word) : (s.raise op e pos).outLen = 0#32 := rfl
@[simp] theorem State.raise_errCode (op : Op) (e : CoreError) (pos : Word) : (s.raise op e pos).errCode = some e := rfl
@[simp] theorem State.raise_errPos (op : Op) (e : CoreError) (pos : Word) : (s.raise op e pos).errPos = pos := rfl
@[simp] theorem State.raise_bbuf (op : Op) (e : CoreError) (pos : Word) : (s.raise op e pos).bbuf = (s.dropOutput op).bbuf := rfl
@[simp] theorem State.raise_wbuf (op : Op) (e : CoreError) (pos : Word) : (s.raise op e pos).wbuf = (s.dropOutput op).wbuf := rfl
@[simp] theorem State.raise_acc (op : Op) (e : CoreError) (pos : Word) : (s.raise op e pos).acc = s.acc := by cases op <;> rfl
@[simp] theorem State.raise_phase (op : Op) (e : CoreError) (pos : Word) : (s.raise op e pos).phase = s.phase := by cases op <;> rfl
@[simp] theorem State.raise_nIn (op : Op) (e : CoreError) (pos : Word) : (s.raise op e pos).nIn = s.nIn := by cases op <;> rfl
@[simp] theorem State.raise_rdPos (op : Op) (e : CoreError) (pos : Word) : (s.raise op e pos).rdPos = s.rdPos := by cases op <;> rfl
@[simp] theorem State.raise_wrPos (op : Op) (e : CoreError) (pos : Word) : (s.raise op e pos).wrPos = s.wrPos := by cases op <;> rfl
@[simp] theorem State.raise_rem (op : Op) (e : CoreError) (pos : Word) : (s.raise op e pos).rem = s.rem := by cases op <;> rfl
@[simp] theorem State.raise_cpLatch (op : Op) (e : CoreError) (pos : Word) : (s.raise op e pos).cpLatch = s.cpLatch := by cases op <;> rfl
@[simp] theorem State.raise_rbits (op : Op) (e : CoreError) (pos : Word) : (s.raise op e pos).rbits = s.rbits := by cases op <;> rfl
@[simp] theorem State.raise_inputs (op : Op) (e : CoreError) (pos : Word) : (s.raise op e pos).inputs = s.inputs := by cases op <;> rfl
@[simp] theorem State.raise_replies (op : Op) (e : CoreError) (pos : Word) : (s.raise op e pos).replies = s.replies := by cases op <;> rfl
@[simp] theorem State.raise_sched (op : Op) (e : CoreError) (pos : Word) : (s.raise op e pos).sched = s.sched := by cases op <;> rfl
@[simp] theorem State.raise_draws (op : Op) (e : CoreError) (pos : Word) : (s.raise op e pos).draws = s.draws + 1 := by cases op <;> rfl

@[simp] theorem State.afterTurn_cfg : (s.afterTurn).cfg = s.cfg := by unfold State.afterTurn; split <;> rfl
@[simp] theorem State.afterTurn_run : (s.afterTurn).run = s.run := by unfold State.afterTurn; split <;> rfl
@[simp] theorem State.afterTurn_lastOp : (s.afterTurn).lastOp = s.lastOp := by unfold State.afterTurn; split <;> rfl
@[simp] theorem State.afterTurn_inLen : (s.afterTurn).inLen = s.inLen := by unfold State.afterTurn; split <;> rfl
@[simp] theorem State.afterTurn_outLen : (s.afterTurn).outLen = s.outLen := by unfold State.afterTurn; split <;> rfl
@[simp] theorem State.afterTurn_errCode : (s.afterTurn).errCode = s.errCode := by unfold State.afterTurn; split <;> rfl
@[simp] theorem State.afterTurn_errPos : (s.afterTurn).errPos = s.errPos := by unfold State.afterTurn; split <;> rfl
@[simp] theorem State.afterTurn_bbuf : (s.afterTurn).bbuf = s.bbuf := by unfold State.afterTurn; split <;> rfl
@[simp] theorem State.afterTurn_wbuf : (s.afterTurn).wbuf = s.wbuf := by unfold State.afterTurn; split <;> rfl
@[simp] theorem State.afterTurn_acc : (s.afterTurn).acc = s.acc := by unfold State.afterTurn; split <;> rfl
@[simp] theorem State.afterTurn_phase : (s.afterTurn).phase = s.phase := by unfold State.afterTurn; split <;> rfl
@[simp] theorem State.afterTurn_nIn : (s.afterTurn).nIn = s.nIn := by unfold State.afterTurn; split <;> rfl
@[simp] theorem State.afterTurn_rdPos : (s.afterTurn).rdPos = s.rdPos := by unfold State.afterTurn; split <;> rfl
@[simp] theorem State.afterTurn_wrPos : (s.afterTurn).wrPos = s.wrPos := by unfold State.afterTurn; split <;> rfl
@[simp] theorem State.afterTurn_rem : (s.afterTurn).rem = s.rem := by unfold State.afterTurn; split <;> rfl
@[simp] theorem State.afterTurn_cpLatch : (s.afterTurn).cpLatch = s.cpLatch := by unfold State.afterTurn; split <;> rfl
@[simp] theorem State.afterTurn_rbits : (s.afterTurn).rbits = s.rbits := by unfold State.afterTurn; split <;> rfl
@[simp] theorem State.afterTurn_inputs : (s.afterTurn).inputs = s.inputs := by unfold State.afterTurn; split <;> rfl
@[simp] theorem State.afterTurn_replies : (s.afterTurn).replies = s.replies := by unfold State.afterTurn; split <;> rfl
@[simp] theorem State.afterTurn_draws : (s.afterTurn).draws = s.draws := by unfold State.afterTurn; split <;> rfl

@[simp] theorem placeCont_cfg : (placeCont s).cfg = s.cfg := rfl
@[simp] theorem placeCont_run : (placeCont s).run = s.run := rfl
@[simp] theorem placeCont_lastOp : (placeCont s).lastOp = s.lastOp := rfl
@[simp] theorem placeCont_inLen : (placeCont s).inLen = s.inLen := rfl
@[simp] theorem placeCont_outLen : (placeCont s).outLen = s.outLen := rfl
@[simp] theorem placeCont_errCode : (placeCont s).errCode = s.errCode := rfl
@[simp] theorem placeCont_errPos : (placeCont s).errPos = s.errPos := rfl
@[simp] theorem placeCont_bbuf : (placeCont s).bbuf = Memory.write s.bbuf s.wrPos.toNat (packCont s.cpLatch (s.rbits - 6#5).toNat) := rfl
@[simp] theorem placeCont_wbuf : (placeCont s).wbuf = s.wbuf := rfl
@[simp] theorem placeCont_acc : (placeCont s).acc = s.acc := rfl
@[simp] theorem placeCont_phase : (placeCont s).phase = if s.rem - 1#2 = 0#2 then .encLead else s.phase := rfl
@[simp] theorem placeCont_nIn : (placeCont s).nIn = s.nIn := rfl
@[simp] theorem placeCont_rdPos : (placeCont s).rdPos = if s.rem - 1#2 = 0#2 then s.rdPos + 1#32 else s.rdPos := rfl
@[simp] theorem placeCont_wrPos : (placeCont s).wrPos = s.wrPos + 1#32 := rfl
@[simp] theorem placeCont_rem : (placeCont s).rem = s.rem - 1#2 := rfl
@[simp] theorem placeCont_cpLatch : (placeCont s).cpLatch = s.cpLatch := rfl
@[simp] theorem placeCont_rbits : (placeCont s).rbits = s.rbits - 6#5 := rfl
@[simp] theorem placeCont_inputs : (placeCont s).inputs = s.inputs := rfl
@[simp] theorem placeCont_replies : (placeCont s).replies = s.replies := rfl
@[simp] theorem placeCont_sched : (placeCont s).sched = s.sched := rfl
@[simp] theorem placeCont_draws : (placeCont s).draws = s.draws := rfl

@[simp] theorem placeLead_cfg (k : LengthClass) (cp : Word) : (placeLead k cp s).cfg = s.cfg := by cases k <;> rfl
@[simp] theorem placeLead_run (k : LengthClass) (cp : Word) : (placeLead k cp s).run = s.run := by cases k <;> rfl
@[simp] theorem placeLead_lastOp (k : LengthClass) (cp : Word) : (placeLead k cp s).lastOp = s.lastOp := by cases k <;> rfl
@[simp] theorem placeLead_inLen (k : LengthClass) (cp : Word) : (placeLead k cp s).inLen = s.inLen := by cases k <;> rfl
@[simp] theorem placeLead_outLen (k : LengthClass) (cp : Word) : (placeLead k cp s).outLen = s.outLen := by cases k <;> rfl
@[simp] theorem placeLead_errCode (k : LengthClass) (cp : Word) : (placeLead k cp s).errCode = s.errCode := by cases k <;> rfl
@[simp] theorem placeLead_errPos (k : LengthClass) (cp : Word) : (placeLead k cp s).errPos = s.errPos := by cases k <;> rfl
@[simp] theorem placeLead_bbuf (k : LengthClass) (cp : Word) : (placeLead k cp s).bbuf = Memory.write s.bbuf s.wrPos.toNat (packLead k cp) := by cases k <;> rfl
@[simp] theorem placeLead_wbuf (k : LengthClass) (cp : Word) : (placeLead k cp s).wbuf = s.wbuf := by cases k <;> rfl
@[simp] theorem placeLead_acc (k : LengthClass) (cp : Word) : (placeLead k cp s).acc = s.acc := by cases k <;> rfl
@[simp] theorem placeLead_nIn (k : LengthClass) (cp : Word) : (placeLead k cp s).nIn = s.nIn := by cases k <;> rfl
@[simp] theorem placeLead_wrPos (k : LengthClass) (cp : Word) : (placeLead k cp s).wrPos = s.wrPos + 1#32 := by cases k <;> rfl
@[simp] theorem placeLead_inputs (k : LengthClass) (cp : Word) : (placeLead k cp s).inputs = s.inputs := by cases k <;> rfl
@[simp] theorem placeLead_replies (k : LengthClass) (cp : Word) : (placeLead k cp s).replies = s.replies := by cases k <;> rfl
@[simp] theorem placeLead_sched (k : LengthClass) (cp : Word) : (placeLead k cp s).sched = s.sched := by cases k <;> rfl
@[simp] theorem placeLead_draws (k : LengthClass) (cp : Word) : (placeLead k cp s).draws = s.draws := by cases k <;> rfl

@[simp] theorem State.resetInput_cfg : (s.resetInput).cfg = s.cfg := rfl
@[simp] theorem State.resetInput_run : (s.resetInput).run = .idle := rfl
@[simp] theorem State.resetInput_lastOp : (s.resetInput).lastOp = none := rfl
@[simp] theorem State.resetInput_inLen : (s.resetInput).inLen = 0#32 := rfl
@[simp] theorem State.resetInput_outLen : (s.resetInput).outLen = 0#32 := rfl
@[simp] theorem State.resetInput_errCode : (s.resetInput).errCode = none := rfl
@[simp] theorem State.resetInput_errPos : (s.resetInput).errPos = 0#32 := rfl
@[simp] theorem State.resetInput_bbuf : (s.resetInput).bbuf = Memory.fill (Config.freeByte s.draws) s.cfg.bCap [] := rfl
@[simp] theorem State.resetInput_wbuf : (s.resetInput).wbuf = Memory.fill (Config.freeWord s.draws) s.cfg.wCap [] := rfl
@[simp] theorem State.resetInput_acc : (s.resetInput).acc = Config.freeAcc s.draws := rfl
@[simp] theorem State.resetInput_phase : (s.resetInput).phase = Phase.ofBits (Config.freePhase s.draws) := rfl
@[simp] theorem State.resetInput_nIn : (s.resetInput).nIn = Config.freeNIn s.draws := rfl
@[simp] theorem State.resetInput_rdPos : (s.resetInput).rdPos = Config.freeRdPos s.draws := rfl
@[simp] theorem State.resetInput_wrPos : (s.resetInput).wrPos = Config.freeWrPos s.draws := rfl
@[simp] theorem State.resetInput_rem : (s.resetInput).rem = Config.freeRem s.draws := rfl
@[simp] theorem State.resetInput_cpLatch : (s.resetInput).cpLatch = Config.freeCpLatch s.draws := rfl
@[simp] theorem State.resetInput_rbits : (s.resetInput).rbits = Config.freeRbits s.draws := rfl
@[simp] theorem State.resetInput_inputs : (s.resetInput).inputs = s.inputs := rfl
@[simp] theorem State.resetInput_replies : (s.resetInput).replies = s.replies := rfl
@[simp] theorem State.resetInput_sched : (s.resetInput).sched = s.sched := rfl
@[simp] theorem State.resetInput_draws : (s.resetInput).draws = s.draws + 1 := rfl

@[simp] theorem State.dropOutput_decode_bbuf : (s.dropOutput .decode).bbuf = s.bbuf := rfl
@[simp] theorem State.dropOutput_encode_wbuf : (s.dropOutput .encode).wbuf = s.wbuf := rfl
@[simp] theorem State.dropOutput_decode_wbuf : (s.dropOutput .decode).wbuf =
    Memory.fill (Config.freeWord s.draws) (min s.nIn.toNat s.cfg.wCap) s.wbuf := rfl
@[simp] theorem State.dropOutput_encode_bbuf : (s.dropOutput .encode).bbuf =
    Memory.fill (Config.freeByte s.draws) (min (4 * s.nIn.toNat) s.cfg.bCap) s.bbuf := rfl
@[simp] theorem placeLead_one_rdPos (cp : Word) : (placeLead .one cp s).rdPos = s.rdPos + 1#32 := rfl
@[simp] theorem placeLead_one_phase (cp : Word) : (placeLead .one cp s).phase = s.phase := rfl
@[simp] theorem Op.startPhase_decode : Op.decode.startPhase = .decLead := rfl
@[simp] theorem Op.startPhase_encode : Op.encode.startPhase = .encLead := rfl

/-! What the readers see after an update. -/

@[simp] theorem State.busy_iff : s.busy = true ↔ s.run = .busy := by simp [State.busy]
@[simp] theorem State.not_busy_iff : s.busy = false ↔ s.run ≠ .busy := by simp [State.busy]
@[simp] theorem State.start_busy (op : Op) : (s.start op).busy = true := rfl
@[simp] theorem State.finishOk_busy (n : Word) : (s.finishOk n).busy = false := rfl
@[simp] theorem State.clearResult_busy : s.clearResult.busy = false := rfl
@[simp] theorem State.raise_busy (op : Op) (e : CoreError) (pos : Word) : (s.raise op e pos).busy = false := rfl
@[simp] theorem State.afterTurn_busy : s.afterTurn.busy = s.busy := by simp [State.busy]
theorem State.afterTurn_of_not_busy (h : s.busy = false) : s.afterTurn = s := by simp [State.afterTurn, h]

theorem State.readByte_writeByte (h : Memory.wf s.bbuf = true) (i : Nat) (v : Byte) (j : Nat) :
    (s.writeByte i v).readByte j = if j = i then v else s.readByte j := Memory.read_write h i v j
theorem State.readWord_writeWord (h : Memory.wf s.wbuf = true) (i : Nat) (v : Word) (j : Nat) :
    (s.writeWord i v).readWord j = if j = i then v else s.readWord j := Memory.read_write h i v j
@[simp] theorem State.readByte_writeWord (i : Nat) (v : Word) (j : Nat) :
    (s.writeWord i v).readByte j = s.readByte j := rfl
@[simp] theorem State.readWord_writeByte (i : Nat) (v : Byte) (j : Nat) :
    (s.writeByte i v).readWord j = s.readWord j := rfl

end Sys2Proof.Machine
end

