-- ==== Sys2Proof/Laws/Ops.lean ====
section
/-! SUPPORT. For each shared operation, everything it can do when it answers a next state; a proof cites these and does not
unfold the operation. -/
namespace Sys2Proof.Machine

variable {s t : State}

/-! ## Commands -/

theorem startCommand_next {op : Op} (h : startCommand op s = .next t) :
    s.busy = false ∧ s.fits op = true ∧ t = s.start op := by
  unfold startCommand at h
  split at h
  · cases h
  · split at h
    · cases h; simp_all
    · cases h

theorem execClear_next (h : execClear s = .next t) : s.busy = false ∧ t = s.clearResult := by
  unfold execClear at h
  split at h
  · cases h
  · cases h; simp_all

/-- The only instructions a command word decodes to. -/
theorem decodeCommand_ok {v : Word} {i : Instr} (h : decodeCommand v = .ok i) :
    (v = 0#32 ∧ i = .clear) ∨ (v = 1#32 ∧ i = .decode) ∨ (v = 2#32 ∧ i = .encode) := by
  unfold decodeCommand at h
  split at h
  · cases h
  · next hv =>
    have hlt : v.toNat < 4 := by
      have := congrArg BitVec.toNat (not_not.mp hv)
      simp [Nat.shiftRight_eq_div_pow] at this
      omega
    have hv4 : v = 0#32 ∨ v = 1#32 ∨ v = 2#32 ∨ v = 3#32 := by
      have : v.toNat = 0 ∨ v.toNat = 1 ∨ v.toNat = 2 ∨ v.toNat = 3 := by omega
      simpa [BitVec.toNat_eq] using this
    rcases hv4 with rfl | rfl | rfl | rfl <;> simp_all

theorem writeCommand_next {v : Word} (h : writeCommand v s = .next t) :
    (v = 0#32 ∧ s.busy = false ∧ t = s.clearResult) ∨
      ∃ op : Op, v = op.code.setWidth 32 ∧ s.busy = false ∧ s.fits op = true ∧ t = s.start op := by
  unfold writeCommand at h
  split at h
  · next i hi =>
    rcases decodeCommand_ok hi with ⟨rfl, rfl⟩ | ⟨rfl, rfl⟩ | ⟨rfl, rfl⟩
    · exact .inl ⟨rfl, execClear_next h⟩
    · exact .inr ⟨.decode, rfl, startCommand_next h⟩
    · exact .inr ⟨.encode, rfl, startCommand_next h⟩
  · cases h

/-! ## The host port -/

theorem bufferAccess_next {cap i : Nat} {u : State} (h : bufferAccess cap i s u = .next t) :
    s.busy = false ∧ i < cap ∧ t = u := by
  unfold bufferAccess at h
  split at h
  · cases h
  · split at h
    · cases h; simp_all
    · cases h

/-- Everything a host action can do. -/
theorem hostAct_next {a : HostAction} (h : hostAct a s = .next t) :
    t = s ∨ (∃ r, t = s.reply r) ∨ (s.busy = false ∧ ∃ v, t = { s with inLen := v }) ∨
      (s.busy = false ∧ ∃ i v, i < s.cfg.bCap ∧ t = s.writeByte i v) ∨
      (s.busy = false ∧ ∃ i v, i < s.cfg.wCap ∧ t = s.writeWord i v) ∨
      (s.busy = false ∧ a = .regWrite 0 0#32 ∧ t = s.clearResult) ∨
      (s.busy = false ∧ ∃ op : Op, a = .regWrite 0 (op.code.setWidth 32) ∧ s.fits op = true ∧ t = s.start op) := by
  cases a with
  | regRead off =>
    simp only [hostAct, readRegister] at h
    split at h
    · cases h; exact .inr (.inl ⟨_, rfl⟩)
    · cases h
  | regWrite off v =>
    simp only [hostAct, writeRegister] at h
    split at h
    · next r hr =>
      cases r with
      | cmd =>
        have hoff : off = 0 := by
          unfold regAt at hr
          (repeat' split at hr) <;> simp_all
        subst hoff
        rcases writeCommand_next h with ⟨rfl, hb, rfl⟩ | ⟨op, rfl, hb, hf, rfl⟩
        · exact .inr (.inr (.inr (.inr (.inr (.inl ⟨hb, rfl, rfl⟩)))))
        · exact .inr (.inr (.inr (.inr (.inr (.inr ⟨hb, op, rfl, hf, rfl⟩)))))
      | inLen =>
        simp only [writeMapped] at h
        split at h
        · cases h
        · next hb => cases h; exact .inr (.inr (.inl ⟨by simpa using hb, _, rfl⟩))
      | status => cases h; exact .inl rfl
      | outLen => cases h; exact .inl rfl
      | errCode => cases h; exact .inl rfl
      | errPos => cases h; exact .inl rfl
    · cases h
  | bbufRead i => exact .inr (.inl ⟨_, (bufferAccess_next h).2.2⟩)
  | bbufWrite i v =>
    obtain ⟨hb, hi, rfl⟩ := bufferAccess_next h
    exact .inr (.inr (.inr (.inl ⟨hb, i, v, hi, rfl⟩)))
  | wbufRead i => exact .inr (.inl ⟨_, (bufferAccess_next h).2.2⟩)
  | wbufWrite i v =>
    obtain ⟨hb, hi, rfl⟩ := bufferAccess_next h
    exact .inr (.inr (.inr (.inr (.inl ⟨hb, i, v, hi, rfl⟩))))

/-- Everything a turn of the outside can do. -/
theorem hostTurn_next (h : hostTurn s = .next t) :
    (s.inputs = [] ∧ t = s) ∨
      (∃ a rest, s.inputs = .act a :: rest ∧ hostAct a { s with inputs := rest } = .next t) ∨
      (∃ rest, s.inputs = .wait :: rest ∧ t = waitTurn rest s) ∨
      (∃ rest, s.inputs = .reset :: rest ∧ t = { s with inputs := rest }.resetInput) := by
  unfold hostTurn at h
  split at h
  · next he => cases h; exact .inl ⟨he, rfl⟩
  · next a rest he => exact .inr (.inl ⟨a, rest, he, h⟩)
  · next rest he => cases h; exact .inr (.inr (.inl ⟨rest, he, rfl⟩))
  · next rest he => cases h; exact .inr (.inr (.inr ⟨rest, he, rfl⟩))

/-- WAIT leaves everything but the outside. -/
theorem waitTurn_eq (rest : List Input) (s : State) :
    ∃ inputs replies, waitTurn rest s = { s with inputs := inputs, replies := replies } := by
  unfold waitTurn State.reply
  split <;> exact ⟨_, _, rfl⟩

/-! ## The decoder -/

theorem emitWord_next (h : emitWord s = .next t) :
    s.wrPos.toNat < s.cfg.wCap ∧
      t = { s.writeWord s.wrPos.toNat (accEmit s.acc) with wrPos := s.wrPos + 1#32 } := by
  unfold emitWord at h
  split at h
  · next hw => cases h; exact ⟨hw, rfl⟩
  · cases h

theorem seedUnit_next {k : LengthClass} {x : Byte} (h : seedUnit k x s = .next t) :
    (k = .one ∧ s.wrPos.toNat < s.cfg.wCap ∧
        t = { s.writeWord s.wrPos.toNat (accEmit (accSeed x)) with
          acc := accSeed x, rdPos := s.rdPos + 1#32, wrPos := s.wrPos + 1#32 }) ∨
      (k ≠ .one ∧
        t = { s with
          acc := accSeed x, rdPos := s.rdPos + 1#32, rem := BitVec.ofNat 2 (k.len - 1), phase := .decCont }) := by
  cases k with
  | one =>
    obtain ⟨hw, rfl⟩ := emitWord_next h
    exact .inl ⟨rfl, hw, rfl⟩
  | two => cases h; exact .inr ⟨nofun, rfl⟩
  | three => cases h; exact .inr ⟨nofun, rfl⟩
  | four => cases h; exact .inr ⟨nofun, rfl⟩

theorem mergeUnit_next {x : Byte} (h : mergeUnit x s = .next t) :
    (s.rem - 1#2 = 0#2 ∧ s.wrPos.toNat < s.cfg.wCap ∧
        t = { s.writeWord s.wrPos.toNat (accEmit (accMerge s.acc x)) with
          acc := accMerge s.acc x, rdPos := s.rdPos + 1#32, rem := s.rem - 1#2, phase := .decLead,
          wrPos := s.wrPos + 1#32 }) ∨
      (s.rem - 1#2 ≠ 0#2 ∧
        t = { s with acc := accMerge s.acc x, rdPos := s.rdPos + 1#32, rem := s.rem - 1#2 }) := by
  unfold mergeUnit at h
  split at h
  · next hr =>
    obtain ⟨hw, rfl⟩ := emitWord_next h
    exact .inl ⟨hr, hw, rfl⟩
  · next hr => cases h; exact .inr ⟨hr, rfl⟩

/-- Everything DEC_LEAD can do on a byte of a known role. -/
theorem decLeadStep_next {r : ByteRole} {x : Byte} (h : decLeadStep r x s = .next t) :
    (s.rdPos = s.nIn ∧ t = s.finishOk s.wrPos) ∨
      (s.rdPos ≠ s.nIn ∧ (∀ k, r ≠ .lead k) ∧ t = s.raise .decode .invalidLeadByte s.rdPos) ∨
      (∃ k, r = .lead k ∧ s.rdPos ≠ s.nIn ∧ s.nIn.toNat < s.rdPos.toNat + k.len ∧
        t = s.raise .decode .truncatedSequence s.rdPos) ∨
      (∃ k, r = .lead k ∧ s.rdPos ≠ s.nIn ∧ s.rdPos.toNat + k.len ≤ s.nIn.toNat ∧ seedUnit k x s = .next t) := by
  unfold decLeadStep at h
  split at h
  · next he => cases h; exact .inl ⟨he, rfl⟩
  · next he =>
    cases r with
    | lead k =>
      simp only at h
      split at h
      · next hl => cases h; exact .inr (.inr (.inl ⟨k, rfl, he, hl, rfl⟩))
      · next hl => exact .inr (.inr (.inr ⟨k, rfl, he, by omega, h⟩))
    | cont => cases h; exact .inr (.inl ⟨he, nofun, rfl⟩)
    | noFormat => cases h; exact .inr (.inl ⟨he, nofun, rfl⟩)

/-- Everything DEC_CONT can do on a byte of a known role. -/
theorem decContStep_next {r : ByteRole} {x : Byte} (h : decContStep r x s = .next t) :
    (r ≠ .cont ∧ t = s.raise .decode .invalidContinuationByte s.rdPos) ∨ (r = .cont ∧ mergeUnit x s = .next t) := by
  cases r with
  | cont => exact .inr ⟨rfl, h⟩
  | lead k => cases h; exact .inl ⟨nofun, rfl⟩
  | noFormat => cases h; exact .inl ⟨nofun, rfl⟩

/-- A byte reaches a decoder microstep or nothing reads it. -/
theorem consumeByte_next {r : ByteRole} {x : Byte} (h : consumeByte r x s = .next t) :
    (s.run = .busy ∧ s.phase = .decLead ∧ decLeadStep r x s = .next t) ∨
      (s.run = .busy ∧ s.phase = .decCont ∧ decContStep r x s = .next t) ∨
      ((s.run ≠ .busy ∨ s.phase = .encLead ∨ s.phase = .encCont) ∧ t = s) := by
  unfold consumeByte at h
  split at h
  · next hb =>
    rw [State.busy_iff] at hb
    split at h
    · next hp => exact .inl ⟨hb, hp, h⟩
    · next hp => exact .inr (.inl ⟨hb, hp, h⟩)
    · next hp => cases h; exact .inr (.inr ⟨.inr (.inl hp), rfl⟩)
    · next hp => cases h; exact .inr (.inr ⟨.inr (.inr hp), rfl⟩)
  · next hb =>
    cases h
    exact .inr (.inr ⟨.inl (by simpa using hb), rfl⟩)

/-- The payload of a byte that has a format, else the byte. -/
def bytePayload (b : Byte) : Byte :=
  match byteRole b with
  | .lead k => b &&& ~~~romMask k
  | .cont => b &&& ~~~contMask
  | .noFormat => b

/-- Running a byte is consuming it in its role: decoding loses nothing the pipeline uses. -/
theorem runByte_eq (b : Byte) (s : State) : runByte b s = consumeByte (byteRole b) (bytePayload b) s := by
  unfold runByte bytePayload byteRole
  simp only [decode, decodeByte]
  cases hc : classify b with
  | none => cases hi : isCont b <;> rfl
  | some k => cases k <;> rfl

theorem accSeed_eq_leadPayload (b : Byte) (k : LengthClass) : accSeed (b &&& ~~~romMask k) = leadPayload b k := rfl

theorem setWidth_eq_contPayload : ∀ b : Byte, (b &&& ~~~contMask).setWidth 21 = contPayload b := by decide

theorem accMerge_eq_contPayload (acc : AccWord) (b : Byte) :
    accMerge acc (b &&& ~~~contMask) = (acc <<< contBits) ||| contPayload b := by
  rw [accMerge, setWidth_eq_contPayload]

/-! ## The encoder and the sequencer -/

/-- Everything ENC_LEAD can do. -/
theorem encLeadStep_next (h : encLeadStep s = .next t) :
    (s.rdPos = s.nIn ∧ t = s.finishOk s.wrPos) ∨
      (s.rdPos ≠ s.nIn ∧ s.rdPos.toNat < s.cfg.wCap ∧ magClass (s.readWord s.rdPos.toNat) = none ∧
        t = s.raise .encode .codePointOutOfRange s.rdPos) ∨
      (∃ k, s.rdPos ≠ s.nIn ∧ s.rdPos.toNat < s.cfg.wCap ∧ magClass (s.readWord s.rdPos.toNat) = some k ∧
        s.wrPos.toNat < s.cfg.bCap ∧ t = placeLead k (s.readWord s.rdPos.toNat) s) := by
  unfold encLeadStep at h
  split at h
  · next he => cases h; exact .inl ⟨he, rfl⟩
  · next he =>
    split at h
    · next hr =>
      split at h
      · next hm => cases h; exact .inr (.inl ⟨he, hr, hm, rfl⟩)
      · next k hm =>
        split at h
        · next hw => cases h; exact .inr (.inr ⟨k, he, hr, hm, hw, rfl⟩)
        · cases h
    · cases h

theorem encContStep_next (h : encContStep s = .next t) : s.wrPos.toNat < s.cfg.bCap ∧ t = placeCont s := by
  unfold encContStep at h
  split at h
  · next hw => cases h; exact ⟨hw, rfl⟩
  · cases h

theorem fetchByte_next (h : fetchByte s = .next t) :
    s.rdPos.toNat < s.cfg.bCap ∧
      consumeByte (byteRole (s.readByte s.rdPos.toNat)) (bytePayload (s.readByte s.rdPos.toNat)) s = .next t := by
  unfold fetchByte at h
  split at h
  · next hr => rw [runByte_eq] at h; exact ⟨hr, h⟩
  · cases h

/-- Everything a microstep can do, by phase. -/
theorem microstep_next (h : microstep s = .next t) :
    (s.run ≠ .busy ∧ t = s) ∨
      (s.run = .busy ∧ s.phase = .decLead ∧ s.rdPos = s.nIn ∧ t = s.finishOk s.wrPos) ∨
      (s.run = .busy ∧ s.phase = .decLead ∧ s.rdPos ≠ s.nIn ∧ s.rdPos.toNat < s.cfg.bCap ∧
        decLeadStep (byteRole (s.readByte s.rdPos.toNat)) (bytePayload (s.readByte s.rdPos.toNat)) s = .next t) ∨
      (s.run = .busy ∧ s.phase = .decCont ∧ s.rdPos.toNat < s.cfg.bCap ∧
        decContStep (byteRole (s.readByte s.rdPos.toNat)) (bytePayload (s.readByte s.rdPos.toNat)) s = .next t) ∨
      (s.run = .busy ∧ s.phase = .encLead ∧ encLeadStep s = .next t) ∨
      (s.run = .busy ∧ s.phase = .encCont ∧ encContStep s = .next t) := by
  unfold microstep at h
  split at h
  · next hb =>
    rw [State.busy_iff] at hb
    split at h
    · next hp =>
      split at h
      · next he => cases h; exact .inr (.inl ⟨hb, hp, he, rfl⟩)
      · next he =>
        obtain ⟨hr, h⟩ := fetchByte_next h
        simp only [consumeByte, (State.busy_iff s).mpr hb, hp, if_true] at h
        exact .inr (.inr (.inl ⟨hb, hp, he, hr, h⟩))
    · next hp =>
      obtain ⟨hr, h⟩ := fetchByte_next h
      simp only [consumeByte, (State.busy_iff s).mpr hb, hp, if_true] at h
      exact .inr (.inr (.inr (.inl ⟨hb, hp, hr, h⟩)))
    · next hp => exact .inr (.inr (.inr (.inr (.inl ⟨hb, hp, h⟩))))
    · next hp => exact .inr (.inr (.inr (.inr (.inr ⟨hb, hp, h⟩))))
  · next hb => cases h; exact .inl ⟨by simpa using hb, rfl⟩

/-! ## Turns -/

/-- Which agent took a step. -/
theorem step_next (h : step s = .next t) :
    (s.nextAgent = .host ∧ hostTurn s.afterTurn = .next t) ∨ (s.nextAgent = .core ∧ microstep s.afterTurn = .next t) := by
  unfold step at h
  split at h
  · next ha => exact .inl ⟨ha, h⟩
  · next ha => exact .inr ⟨ha, h⟩

/-- The sequencer moves only while an operation runs. -/
theorem nextAgent_core (h : s.nextAgent = .core) : s.run = .busy := by
  unfold State.nextAgent at h
  split at h
  · next hb => simpa using hb
  · cases h

/-- While an operation runs the host moves only where the schedule says so and it has something to do. -/
theorem nextAgent_host_of_busy (h : s.nextAgent = .host) (hb : s.run = .busy) :
    ∃ a rest sched, s.inputs = a :: rest ∧ s.sched = .host :: sched := by
  unfold State.nextAgent at h
  simp only [(State.busy_iff s).mpr hb, if_true] at h
  split at h
  · next a rest sched h1 h2 => exact ⟨a, rest, sched, h1, h2⟩
  · cases h

/-- The turn's bookkeeping changes the schedule only. -/
theorem afterTurn_eq (s : State) : ∃ sched, s.afterTurn = { s with sched := sched } := by
  unfold State.afterTurn
  split <;> exact ⟨_, rfl⟩

end Sys2Proof.Machine
end

