-- ==== Sys2Proof/Laws/PerInstr.lean ====
section
/-! SUPPORT. Statements for all instructions, one lemma per constructor. -/
namespace Sys2Proof.Laws.TableRow

/-- The word of a well-formed instruction lies in its row of spec/opcode_table.json: the row's width, and the row's "match"
under the row's "mask". -/
def Statement (i : Instr) : Prop :=
  i.wf = true →
    match encode i with
    | .command w => (tableRow i).1 = 32 ∧ w.toNat &&& (tableRow i).2.1 = (tableRow i).2.2
    | .unitByte b => (tableRow i).1 = 8 ∧ b.toNat &&& (tableRow i).2.1 = (tableRow i).2.2

theorem clear : Statement .clear := fun _ => ⟨rfl, rfl⟩
theorem decode : Statement .decode := fun _ => ⟨rfl, rfl⟩
theorem encode : Statement .encode := fun _ => ⟨rfl, rfl⟩

theorem lead1_bits : ∀ x : Byte, x.toNat < 2 ^ 7 → (romMarker .one ||| x).toNat &&& 0x80 = 0x00 := by decide
theorem lead2_bits : ∀ x : Byte, x.toNat < 2 ^ 5 → (romMarker .two ||| x).toNat &&& 0xE0 = 0xC0 := by decide
theorem lead3_bits : ∀ x : Byte, x.toNat < 2 ^ 4 → (romMarker .three ||| x).toNat &&& 0xF0 = 0xE0 := by decide
theorem lead4_bits : ∀ x : Byte, x.toNat < 2 ^ 3 → (romMarker .four ||| x).toNat &&& 0xF8 = 0xF0 := by decide
theorem cont_bits : ∀ x : Byte, x.toNat < 2 ^ 6 → (contMarker ||| x).toNat &&& 0xC0 = 0x80 := by decide

theorem lead1 (x : Byte) : Statement (.lead1 x) := fun h => ⟨rfl, lead1_bits x (of_decide_eq_true h)⟩
theorem lead2 (x : Byte) : Statement (.lead2 x) := fun h => ⟨rfl, lead2_bits x (of_decide_eq_true h)⟩
theorem lead3 (x : Byte) : Statement (.lead3 x) := fun h => ⟨rfl, lead3_bits x (of_decide_eq_true h)⟩
theorem lead4 (x : Byte) : Statement (.lead4 x) := fun h => ⟨rfl, lead4_bits x (of_decide_eq_true h)⟩
theorem cont (x : Byte) : Statement (.cont x) := fun h => ⟨rfl, cont_bits x (of_decide_eq_true h)⟩

end Sys2Proof.Laws.TableRow
end

