-- ==== Sys2Proof/Tests/Slice0.lean ====
section
/-! SUPPORT. The model's own tests: expected values come from the spec's tables and worked examples (95_test_vectors.md), never
from the model. Then one witness for each statement that has hypotheses. -/
namespace Sys2Proof.Tests

open Sys2Proof Sys2Proof.Machine

/-! ## WellFormed: one ill-formed term for each check -/

theorem test_wf_lead1_refuses_8_bits : (Instr.lead1 0x80#8).wf = false := by decide
theorem test_wf_lead2_refuses_6_bits : (Instr.lead2 0x20#8).wf = false := by decide
theorem test_wf_lead3_refuses_5_bits : (Instr.lead3 0x10#8).wf = false := by decide
theorem test_wf_lead4_refuses_4_bits : (Instr.lead4 0x08#8).wf = false := by decide
theorem test_wf_cont_refuses_7_bits : (Instr.cont 0x40#8).wf = false := by decide
theorem test_wf_accepts : (Instr.clear.wf && Instr.decode.wf && Instr.encode.wf && (Instr.lead1 0x7F#8).wf &&
    (Instr.lead2 0x1F#8).wf && (Instr.lead3 0x0F#8).wf && (Instr.lead4 0x07#8).wf && (Instr.cont 0x3F#8).wf) = true := by
  decide
theorem test_config_refuses_0 : (Config.valid { bCap := 0, wCap := 1 } || Config.valid { bCap := 1, wCap := 0 } ||
    Config.valid { bCap := 2 ^ 32, wCap := 1 } || Config.valid { bCap := 1, wCap := 2 ^ 32 }) = false := by decide
theorem test_memory_refuses_disorder : (Memory.wf [(1, 1#8), (1, 2#8)] || Memory.wf [(2, 1#8), (1, 2#8)] ||
    Memory.wf [(0, 0#8)] || Memory.within [(16, 1#8)] 16) = false := by decide

/-! ## Decoding: words written out bit by bit from R72 and R81 -/

theorem test_decode_clear : decode (.command 0b00000000000000000000000000000000#32) = .ok .clear := by decide
theorem test_decode_decode : decode (.command 0b00000000000000000000000000000001#32) = .ok .decode := by decide
theorem test_decode_encode : decode (.command 0b00000000000000000000000000000010#32) = .ok .encode := by decide
theorem test_decode_reserved_op : decode (.command 0b00000000000000000000000000000011#32) =
    .error (.reservedCommand 3#32) := by decide
theorem test_decode_reserved_bit : decode (.command 0b00000000000000000000000000000101#32) =
    .error (.reservedCommand 5#32) := by decide
theorem test_decode_lead1 : decode (.unitByte 0b01111111#8) = .ok (.lead1 0b1111111#8) := by decide
theorem test_decode_lead2 : decode (.unitByte 0b11010000#8) = .ok (.lead2 0b10000#8) := by decide
theorem test_decode_lead3 : decode (.unitByte 0b11101101#8) = .ok (.lead3 0b1101#8) := by decide
theorem test_decode_lead4 : decode (.unitByte 0b11110100#8) = .ok (.lead4 0b100#8) := by decide
theorem test_decode_cont : decode (.unitByte 0b10101111#8) = .ok (.cont 0b101111#8) := by decide
theorem test_decode_no_format : decode (.unitByte 0b11111000#8) = .error (.noByteFormat 0xF8#8) := by decide
theorem test_decode_table_word : decodeTableWord 32 2 = some .encode ∧ decodeTableWord 8 0xC0 = some (.lead2 0#8) ∧
    decodeTableWord 8 0xFF = none := by decide

/-! ## The stage functions (vectors of section 2.1) -/

theorem test_classify_edges : [0x00#8, 0x7F#8, 0x80#8, 0xBF#8, 0xC0#8, 0xDF#8, 0xE0#8, 0xEF#8, 0xF0#8, 0xF7#8, 0xF8#8,
    0xFF#8].map classify = [some .one, some .one, none, none, some .two, some .two, some .three, some .three, some .four,
    some .four, none, none] := by decide
theorem test_mag_class_edges : [0x0#32, 0x7F#32, 0x80#32, 0x7FF#32, 0x800#32, 0xFFFF#32, 0x10000#32, 0x10FFFF#32,
    0x110000#32, 0x1FFFFF#32, 0xFFFFFFFF#32].map magClass = [some .one, some .one, some .two, some .two, some .three,
    some .three, some .four, some .four, none, none, none] := by decide
theorem test_extract : bits 0x1F4AF#32 20 18 = 0#32 ∧ bits 0x1F4AF#32 17 12 = 0x1F#32 ∧ bits 0x1F4AF#32 11 6 = 0x12#32 ∧
    bits 0xFFFFFFFF#32 31 0 = 0xFFFFFFFF#32 := by decide
theorem test_payloads : leadPayload 0xF7#8 .four = 7#21 ∧ leadPayload 0xE2#8 .three = 2#21 ∧ contPayload 0xAF#8 = 0x2F#21 := by
  decide

/-! ## Whole operations (TD27, TD31, TD40, TE20, TE21) -/

theorem test_decode_fn_truncated_wins : decodeFn [0xE0#8, 0x41#8] = .err .truncatedSequence 0 := by decide
theorem test_decode_fn_lead_as_cont : decodeFn [0xC2#8, 0xC2#8, 0x80#8] = .err .invalidContinuationByte 1 := by decide
theorem test_decode_fn_each_class : decodeFn [0x24#8, 0xC2#8, 0xA2#8, 0xE2#8, 0x82#8, 0xAC#8, 0xF0#8, 0x90#8, 0x8D#8, 0x88#8] =
    .ok [0x24#32, 0xA2#32, 0x20AC#32, 0x10348#32] := by decide
theorem test_encode_fn_each_class : encodeFn [0x24#32, 0xA2#32, 0x20AC#32, 0x10348#32] =
    .ok [0x24#8, 0xC2#8, 0xA2#8, 0xE2#8, 0x82#8, 0xAC#8, 0xF0#8, 0x90#8, 0x8D#8, 0x88#8] := by decide
theorem test_encode_fn_error_index : encodeFn [0x41#32, 0x110000#32, 0x42#32] = .err .codePointOutOfRange 1 := by decide

/-! ## States for the step tests and the witnesses -/

/-- Whether an outcome is a next state with a property. -/
def nextWith (o : Outcome) (p : State → Bool) : Bool :=
  match o with
  | .next t => p t
  | .fault _ => false
  | .refused _ => false

/-- Whether an outcome is the refusal named. -/
def refusedWith (o : Outcome) (r : Refusal) : Bool :=
  match o with
  | .next _ => false
  | .fault _ => false
  | .refused r' => r == r'

/-- E3 before its DECODE command: BBUF = D0 AF 20, IN_LEN = 3. -/
def beforeDecode : State := { State.reset with inLen := 3#32, bbuf := [(0, 0xD0#8), (1, 0xAF#8), (2, 0x20#8)] }

/-- E3 at its first microstep: a leading byte of class 2 at `rd_pos`. -/
def atLead2 : State := { beforeDecode with run := .busy, lastOp := some .decode, nIn := 3#32 }

/-- E3 after its first microstep: acc = 0x10, rem = 1. -/
def atCont : State := { atLead2 with acc := 0x10#21, rdPos := 1#32, rem := 1#2, phase := .decCont }

/-- E3 after its second microstep: WBUF[0] = 0x42F. -/
def atLead1 : State := { atLead2 with acc := 0x42F#21, rdPos := 2#32, wrPos := 1#32, wbuf := [(0, 0x42F#32)] }

/-- E3 after its third microstep: the input is used up. -/
def atEnd : State := { atLead1 with rdPos := 3#32, wrPos := 2#32 }

/-- E1 after its first microstep: acc = 0, rem = 3, BBUF = F0 9F 92 AF. -/
def atFirstCont : State :=
  { atLead2 with
    bbuf := [(0, 0xF0#8), (1, 0x9F#8), (2, 0x92#8), (3, 0xAF#8)], nIn := 4#32, inLen := 4#32, rdPos := 1#32, rem := 3#2,
    phase := .decCont }

/-- E2 at its first microstep: WBUF[0] = 0x1F4AF. -/
def atEncLead : State :=
  { State.reset with run := .busy, lastOp := some .encode, phase := .encLead, inLen := 1#32, nIn := 1#32, wbuf := [(0, 0x1F4AF#32)] }

/-- E2 after its first microstep. -/
def atEncCont : State :=
  { atEncLead with phase := .encCont, bbuf := [(0, 0xF0#8)], wrPos := 1#32, rem := 3#2, rbits := 18#5, cpLatch := 0x1F4AF#32 }

/-- TC2: STATUS = 0x00000007, ERR_CODE = 1, ERR_POS = 0, IN_LEN = 1. -/
def inError : State :=
  { State.reset with run := .doneErr, lastOp := some .decode, errCode := some .invalidLeadByte, inLen := 1#32, nIn := 1#32 }

/-- TC3: STATUS = 0x0000000A, OUT_LEN = 4. -/
def inDone : State := { State.reset with run := .doneOk, lastOp := some .encode, outLen := 4#32, nIn := 1#32 }

theorem atLead2_inv : Inv atLead2 := by constructor <;> decide
theorem atCont_inv : Inv atCont := by constructor <;> decide
theorem atFirstCont_inv : Inv atFirstCont := by constructor <;> decide
theorem atLead1_inv : Inv atLead1 := by constructor <;> decide
theorem atEncLead_inv : Inv atEncLead := by constructor <;> decide
theorem atEncCont_inv : Inv atEncCont := by constructor <;> decide
theorem inError_inv : Inv inError := by constructor <;> decide
theorem inDone_inv : Inv inDone := by constructor <;> decide

/-! ## One step each, at most two tests an instruction -/

theorem test_clear_from_error : nextWith (step (inError.withFetchWord 32 0)) (fun t =>
    t.statusWord == 0#32 && t.errCodeWord == 0#32 && t.inLen == 1#32 && !t.doneIrq) = true := by decide
theorem test_clear_does_not_cancel : refusedWith (step (atCont.withFetchWord 32 0)) .commandWhileBusy = true := by decide
theorem test_decode_starts : nextWith (step (beforeDecode.withFetchWord 32 1)) (fun t =>
    t.statusWord == 5#32 && t.nIn == 3#32 && t.phase == .decLead) = true := by decide
theorem test_decode_over_capacity : refusedWith (step ({ beforeDecode with inLen := 17#32 }.withFetchWord 32 1))
    .capacityExceeded = true := by decide
theorem test_encode_at_capacity : nextWith (step ({ inError with inLen := 4#32 }.withFetchWord 32 2)) (fun t =>
    t.statusWord == 9#32 && t.nIn == 4#32 && t.errCode == none) = true := by decide
theorem test_encode_over_capacity : refusedWith (step ({ inError with inLen := 5#32 }.withFetchWord 32 2))
    .capacityExceeded = true := by decide
theorem test_lead1_emits : nextWith (step atLead1) (fun t =>
    t.readWord 1 == 0x20#32 && t.readWord 0 == 0x42F#32 && t.wrPos == 2#32 && t.rdPos == 3#32) = true := by decide
theorem test_lead2_seeds : nextWith (step atLead2) (fun t =>
    t.acc == 0x10#21 && t.rdPos == 1#32 && t.rem == 1#2 && t.phase == .decCont) = true := by decide
theorem test_lead2_truncated : nextWith (step { atLead2 with rdPos := 2#32, bbuf := [(2, 0xC2#8)] }) (fun t =>
    t.statusWord == 7#32 && t.errCodeWord == 2#32 && t.errPos == 2#32) = true := by decide
theorem test_lead3_seeds : nextWith (step { atLead2 with bbuf := [(0, 0xE2#8)] }) (fun t =>
    t.acc == 2#21 && t.rem == 2#2) = true := by decide
theorem test_lead4_seeds : nextWith (step { atFirstCont with rdPos := 0#32, phase := .decLead }) (fun t =>
    t.acc == 0#21 && t.rem == 3#2) = true := by decide
theorem test_lead4_as_cont : nextWith (step { atCont with bbuf := [(1, 0xF0#8)] }) (fun t =>
    t.errCodeWord == 3#32 && t.errPos == 1#32 && t.outLen == 0#32) = true := by decide
theorem test_cont_emits : nextWith (step atCont) (fun t =>
    t.acc == 0x42F#21 && t.readWord 0 == 0x42F#32 && t.wrPos == 1#32 && t.phase == .decLead) = true := by decide
theorem test_cont_merges : nextWith (step atFirstCont) (fun t =>
    t.acc == 0x1F#21 && t.rdPos == 2#32 && t.rem == 2#2 && t.wrPos == 0#32) = true := by decide
theorem test_enc_lead : nextWith (step atEncLead) (fun t =>
    t.readByte 0 == 0xF0#8 && t.rbits == 18#5 && t.rem == 3#2 && t.cpLatch == 0x1F4AF#32) = true := by decide
theorem test_enc_cont : nextWith (step atEncCont) (fun t =>
    t.readByte 1 == 0x9F#8 && t.rbits == 12#5 && t.rem == 2#2 && t.wrPos == 2#32) = true := by decide
theorem test_enc_out_of_range : nextWith (step { atEncLead with wbuf := [(0, 0xFFFFFF#32)] }) (fun t =>
    t.statusWord == 0xB#32 && t.errCodeWord == 4#32 && t.outLen == 0#32) = true := by decide
theorem test_no_format_raises : nextWith (step { atLead2 with bbuf := [(0, 0xF8#8)] }) (fun t =>
    t.statusWord == 7#32 && t.errCodeWord == 1#32 && t.errPos == 0#32) = true := by decide
theorem test_finish : nextWith (step atEnd) (fun t => t.statusWord == 6#32 && t.outLen == 2#32 && t.doneIrq) = true := by
  decide
theorem test_unmapped_offset : refusedWith (hostAct (.regRead 0x18) inError) .unmappedOffset = true := by decide
theorem test_index_out_of_range : refusedWith (hostAct (.bbufRead 16) State.reset) .indexOutOfRange = true := by decide
theorem test_wait_stays_while_busy : nextWith (step { atCont with inputs := [.wait], sched := [.host] }) (fun t =>
    t.inputs == [.wait] && t.replies == [.word 5#32]) = true := by decide
theorem test_fetch_from_reset : nextWith (step (State.reset.withFetchWord 8 0xC0)) (fun t => t.rdPos == 1#32) = true ∧
    nextWith (step (State.reset.withFetchWord 8 0x80)) (fun t => t.wrPos == 1#32) = true := by decide

/-! ## Witnesses: the hypotheses of each statement are met by a concrete state, clause by clause -/

theorem witness_DecodeOfEncodeIsTheInstruction : (Instr.lead4 0x07#8).wf = true := by decide
theorem witness_EncodeOfDecodeIsTheWord : decode (.unitByte 0xBF#8) = .ok (.cont 0x3F#8) := by decide
theorem witness_LeadingPatternsAreDisjoint : 0xF7#8 &&& romMask .four = romMarker .four ∧
    [LengthClass.four, .three, .two, .one].Perm LengthClass.all := by decide
theorem witness_ByteValuesFallIntoClasses : (atLead2.run = .busy ∧ atLead2.phase = .decLead ∧ atLead2.rdPos ≠ atLead2.nIn ∧
    classify 0xF8#8 = none) ∧ (atCont.run = .busy ∧ atCont.phase = .decCont ∧ 0x80 ≤ (0xBF#8).toNat ∧ (0xBF#8).toNat ≤ 0xBF) ∧
    (0xBF < (0xC0#8).toNat ∧ (0x7F#8).toNat < 0x80) := by decide
theorem witness_StepRunsTheWrittenCommand : (beforeDecode.withFetchWord 32 1).nextAgent = .host ∧
    (beforeDecode.withFetchWord 32 1).inputs = [.act (.regWrite 0x00 1#32)] ∧ decode (.command 1#32) = .ok .decode := by decide
theorem witness_StepRunsTheByteAtRdPos : (atLead2.nextAgent = .core ∧ atLead2.run = .busy ∧ atLead2.phase = .decLead ∧
    atLead2.rdPos ≠ atLead2.nIn ∧ atLead2.rdPos.toNat < atLead2.cfg.bCap ∧
    decode (.unitByte (atLead2.readByte atLead2.rdPos.toNat)) = .ok (.lead2 0x10#8)) ∧
    (atCont.nextAgent = .core ∧ atCont.phase = .decCont ∧
      decode (.unitByte (atCont.readByte atCont.rdPos.toNat)) = .ok (.cont 0x2F#8)) := by decide
theorem witness_StepRunsTheHostAction : State.nextAgent { inError with inputs := [.act (.regRead 0x10)] } = .host := by decide
theorem witness_CmdWriteDispatch : nextWith (step (beforeDecode.withFetchWord 32 1)) (fun t => t.run == .busy) = true ∧
    nextWith (step (inError.withFetchWord 32 0)) (fun t => t.run == .idle) = true ∧
    nextWith (step { inError with inputs := [.reset] }) (fun t => t.run == .idle) = true := by decide
theorem witness_ClearReturnsToIdle : inError.run ≠ .busy ∧ atCont.run = .busy ∧ State.reset.run = .idle ∧
    nextWith (exec .clear inError) (fun _ => true) = true := by decide
theorem witness_ClearReturnsToIdle_inv : Inv beforeDecode ∧ beforeDecode.run = .idle := ⟨by constructor <;> decide, rfl⟩
theorem witness_CommandsStartAtomically : (beforeDecode.run ≠ .busy ∧ State.inLen { beforeDecode with inLen := 16#32 } = 16#32 ∧
    (16#32).toNat ≤ beforeDecode.cfg.bCap ∧ (16#32).toNat ≤ beforeDecode.cfg.wCap) ∧
    (inDone.run ≠ .busy ∧ 4 * (4#32).toNat ≤ inDone.cfg.bCap) := by decide
theorem witness_CommandsRefused : atCont.run = .busy ∧ beforeDecode.run ≠ .busy ∧ beforeDecode.cfg.bCap < (17#32).toNat ∧
    beforeDecode.cfg.bCap < 4 * (5#32).toNat := by decide
theorem witness_HostPortWhileBusy : atCont.run = .busy ∧ atEncLead.run = .busy := by decide
theorem witness_InputExhaustedFinishes : (atEnd.run = .busy ∧ atEnd.phase = .decLead ∧ atEnd.rdPos = atEnd.nIn) ∧
    (atEncLead.run = .busy ∧ atEncLead.phase = .encLead ∧ State.nIn { atEncLead with rdPos := 1#32 } = 1#32) := by decide
theorem witness_Lead1EmitsItsPayload : atLead1.run = .busy ∧ atLead1.phase = .decLead ∧
    atLead1.rdPos.toNat < atLead1.nIn.toNat ∧ atLead1.wrPos.toNat < atLead1.cfg.wCap ∧ Memory.wf atLead1.wbuf = true := by decide
theorem witness_LongLeadsSeedTheAccumulator : atLead2.run = .busy ∧ atLead2.phase = .decLead ∧
    atLead2.rdPos.toNat + 2 ≤ atLead2.nIn.toNat ∧ atLead2.rdPos.toNat + 3 ≤ atLead2.nIn.toNat ∧
    State.rdPos { atFirstCont with rdPos := 0#32 } + 4#32 = atFirstCont.nIn := by decide
theorem witness_ContMergesItsPayload : (atFirstCont.run = .busy ∧ atFirstCont.phase = .decCont ∧ 2 ≤ atFirstCont.rem.toNat) ∧
    (atCont.rem = 1#2 ∧ atCont.wrPos.toNat < atCont.cfg.wCap ∧ Memory.wf atCont.wbuf = true) := by decide
theorem witness_AccumulatorLosesNoBit : Inv atFirstCont ∧ atFirstCont.run = .busy ∧ atFirstCont.phase = .decCont ∧
    isCont (atFirstCont.readByte atFirstCont.rdPos.toNat) = true ∧ nextWith (microstep atFirstCont) (fun _ => true) = true :=
  ⟨atFirstCont_inv, by decide⟩
theorem witness_ShortUnitsRaiseTruncatedSequence : atLead1.run = .busy ∧ atLead1.phase = .decLead ∧ atLead1.rdPos ≠ atLead1.nIn ∧
    classify 0xC2#8 = some .two ∧ atLead1.nIn.toNat < atLead1.rdPos.toNat + 2 ∧ atLead1.rdPos.toNat < atLead1.nIn.toNat := by
  decide
theorem witness_MisplacedBytesRaise : (atLead2.run = .busy ∧ atLead2.phase = .decLead ∧ atLead2.rdPos ≠ atLead2.nIn) ∧
    (atCont.run = .busy ∧ atCont.phase = .decCont) := by decide
theorem witness_DecLeadMicrostep : atLead2.run = .busy ∧ atLead2.phase = .decLead ∧ atLead2.rdPos.toNat < atLead2.cfg.bCap ∧
    atLead2.wrPos.toNat < atLead2.cfg.wCap := by decide
theorem witness_DecContMicrostep : atCont.run = .busy ∧ atCont.phase = .decCont ∧ atCont.rdPos.toNat < atCont.cfg.bCap ∧
    atCont.wrPos.toNat < atCont.cfg.wCap ∧
    0x42F#21 = (atCont.acc <<< 6) ||| contPayload (atCont.readByte atCont.rdPos.toNat) := by decide
theorem witness_EncLeadMicrostep : atEncLead.run = .busy ∧ atEncLead.phase = .encLead ∧
    atEncLead.rdPos.toNat < atEncLead.cfg.wCap ∧ atEncLead.wrPos.toNat < atEncLead.cfg.bCap ∧
    0x1F4AF#32 = atEncLead.readWord atEncLead.rdPos.toNat := by decide
theorem witness_EncContMicrostep : atEncCont.run = .busy ∧ atEncCont.phase = .encCont ∧
    atEncCont.wrPos.toNat < atEncCont.cfg.bCap := by decide
theorem witness_OutputAfterAnError : Memory.wf atLead1.bbuf = true ∧ Memory.wf atLead1.wbuf = true ∧ atLead1.nIn.toNat ≤ 3 ∧
    4 * atEncLead.nIn.toNat ≤ 4 := by decide
theorem witness_ResultsLastUntilCleared : inError.run = .doneErr ∧ inDone.run = .doneOk ∧
    nextWith (step { inDone with inputs := [.act (.regRead 0x0C)] }) (fun t => t.run == .doneOk) = true := by decide
theorem witness_DoneIrqRisesAndFalls : nextWith (step atEnd) (fun t => t.doneIrq && !atEnd.doneIrq) = true ∧
    nextWith (step (inError.withFetchWord 32 0)) (fun t => !t.doneIrq && inError.doneIrq) = true := by decide
theorem witness_RefusedExactlyWhereADutyIsBroken : HostAction.allowed inError (.bbufRead 15) = true ∧
    HostAction.allowed inError (.bbufRead 16) = false ∧ HostAction.allowed atCont (.regWrite 0x08 2#32) = false := by decide
theorem witness_UnmappedAndReadOnlyRegisters : 0x18 ∉ [0x00, 0x04, 0x08, 0x0C, 0x10, 0x14] ∧ 0x14 ∈ [0x04, 0x0C, 0x10, 0x14] := by
  decide
theorem witness_InLenIsTheHosts : inDone.run ≠ .busy ∧ nextWith (microstep atCont) (fun _ => true) = true ∧
    nextWith (exec .decode beforeDecode) (fun _ => true) = true := by decide
theorem witness_BufferAccessesWhileNotBusy : inDone.run ≠ .busy ∧ 15 < inDone.cfg.bCap ∧ 15 < inDone.cfg.wCap ∧
    Memory.wf inDone.bbuf = true ∧ Memory.wf inDone.wbuf = true ∧ inDone.cfg.bCap ≤ 16 ∧ inDone.cfg.wCap ≤ 16 := by decide
theorem witness_MicrostepsReadInputBelowNInOnly : (Inv atCont ∧ atCont.run = .busy ∧ atCont.phase = .decCont ∧
    nextWith (microstep atCont) (fun _ => true) = true ∧ ∀ j, j < atCont.nIn.toNat → Memory.read (atCont.bbuf ++ [(9, 1#8)]) j =
      atCont.readByte j) ∧ (Inv atEncLead ∧ atEncLead.phase = .encLead ∧ ∀ j, j < atEncLead.nIn.toNat →
      Memory.read (atEncLead.wbuf ++ [(9, 1#32)]) j = atEncLead.readWord j) :=
  ⟨⟨atCont_inv, by decide⟩, atEncLead_inv, by decide⟩
theorem witness_OutputIsWrittenInOrder : Inv atLead1 ∧ atLead1.run = .busy ∧
    nextWith (microstep atLead1) (fun t => t.run != .doneErr) = true ∧
    Inv atEncCont ∧ nextWith (microstep atEncCont) (fun t => t.run != .doneErr) = true :=
  ⟨atLead1_inv, by decide, by decide, atEncCont_inv, by decide⟩
theorem witness_BuffersBelongToOneAgent : State.nextAgent { atCont with inputs := [.act (.regRead 4)], sched := [.host] } = .host ∧
    nextWith (step { atCont with inputs := [.act (.regRead 4)], sched := [.host] }) (fun _ => true) = true := by decide
theorem witness_WritesAfterCompletion : inDone.run = .doneOk ∧ inError.run = .doneErr ∧ 15 < inDone.cfg.bCap := by decide
theorem witness_ResetInputClearsTheRegisters :
    State.nextAgent { atCont with inputs := [.reset], sched := [.host] } = .host ∧
    State.nextAgent { inError with inputs := [.reset] } = .host := by decide
theorem witness_ChecksWithinAUnit : classify 0xFF#8 = none ∧ classify 0xE0#8 = some .three ∧
    [0xE0#8, 0x41#8].length < LengthClass.three.len ∧ [0xE2#8, 0x82#8, 0x41#8][2]? = some 0x41#8 ∧ isCont 0x41#8 = false ∧
    isCont 0x82#8 = true := by decide
theorem witness_FirstErrorInInputOrder : decodeFn [0xC3#8, 0xA9#8] = .ok [0xE9#32] ∧ encodeFn [0xE9#32] = .ok [0xC3#8, 0xA9#8] := by
  decide
theorem witness_DecoderSpellsPayloadBits : classify 0x7F#8 = some .one ∧ classify 0xC0#8 = some .two ∧
    classify 0xED#8 = some .three ∧ classify 0xF7#8 = some .four ∧ isCont 0x80#8 = true ∧ isCont 0xBF#8 = true := by decide
theorem witness_DecodedValuesFitTheirClass : decodeFn [0xF7#8, 0xBF#8, 0xBF#8, 0xBF#8] = .ok [0x1FFFFF#32] ∧
    (takeConts 1 [0xBF#8] 1 (leadPayload 0xDF#8 .two)).toOption = some (0x7FF#21, []) := by decide
theorem witness_DecodeOutputCount : decodeFn [0x41#8, 0xC2#8, 0x80#8] = .ok [0x41#32, 0x80#32] := by decide
theorem witness_ByteRoundTrip : decodeFn [0xD0#8, 0xAF#8, 0x20#8] = .ok [0x42F#32, 0x20#32] ∧
    (decodeFn [0xC0#8, 0x80#8] = .ok [0#32] ∧ [0#32].map magClass ≠ (unitClasses [0xC0#8, 0x80#8]).map some) ∧
    decodeFn [0xF4#8, 0x90#8, 0x80#8, 0x80#8] = .ok [0x110000#32] := by decide
theorem witness_EncoderIsMinimal : encodeFn [0x800#32] = .ok [0xE0#8, 0xA0#8, 0x80#8] ∧
    decodeFn [0xF0#8, 0x80#8, 0xA0#8, 0x80#8] = .ok [0x800#32] := by decide
theorem witness_CodePointRoundTrip : ∀ cp ∈ [0x10FFFF#32, 0xD800#32, 0#32], cp.toNat ≤ 0x10FFFF := by simp
theorem witness_EncoderRejectsOnlyLargeValues : (0x10FFFF#32).toNat ≤ 0x10FFFF ∧ 0x10FFFF < (0x110000#32).toNat ∧
    0xD800 ≤ (0xDFFF#32).toNat ∧ (0xDFFF#32).toNat ≤ 0xDFFF := by decide
theorem witness_EncodeOutputCount : encodeFn [0x10FFFF#32, 0#32] = .ok [0xF4#8, 0x8F#8, 0xBF#8, 0xBF#8, 0x00#8] := by decide
theorem witness_DecodeComputesDecodeFn : beforeDecode.run ≠ .busy ∧ Memory.wf beforeDecode.wbuf = true ∧
    beforeDecode.inLen.toNat ≤ beforeDecode.cfg.bCap ∧ beforeDecode.inLen.toNat ≤ beforeDecode.cfg.wCap ∧
    beforeDecode.inputs = [] := by decide
theorem witness_EncodeComputesEncodeFn : State.run { inDone with inLen := 4#32 } ≠ .busy ∧ Memory.wf inDone.bbuf = true ∧
    (4#32).toNat ≤ inDone.cfg.wCap ∧ 4 * (4#32).toNat ≤ inDone.cfg.bCap ∧ inDone.cfg.valid = true ∧ inDone.sched = [] := by decide
theorem witness_StepKeepsTheInvariant : Inv atCont ∧ nextWith (step atCont) (fun _ => true) = true := ⟨atCont_inv, by decide⟩
theorem witness_SequencerNeverSticks : Inv atEncCont ∧ atEncCont.run = .busy ∧ inDone.run ≠ .busy := ⟨atEncCont_inv, by decide⟩
theorem witness_ParametersAndLastOp : nextWith (step (beforeDecode.withFetchWord 32 1)) (fun t => t.lastOp != beforeDecode.lastOp) =
    true := by decide
theorem witness_StartedOperationNeverReadsIdle : nextWith (exec .encode inDone) (fun t =>
    nextWith (Host.Core.run Sys2Proof.core 1 t) (fun _ => true)) = true ∧ inDone.inputs = [] := by decide
theorem witness_HiddenRegistersAreUnobservable : beforeDecode.run ≠ .busy ∧
    beforeDecode.visible = State.visible { beforeDecode with acc := 5#21, rem := 2#2, wrPos := 7#32, phase := .encCont } := by decide
theorem witness_WaitReadsStatusUntilNotBusy : State.nextAgent { atCont with inputs := [.wait], sched := [.host] } = .host ∧
    State.nextAgent { inDone with inputs := [.wait] } = .host := by decide

end Sys2Proof.Tests
end

section
/-! PROOFS. The machine's invariant and what a step keeps (O55, O57). Every step is one of the outcomes that
Laws/Ops.lean lists; here each outcome is shown to keep `Inv`, by the field of the state it touches. -/
namespace Sys2Proof.Machine

variable {s t : State}

/-! ## Frames: what a turn leaves of the operation's registers -/

/-- The registers that name the operation and hold its result are as before. -/
structure SameOperation (s t : State) : Prop where
  cfg : t.cfg = s.cfg
  run : t.run = s.run
  lastOp : t.lastOp = s.lastOp
  nIn : t.nIn = s.nIn
  outLen : t.outLen = s.outLen
  errCode : t.errCode = s.errCode
  errPos : t.errPos = s.errPos

theorem seedUnit_sameOperation {k : LengthClass} {x : Byte} (h : seedUnit k x s = .next t) : SameOperation s t := by
  rcases seedUnit_next h with ⟨-, -, rfl⟩ | ⟨-, rfl⟩ <;> constructor <;> rfl

theorem mergeUnit_sameOperation {x : Byte} (h : mergeUnit x s = .next t) : SameOperation s t := by
  rcases mergeUnit_next h with ⟨-, -, rfl⟩ | ⟨-, rfl⟩ <;> constructor <;> rfl

theorem placeLead_sameOperation (k : LengthClass) (cp : Word) (s : State) : SameOperation s (placeLead k cp s) := by
  constructor <;> simp

theorem placeCont_sameOperation (s : State) : SameOperation s (placeCont s) := by
  constructor <;> rfl

/-- A microstep finishes the operation, raises an error at `rd_pos`, or goes on with the same operation. -/
theorem microstep_finishes_raises_or_continues (h : microstep s = .next t) :
    t = s.finishOk s.wrPos ∨ (∃ op e, t = s.raise op e s.rdPos) ∨ SameOperation s t := by
  rcases microstep_next h with ⟨-, rfl⟩ | ⟨-, -, -, rfl⟩ | ⟨-, -, -, -, h⟩ | ⟨-, -, -, h⟩ | ⟨-, -, h⟩ | ⟨-, -, h⟩
  · exact .inr (.inr ⟨rfl, rfl, rfl, rfl, rfl, rfl, rfl⟩)
  · exact .inl rfl
  · rcases decLeadStep_next h with ⟨-, rfl⟩ | ⟨-, -, rfl⟩ | ⟨k, -, -, -, rfl⟩ | ⟨k, -, -, -, hseed⟩
    · exact .inl rfl
    · exact .inr (.inl ⟨_, _, rfl⟩)
    · exact .inr (.inl ⟨_, _, rfl⟩)
    · exact .inr (.inr (seedUnit_sameOperation hseed))
  · rcases decContStep_next h with ⟨-, rfl⟩ | ⟨-, h⟩
    · exact .inr (.inl ⟨_, _, rfl⟩)
    · exact .inr (.inr (mergeUnit_sameOperation h))
  · rcases encLeadStep_next h with ⟨-, rfl⟩ | ⟨-, -, -, rfl⟩ | ⟨k, -, -, -, -, rfl⟩
    · exact .inl rfl
    · exact .inr (.inl ⟨_, _, rfl⟩)
    · exact .inr (.inr (placeLead_sameOperation k _ s))
  · obtain ⟨-, rfl⟩ := encContStep_next h
    exact .inr (.inr (placeCont_sameOperation s))

theorem microstep_keeps_cfg_and_lastOp (h : microstep s = .next t) : t.cfg = s.cfg ∧ t.lastOp = s.lastOp := by
  rcases microstep_finishes_raises_or_continues h with rfl | ⟨op, e, rfl⟩ | hs
  · exact ⟨rfl, rfl⟩
  · simp
  · exact ⟨hs.cfg, hs.lastOp⟩

/-- A host action keeps the parameters, and LASTOP unless it is a CMD write of CLEAR, DECODE or ENCODE. -/
theorem hostAct_cfg_and_lastOp {a : HostAction} (h : hostAct a s = .next t) :
    t.cfg = s.cfg ∧ (t.lastOp = s.lastOp ∨ ∃ w : Word, a = .regWrite 0 w ∧ w.toNat ≤ 2) := by
  rcases hostAct_next h with
    rfl | ⟨r, rfl⟩ | ⟨-, v, rfl⟩ | ⟨-, i, v, -, rfl⟩ | ⟨-, i, v, -, rfl⟩ | ⟨-, rfl, rfl⟩ | ⟨-, op, rfl, -, rfl⟩
  case inr.inr.inr.inr.inr.inl => exact ⟨rfl, .inr ⟨_, rfl, by decide⟩⟩
  case inr.inr.inr.inr.inr.inr => exact ⟨rfl, .inr ⟨_, rfl, by cases op <;> decide⟩⟩
  all_goals exact ⟨rfl, .inl rfl⟩

theorem hostTurn_cfg_and_lastOp (h : hostTurn s = .next t) :
    t.cfg = s.cfg ∧
      (t.lastOp = s.lastOp ∨ (∃ w rest, s.inputs = .act (.regWrite 0 w) :: rest ∧ w.toNat ≤ 2) ∨
        ∃ rest, s.inputs = .reset :: rest) := by
  rcases hostTurn_next h with ⟨-, rfl⟩ | ⟨a, rest, hin, h⟩ | ⟨rest, -, rfl⟩ | ⟨rest, hin, rfl⟩
  · exact ⟨rfl, .inl rfl⟩
  · obtain ⟨hcfg, hlast | ⟨w, rfl, hw⟩⟩ := hostAct_cfg_and_lastOp h
    · exact ⟨hcfg, .inl hlast⟩
    · exact ⟨hcfg, .inr (.inl ⟨w, rest, hin, hw⟩)⟩
  · obtain ⟨inputs, replies, heq⟩ := waitTurn_eq rest s
    rw [heq]
    exact ⟨rfl, .inl rfl⟩
  · exact ⟨rfl, .inr (.inr ⟨rest, hin⟩)⟩

/-- Settles O57: a microstep keeps the parameters and LASTOP, and a turn of the outside changes LASTOP only by a command
or the reset input. -/
theorem parametersAndLastOp : Obligations.ParametersAndLastOp := by
  intro s t h
  rcases step_next h with ⟨-, h⟩ | ⟨-, h⟩
  · obtain ⟨hcfg, hlast⟩ := hostTurn_cfg_and_lastOp h
    simp only [State.afterTurn_cfg, State.afterTurn_lastOp, State.afterTurn_inputs] at hcfg hlast
    exact ⟨hcfg, hlast.resolve_left⟩
  · obtain ⟨hcfg, hlast⟩ := microstep_keeps_cfg_and_lastOp h
    simp only [State.afterTurn_cfg, State.afterTurn_lastOp] at hcfg hlast
    exact ⟨hcfg, fun hne => absurd hlast hne⟩

/-! ## The buffers -/

theorem BuffersOk.writeByte (h : BuffersOk s) {i : Nat} (hi : i < s.cfg.bCap) (v : Byte) :
    BuffersOk (s.writeByte i v) := by
  obtain ⟨hcfg, hb, hw, hbIn, hwIn⟩ := h
  exact ⟨hcfg, Memory.wf_write hb i v, hw, Memory.within_write hbIn hi v, hwIn⟩

theorem BuffersOk.writeWord (h : BuffersOk s) {i : Nat} (hi : i < s.cfg.wCap) (v : Word) :
    BuffersOk (s.writeWord i v) := by
  obtain ⟨hcfg, hb, hw, hbIn, hwIn⟩ := h
  exact ⟨hcfg, hb, Memory.wf_write hw i v, hbIn, Memory.within_write hwIn hi v⟩

theorem BuffersOk.dropOutput (h : BuffersOk s) (op : Op) : BuffersOk (s.dropOutput op) := by
  obtain ⟨hcfg, hb, hw, hbIn, hwIn⟩ := h
  cases op with
  | decode => exact ⟨hcfg, hb, Memory.wf_fill _ _ hw, hbIn, Memory.within_fill _ (Nat.min_le_right ..) hwIn⟩
  | encode => exact ⟨hcfg, Memory.wf_fill _ _ hb, hw, Memory.within_fill _ (Nat.min_le_right ..) hbIn, hwIn⟩

theorem BuffersOk.raise (h : BuffersOk s) (op : Op) (e : CoreError) (pos : Word) :
    BuffersOk (s.raise op e pos) := by
  cases op <;> exact h.dropOutput _

theorem BuffersOk.resetInput (h : BuffersOk s) : BuffersOk s.resetInput :=
  ⟨h.1, Memory.wf_fill _ _ rfl, Memory.wf_fill _ _ rfl, Memory.within_fill _ le_rfl rfl,
    Memory.within_fill _ le_rfl rfl⟩

/-- R6's upper end of B_CAP: an index of BBUF fits a 32-bit position. -/
theorem BuffersOk.bCap_lt (h : BuffersOk s) : s.cfg.bCap < 2 ^ 32 := by
  have hcfg := h.1
  simp only [Config.valid, Bool.and_eq_true, decide_eq_true_eq] at hcfg
  omega

/-! ## Showing the invariant of a state -/

/-- While no operation runs, the clauses about the sequencer say nothing. -/
theorem Inv.of_not_busy (hrun : s.run ≠ .busy) (hbuf : BuffersOk s) (hres : ResultOk s) (hout : OutcomeOk s) :
    Inv s where
  buffers := hbuf
  result := hres
  outcome := hout
  capacity := ⟨fun hb => absurd hb hrun, fun hb => absurd hb hrun⟩
  decLead hb := absurd hb hrun
  decCont hb := absurd hb hrun
  encLead hb := absurd hb hrun
  encCont hb := absurd hb hrun

/-- The clause of `Inv` about the sequencer in one phase. -/
def PhaseOk (s : State) : Phase → Prop
  | .decLead => DecLeadOk s
  | .decCont => DecContOk s
  | .encLead => EncLeadOk s
  | .encCont => EncContOk s

/-- A running operation goes on: the clause of the phase it is in now is all that is left to show. -/
theorem Inv.of_sameOperation (h : Inv s) (same : SameOperation s t) (hrun : s.run = .busy) (hbuf : BuffersOk t)
    (hphase : PhaseOk t t.phase) : Inv t where
  buffers := hbuf
  result := by
    simpa only [ResultOk, same.run, same.lastOp, same.nIn, same.outLen, same.errCode, same.errPos] using h.result
  outcome := by simp [OutcomeOk, same.run, hrun]
  capacity := by simpa only [CapacityOk, same.run, same.lastOp, same.nIn, same.cfg] using h.capacity
  decLead hb hp := by rw [hp] at hphase; exact hphase hb hp
  decCont hb hp := by rw [hp] at hphase; exact hphase hb hp
  encLead hb hp := by rw [hp] at hphase; exact hphase hb hp
  encCont hb hp := by rw [hp] at hphase; exact hphase hb hp

/-! ## The host's turn -/

/-- `Inv` says nothing of IN_LEN and the outside. -/
theorem Inv.of_outside (h : Inv s) (inLen : Word) (inputs : List Input) (replies : List Reply) (sched : List Agent) :
    Inv { s with inLen := inLen, inputs := inputs, replies := replies, sched := sched } :=
  ⟨h.buffers, h.result, h.outcome, h.capacity, h.decLead, h.decCont, h.encLead, h.encCont⟩

theorem Inv.after_writeByte (h : Inv s) {i : Nat} (hi : i < s.cfg.bCap) (v : Byte) : Inv (s.writeByte i v) :=
  ⟨h.buffers.writeByte hi v, h.result, h.outcome, h.capacity, h.decLead, h.decCont, h.encLead, h.encCont⟩

theorem Inv.after_writeWord (h : Inv s) {i : Nat} (hi : i < s.cfg.wCap) (v : Word) : Inv (s.writeWord i v) :=
  ⟨h.buffers.writeWord hi v, h.result, h.outcome, h.capacity, h.decLead, h.decCont, h.encLead, h.encCont⟩

theorem Inv.after_clearResult (h : Inv s) : Inv s.clearResult :=
  .of_not_busy (by simp) h.buffers (by simp [ResultOk]) (by simp [OutcomeOk])

theorem Inv.after_resetInput (h : Inv s) : Inv s.resetInput :=
  .of_not_busy (by simp) h.buffers.resetInput (by simp [ResultOk]) (by simp [OutcomeOk])

/-- R184: the capacity precondition is what the sequencer's clauses need at the start, where every position is 0. -/
theorem Inv.after_start (h : Inv s) {op : Op} (hfits : s.fits op = true) : Inv (s.start op) := by
  have hbuf : BuffersOk (s.start op) := h.buffers
  cases op with
  | decode | encode =>
    simp only [State.fits, Bool.and_eq_true, decide_eq_true_eq] at hfits
    exact ⟨hbuf, by simp [ResultOk], by simp [OutcomeOk], by simp [CapacityOk, hfits], by simp [DecLeadOk],
      by simp [DecContOk], by simp [EncLeadOk], by simp [EncContOk]⟩

theorem Inv.after_hostAct {a : HostAction} (hs : Inv s) (h : hostAct a s = .next t) : Inv t := by
  rcases hostAct_next h with
    rfl | ⟨r, rfl⟩ | ⟨-, v, rfl⟩ | ⟨-, i, v, hi, rfl⟩ | ⟨-, i, v, hi, rfl⟩ | ⟨-, -, rfl⟩ | ⟨-, op, -, hfits, rfl⟩
  · exact hs
  · exact hs.of_outside _ _ _ _
  · exact hs.of_outside _ _ _ _
  · exact hs.after_writeByte hi v
  · exact hs.after_writeWord hi v
  · exact hs.after_clearResult
  · exact hs.after_start hfits

theorem Inv.after_hostTurn (hs : Inv s) (h : hostTurn s = .next t) : Inv t := by
  rcases hostTurn_next h with ⟨-, rfl⟩ | ⟨a, rest, -, h⟩ | ⟨rest, -, rfl⟩ | ⟨rest, -, rfl⟩
  · exact hs
  · exact (hs.of_outside _ rest _ _).after_hostAct h
  · obtain ⟨inputs, replies, heq⟩ := waitTurn_eq rest s
    rw [heq]
    exact hs.of_outside _ _ _ _
  · exact (hs.of_outside _ rest _ _).after_resetInput

/-! ## Completing an operation -/

theorem Inv.after_finishOk (h : Inv s) (hrun : s.run = .busy) {n : Word}
    (hdec : s.lastOp = some .decode → n.toNat ≤ s.nIn.toNat)
    (henc : s.lastOp = some .encode → s.nIn.toNat ≤ n.toNat ∧ n.toNat ≤ 4 * s.nIn.toNat) : Inv (s.finishOk n) := by
  obtain ⟨-, herr, -, hidle⟩ := h.result
  refine .of_not_busy (by simp) h.buffers ?_ ?_
  · simpa [ResultOk, hrun] using And.intro (herr (by simp [hrun])) hidle
  · simpa [OutcomeOk] using And.intro hdec henc

/-- DEC_LEAD at the end of the input (R112). -/
theorem Inv.after_finishOk_decode (h : Inv s) (hrun : s.run = .busy) (hphase : s.phase = .decLead)
    (heq : s.rdPos = s.nIn) : Inv (s.finishOk s.wrPos) := by
  obtain ⟨hlast, -, hwr⟩ := h.decLead hrun hphase
  exact h.after_finishOk hrun (fun _ => heq ▸ hwr) (by simp [hlast])

/-- R204, R207: an error of its own operation, at an input element. -/
theorem Inv.after_raise (h : Inv s) {op : Op} {e : CoreError} {pos : Word}
    (hop : s.lastOp = some op) (he : e = .codePointOutOfRange ↔ op = .encode) (hpos : pos.toNat < s.nIn.toNat) :
    Inv (s.raise op e pos) := by
  refine .of_not_busy (by simp) (h.buffers.raise op e pos) ?_ ?_
  · simp [ResultOk, hop, hpos]
  · cases op <;> simp_all [OutcomeOk]

/-! ## Payloads and the accumulator (R104 to R107) -/

/-- A leading byte's payload is no wider than LEADBITS of its class. -/
theorem bytePayload_lt_of_lead {b : Byte} {k : LengthClass} (h : byteRole b = .lead k) :
    (bytePayload b).toNat < 2 ^ romLeadBits k := by
  have hmask : (~~~romMask k).toNat < 2 ^ romLeadBits k := by cases k <;> decide
  simp only [bytePayload, h, BitVec.toNat_and]
  exact Nat.and_le_right.trans_lt hmask

/-- A continuation byte's payload is six bits wide. -/
theorem bytePayload_lt_of_cont {b : Byte} (h : byteRole b = .cont) : (bytePayload b).toNat < 2 ^ contBits := by
  have hmask : (~~~contMask).toNat < 2 ^ contBits := by decide
  simp only [bytePayload, h, BitVec.toNat_and]
  exact Nat.and_le_right.trans_lt hmask

/-- A seed leaves room for the payloads of its unit's continuation bytes. -/
theorem accSeed_lt {k : LengthClass} {x : Byte} (hx : x.toNat < 2 ^ romLeadBits k) :
    (accSeed x).toNat < 2 ^ (21 - 6 * (k.len - 1)) := by
  have hroom : 2 ^ romLeadBits k ≤ 2 ^ (21 - 6 * (k.len - 1)) := by cases k <;> decide
  have hle : (accSeed x).toNat ≤ x.toNat := by simpa [accSeed] using Nat.mod_le ..
  omega

/-- A merge uses up the room of one payload and shifts no bit out. -/
theorem accMerge_lt {acc : AccWord} {x : Byte} {r : Nat} (hr : 1 ≤ r) (hr3 : r ≤ 3)
    (hacc : acc.toNat < 2 ^ (21 - 6 * r)) (hx : x.toNat < 2 ^ contBits) : (accMerge acc x).toNat < 2 ^ (21 - 6 * (r - 1)) := by
  have hexp : 21 - 6 * (r - 1) = 21 - 6 * r + contBits := by simp only [contBits]; omega
  have hshift : acc.toNat <<< contBits < 2 ^ (21 - 6 * r + contBits) := by
    rw [Nat.shiftLeft_eq, Nat.pow_add]
    exact Nat.mul_lt_mul_of_pos_right hacc (by decide)
  rw [hexp, accMerge, BitVec.toNat_or, BitVec.toNat_shiftLeft, BitVec.toNat_setWidth]
  refine Nat.or_lt_two_pow ((Nat.mod_le ..).trans_lt hshift) ((Nat.mod_le ..).trans_lt (hx.trans_le ?_))
  exact Nat.pow_le_pow_right (by decide) (Nat.le_add_left ..)

/-! ## The microsteps

A position or a count moves by one, and the invariant's bounds keep it from wrapping (R9). -/

theorem toNat_add_one {v : Word} {n : Nat} (hv : v.toNat < n) (hn : n < 2 ^ 32) : (v + 1#32).toNat = v.toNat + 1 :=
  BitVec.toNat_add_of_lt (by simp only [BitVec.toNat_ofNat]; omega)

theorem rem_sub_one_toNat {r : BitVec 2} (hr : 1 ≤ r.toNat) : (r - 1#2).toNat = r.toNat - 1 :=
  BitVec.toNat_sub_of_le (by simpa [BitVec.le_def] using hr)

theorem Inv.after_seedUnit {k : LengthClass} {x : Byte} (hs : Inv s) (hrun : s.run = .busy)
    (hphase : s.phase = .decLead) (hlen : s.rdPos.toNat + k.len ≤ s.nIn.toNat) (hx : x.toNat < 2 ^ romLeadBits k)
    (h : seedUnit k x s = .next t) : Inv t := by
  obtain ⟨hlast, hrd, hwr⟩ := hs.decLead hrun hphase
  have hk : 1 ≤ k.len := by cases k <;> decide
  have hrd1 := toNat_add_one (v := s.rdPos) (n := s.nIn.toNat) (by omega) s.nIn.isLt
  have same := seedUnit_sameOperation h
  rcases seedUnit_next h with ⟨rfl, hcap, rfl⟩ | ⟨hne, rfl⟩
  · have hwr1 := toNat_add_one (v := s.wrPos) (n := s.nIn.toNat) (by omega) s.nIn.isLt
    refine hs.of_sameOperation same hrun (hs.buffers.writeWord hcap _) ?_
    simp only [State.writeWord_phase, hphase]
    refine fun _ _ => ⟨hlast, ?_, ?_⟩
    · simp only [State.writeWord_nIn, hrd1]; omega
    · simp only [hwr1, hrd1]; omega
  · have hrem : (BitVec.ofNat 2 (k.len - 1)).toNat = k.len - 1 := by cases k <;> decide
    have hlen2 : 2 ≤ k.len := by cases k <;> simp_all [LengthClass.len]
    refine hs.of_sameOperation same hrun hs.buffers fun _ _ => ⟨hlast, ?_, ?_, ?_, ?_⟩
    · simp only [hrem]; omega
    · simp only [hrem, hrd1]; omega
    · simp only [hrd1]; omega
    · simp only [hrem]; exact accSeed_lt hx

theorem Inv.after_mergeUnit {x : Byte} (hs : Inv s) (hrun : s.run = .busy) (hphase : s.phase = .decCont)
    (hx : x.toNat < 2 ^ contBits) (h : mergeUnit x s = .next t) : Inv t := by
  obtain ⟨hlast, hrem, hrd, hwr, hacc⟩ := hs.decCont hrun hphase
  have hrd1 := toNat_add_one (v := s.rdPos) (n := s.nIn.toNat) (by omega) s.nIn.isLt
  have hrem1 := rem_sub_one_toNat hrem
  have same := mergeUnit_sameOperation h
  rcases mergeUnit_next h with ⟨-, hcap, rfl⟩ | ⟨hne, rfl⟩
  · have hwr1 := toNat_add_one (v := s.wrPos) (n := s.nIn.toNat) (by omega) s.nIn.isLt
    refine hs.of_sameOperation same hrun (hs.buffers.writeWord hcap _) fun _ _ => ⟨hlast, ?_, ?_⟩
    · simp only [State.writeWord_nIn, hrd1]; omega
    · simp only [hwr1, hrd1]; omega
  · have hrem0 : (s.rem - 1#2).toNat ≠ 0 := BitVec.toNat_ne.mp hne
    refine hs.of_sameOperation same hrun hs.buffers ?_
    simp only [hphase]
    refine fun _ _ => ⟨hlast, ?_, ?_, ?_, ?_⟩
    · simp only; omega
    · simp only [hrd1]; omega
    · simp only [hrd1]; omega
    · simp only [hrem1]; exact accMerge_lt hrem (by omega) hacc hx

/-- R112, R205: DEC_LEAD on the byte at `rd_pos`. -/
theorem Inv.after_decLeadStep {b : Byte} (hs : Inv s) (hrun : s.run = .busy) (hphase : s.phase = .decLead)
    (h : decLeadStep (byteRole b) (bytePayload b) s = .next t) : Inv t := by
  obtain ⟨hlast, hrd, hwr⟩ := hs.decLead hrun hphase
  have hpos (hne : s.rdPos ≠ s.nIn) : s.rdPos.toNat < s.nIn.toNat := Nat.lt_of_le_of_ne hrd (BitVec.toNat_ne.mp hne)
  rcases decLeadStep_next h with ⟨heq, rfl⟩ | ⟨hne, -, rfl⟩ | ⟨k, -, hne, -, rfl⟩ | ⟨k, hrole, -, hlen, hseed⟩
  · exact hs.after_finishOk_decode hrun hphase heq
  · exact hs.after_raise hlast (by decide) (hpos hne)
  · exact hs.after_raise hlast (by decide) (hpos hne)
  · exact hs.after_seedUnit hrun hphase hlen (bytePayload_lt_of_lead hrole) hseed

/-- R113: DEC_CONT on the byte at `rd_pos`. -/
theorem Inv.after_decContStep {b : Byte} (hs : Inv s) (hrun : s.run = .busy) (hphase : s.phase = .decCont)
    (h : decContStep (byteRole b) (bytePayload b) s = .next t) : Inv t := by
  obtain ⟨hlast, hrem, hrd, -⟩ := hs.decCont hrun hphase
  rcases decContStep_next h with ⟨-, rfl⟩ | ⟨hrole, hmerge⟩
  · exact hs.after_raise hlast (by decide) (by omega)
  · exact hs.after_mergeUnit hrun hphase (bytePayload_lt_of_cont hrole) hmerge

/-- A word of some magnitude class is at most the last MAXCP (R141). -/
theorem magClass_le {cp : Word} {k : LengthClass} (h : magClass cp = some k) : cp.toNat ≤ 0x10FFFF := by
  have hle : cp.toNat ≤ (romMaxCp k).toNat := by simpa using List.find?_some (p := fun k => decide _) h
  have hmax : (romMaxCp k).toNat ≤ 0x10FFFF := by cases k <;> decide
  omega

theorem placeLead_of_ne_one {k : LengthClass} (hk : k ≠ .one) (cp : Word) (s : State) :
    placeLead k cp s =
      { s.writeByte s.wrPos.toNat (packLead k cp) with
        wrPos := s.wrPos + 1#32, cpLatch := cp, rbits := BitVec.ofNat 5 (remainingBits k),
        rem := BitVec.ofNat 2 (k.len - 1), phase := .encCont } := by
  cases k with
  | one => exact absurd rfl hk
  | two | three | four => rfl

theorem Inv.after_placeLead {k : LengthClass} {cp : Word} (hs : Inv s) (hrun : s.run = .busy)
    (hphase : s.phase = .encLead) (hne : s.rdPos ≠ s.nIn) (hcap : s.wrPos.toNat < s.cfg.bCap) (hcp : cp.toNat ≤ 0x10FFFF) :
    Inv (placeLead k cp s) := by
  obtain ⟨hlast, hrd, hlo, hhi⟩ := hs.encLead hrun hphase
  have hrdlt : s.rdPos.toNat < s.nIn.toNat := Nat.lt_of_le_of_ne hrd (BitVec.toNat_ne.mp hne)
  have hwr1 := toNat_add_one hcap hs.buffers.bCap_lt
  have same := placeLead_sameOperation k cp s
  by_cases hk : k = .one
  · subst hk
    have hrd1 := toNat_add_one hrdlt s.nIn.isLt
    refine hs.of_sameOperation same hrun (hs.buffers.writeByte hcap _) ?_
    simp only [placeLead_one_phase, hphase]
    refine fun _ _ => ⟨hlast, ?_, ?_, ?_⟩
    · simp only [placeLead_one_rdPos, placeLead_nIn, hrd1]; omega
    · simp only [placeLead_one_rdPos, placeLead_wrPos, hrd1, hwr1]; omega
    · simp only [placeLead_one_rdPos, placeLead_wrPos, hrd1, hwr1]; omega
  · rw [placeLead_of_ne_one hk] at same ⊢
    have hrem : (BitVec.ofNat 2 (k.len - 1)).toNat = k.len - 1 := by cases k <;> decide
    have hrbits : (BitVec.ofNat 5 (remainingBits k)).toNat = 6 * (k.len - 1) := by cases k <;> decide
    have hlen : 2 ≤ k.len ∧ k.len ≤ 4 := by cases k <;> simp_all [LengthClass.len]
    refine hs.of_sameOperation same hrun (hs.buffers.writeByte hcap _) fun _ _ => ⟨hlast, ?_, ?_, ?_, ?_, ?_, hcp⟩
    · simp only [State.writeByte_rdPos, State.writeByte_nIn]; omega
    · simp only [hrem]; omega
    · simp only [hrem, hrbits]
    · simp only [State.writeByte_rdPos, hwr1]; omega
    · simp only [State.writeByte_rdPos, hwr1, hrem]; omega

theorem Inv.after_placeCont (hs : Inv s) (hrun : s.run = .busy) (hphase : s.phase = .encCont)
    (hcap : s.wrPos.toNat < s.cfg.bCap) : Inv (placeCont s) := by
  obtain ⟨hlast, hrd, hrem, hrbits, hlo, hhi, hcp⟩ := hs.encCont hrun hphase
  have hwr1 := toNat_add_one hcap hs.buffers.bCap_lt
  have hrem1 := rem_sub_one_toNat hrem
  refine hs.of_sameOperation (placeCont_sameOperation s) hrun (hs.buffers.writeByte hcap _) ?_
  by_cases hlastByte : s.rem - 1#2 = 0#2
  · have hrd1 := toNat_add_one hrd s.nIn.isLt
    have hremOne : s.rem.toNat - 1 = 0 := by rw [← hrem1, hlastByte]; rfl
    simp only [placeCont_phase, hlastByte, if_true]
    refine fun _ _ => ⟨hlast, ?_, ?_, ?_⟩
    · simp only [placeCont_rdPos, placeCont_nIn, hlastByte, if_true, hrd1]; omega
    · simp only [placeCont_rdPos, placeCont_wrPos, hlastByte, if_true, hrd1, hwr1]; omega
    · simp only [placeCont_rdPos, placeCont_wrPos, hlastByte, if_true, hrd1, hwr1]; omega
  · have hrem0 : (s.rem - 1#2).toNat ≠ 0 := BitVec.toNat_ne.mp hlastByte
    have hrbits1 : (s.rbits - 6#5).toNat = s.rbits.toNat - 6 :=
      BitVec.toNat_sub_of_le (by simp only [BitVec.le_def, BitVec.toNat_ofNat]; omega)
    have hrdSame : (placeCont s).rdPos = s.rdPos := by simp only [placeCont_rdPos, hlastByte, if_false]
    simp only [placeCont_phase, hlastByte, if_false, hphase]
    refine fun _ _ => ⟨hlast, ?_, ?_, ?_, ?_, ?_, hcp⟩
    · rwa [hrdSame]
    · simp only [placeCont_rem]; omega
    · simp only [placeCont_rem, placeCont_rbits, hrem1, hrbits1]; omega
    · simp only [hrdSame, placeCont_wrPos, hwr1]; omega
    · simp only [hrdSame, placeCont_wrPos, placeCont_rem, hwr1, hrem1]; omega

/-- R148: ENC_LEAD on the word at `rd_pos`. -/
theorem Inv.after_encLeadStep (hs : Inv s) (hrun : s.run = .busy) (hphase : s.phase = .encLead)
    (h : encLeadStep s = .next t) : Inv t := by
  obtain ⟨hlast, hrd, hlo, hhi⟩ := hs.encLead hrun hphase
  rcases encLeadStep_next h with ⟨heq, rfl⟩ | ⟨hne, -, -, rfl⟩ | ⟨k, hne, -, hmag, hcap, rfl⟩
  · rw [heq] at hlo hhi
    exact hs.after_finishOk hrun (by simp [hlast]) fun _ => ⟨hlo, hhi⟩
  · exact hs.after_raise hlast (by decide) (Nat.lt_of_le_of_ne hrd (BitVec.toNat_ne.mp hne))
  · exact hs.after_placeLead hrun hphase hne hcap (magClass_le hmag)

/-- Every microstep keeps the invariant, phase by phase. -/
theorem Inv.after_microstep (hs : Inv s) (h : microstep s = .next t) : Inv t := by
  rcases microstep_next h with ⟨-, rfl⟩ | ⟨hrun, hphase, heq, rfl⟩ | ⟨hrun, hphase, -, -, h⟩ | ⟨hrun, hphase, -, h⟩ |
    ⟨hrun, hphase, h⟩ | ⟨hrun, hphase, h⟩
  · exact hs
  · exact hs.after_finishOk_decode hrun hphase heq
  · exact hs.after_decLeadStep hrun hphase h
  · exact hs.after_decContStep hrun hphase h
  · exact hs.after_encLeadStep hrun hphase h
  · obtain ⟨hcap, rfl⟩ := encContStep_next h
    exact hs.after_placeCont hrun hphase hcap

/-- Settles O55: the turn's bookkeeping, a turn of the outside and a microstep each keep the invariant. -/
theorem stepKeepsTheInvariant : Obligations.StepKeepsTheInvariant := by
  intro s t hs h
  have hturn : Inv s.afterTurn := by
    obtain ⟨sched, heq⟩ := afterTurn_eq s
    rw [heq]
    exact hs.of_outside _ _ _ _
  rcases step_next h with ⟨-, h⟩ | ⟨-, h⟩
  · exact hturn.after_hostTurn h
  · exact hturn.after_microstep h

end Sys2Proof.Machine
end

section
/-! PROOFS. The host-visible registers (O33, O34, O35) and the byte a decoder step runs (O9): R21 to R28, R33 of
10_state.md. -/
namespace Sys2Proof.Machine

variable {s t : State}

/-! ## Register words (R23, R26) -/

/-- The layout of STATUS: STATE in [1:0], LASTOP in [3:2]. -/
theorem statusLayout : ∀ lastOp state : BitVec 2,
    ((0#28 ++ lastOp) ++ state).setWidth 32 = BitVec.ofNat 32 (state.toNat + 4 * lastOp.toNat) := by decide

theorem statusLayout_reserved : ∀ lastOp state : BitVec 2,
    (((0#28 ++ lastOp) ++ state).setWidth 32).extractLsb' 4 28 = 0#28 := by decide

theorem errCodeLayout_reserved : ∀ code : BitVec 3, (code.setWidth 32).extractLsb' 3 29 = 0#29 := by decide

theorem State.statusWord_eq (s : State) :
    s.statusWord = BitVec.ofNat 32 (s.run.code.toNat + 4 * (lastOpCode s.lastOp).toNat) := statusLayout _ _

theorem State.errCodeWord_eq (s : State) : s.errCodeWord = BitVec.ofNat 32 (errorCode s.errCode).toNat :=
  (BitVec.ofNat_toNat 32 _).symm

/-! ## Register accesses (R21, R28) -/

theorem regAt_offset (r : Reg) : regAt r.offset = some r := by cases r <;> rfl

theorem regAt_eq_none {off : Nat} (h : off ∉ [0x00, 0x04, 0x08, 0x0C, 0x10, 0x14]) : regAt off = none := by
  simp only [List.mem_cons, List.not_mem_nil, or_false, not_or] at h
  simp [regAt, h]

theorem hostAct_regRead (r : Reg) (s : State) :
    hostAct (.regRead r.offset) s = .next { s with replies := .word (s.regValue r) :: s.replies } := by
  simp only [hostAct, readRegister, regAt_offset]
  rfl

theorem hostAct_regWrite (r : Reg) (v : Word) (s : State) :
    hostAct (.regWrite r.offset v) s = writeMapped r v s := by
  simp only [hostAct, writeRegister, regAt_offset]

theorem hostAct_regRead_unmapped {off : Nat} (h : regAt off = none) (s : State) :
    hostAct (.regRead off) s = .refused .unmappedOffset := by
  simp only [hostAct, readRegister, h]

theorem hostAct_regWrite_unmapped {off : Nat} (h : regAt off = none) (v : Word) (s : State) :
    hostAct (.regWrite off v) s = .refused .unmappedOffset := by
  simp only [hostAct, writeRegister, h]

/-- Settles O33: a read replies the register's word; STATUS and ERR_CODE have the layouts of R23 and R26. -/
theorem registerReads : Obligations.RegisterReads := by
  intro s
  refine ⟨hostAct_regRead .cmd s, ?_, hostAct_regRead .inLen s, hostAct_regRead .outLen s, ?_, hostAct_regRead .errPos s⟩
  · rw [← s.statusWord_eq]
    exact hostAct_regRead .status s
  · rw [← s.errCodeWord_eq]
    exact hostAct_regRead .errCode s

/-- Settles O34: no register stands at another offset, a read-only register's write answers the same state, and the
layouts leave the reserved bits 0. -/
theorem unmappedAndReadOnlyRegisters : Obligations.UnmappedAndReadOnlyRegisters := by
  intro s off v
  refine ⟨fun h => ?_, fun h => ?_, statusLayout_reserved _ _, errCodeLayout_reserved _, rfl⟩
  · exact ⟨hostAct_regRead_unmapped (regAt_eq_none h) s, hostAct_regWrite_unmapped (regAt_eq_none h) v s⟩
  · simp only [List.mem_cons, List.not_mem_nil, or_false] at h
    rcases h with rfl | rfl | rfl | rfl
    · exact hostAct_regWrite .status v s
    · exact hostAct_regWrite .outLen v s
    · exact hostAct_regWrite .errCode v s
    · exact hostAct_regWrite .errPos v s

/-! ## IN_LEN is not CORE's to write (R24) -/

theorem decLeadStep_inLen {r : ByteRole} {x : Byte} (h : decLeadStep r x s = .next t) : t.inLen = s.inLen := by
  rcases decLeadStep_next h with ⟨-, rfl⟩ | ⟨-, -, rfl⟩ | ⟨k, -, -, -, rfl⟩ | ⟨k, -, -, -, hseed⟩
  · rfl
  · simp only [State.raise_inLen]
  · simp only [State.raise_inLen]
  · rcases seedUnit_next hseed with ⟨-, -, rfl⟩ | ⟨-, rfl⟩ <;> rfl

theorem decContStep_inLen {r : ByteRole} {x : Byte} (h : decContStep r x s = .next t) : t.inLen = s.inLen := by
  rcases decContStep_next h with ⟨-, rfl⟩ | ⟨-, hmerge⟩
  · simp only [State.raise_inLen]
  · rcases mergeUnit_next hmerge with ⟨-, -, rfl⟩ | ⟨-, rfl⟩ <;> rfl

theorem encLeadStep_inLen (h : encLeadStep s = .next t) : t.inLen = s.inLen := by
  rcases encLeadStep_next h with ⟨-, rfl⟩ | ⟨-, -, -, rfl⟩ | ⟨k, -, -, -, -, rfl⟩
  · rfl
  · simp only [State.raise_inLen]
  · simp only [placeLead_inLen]

theorem microstep_inLen (h : microstep s = .next t) : t.inLen = s.inLen := by
  rcases microstep_next h with ⟨-, rfl⟩ | ⟨-, -, -, rfl⟩ | ⟨-, -, -, -, h⟩ | ⟨-, -, -, h⟩ | ⟨-, -, h⟩ | ⟨-, -, h⟩
  · rfl
  · rfl
  · exact decLeadStep_inLen h
  · exact decContStep_inLen h
  · exact encLeadStep_inLen h
  · obtain ⟨-, rfl⟩ := encContStep_next h
    rfl

theorem consumeByte_inLen {r : ByteRole} {x : Byte} (h : consumeByte r x s = .next t) : t.inLen = s.inLen := by
  rcases consumeByte_next h with ⟨-, -, h⟩ | ⟨-, -, h⟩ | ⟨-, rfl⟩
  · exact decLeadStep_inLen h
  · exact decContStep_inLen h
  · rfl

theorem startCommand_inLen {op : Op} (h : startCommand op s = .next t) : t.inLen = s.inLen := by
  obtain ⟨-, -, rfl⟩ := startCommand_next h
  rfl

theorem exec_inLen {i : Instr} (h : exec i s = .next t) : t.inLen = s.inLen := by
  cases i with
  | clear =>
    obtain ⟨-, rfl⟩ := execClear_next h
    rfl
  | decode | encode => exact startCommand_inLen h
  | lead1 | lead2 | lead3 | lead4 | cont => exact consumeByte_inLen h

/-- Settles O35: the host port stores and returns any value, and no outcome of a microstep or an instruction touches
IN_LEN. -/
theorem inLenIsTheHosts : Obligations.InLenIsTheHosts := by
  intro s t
  refine ⟨fun v hrun => ⟨?_, hostAct_regRead .inLen _⟩, microstep_inLen, fun i => exec_inLen, rfl, rfl⟩
  have hbusy : s.busy = false := s.not_busy_iff.mpr hrun
  rw [show (0x08 : Nat) = Reg.inLen.offset from rfl, hostAct_regWrite]
  simp [writeMapped, hbusy]

/-! ## The byte at `rd_pos` (R33, R112, R113) -/

/-- In a decoder phase with a byte to read, the microstep is the fetch. -/
theorem microstep_eq_fetchByte (hrun : s.run = .busy)
    (hphase : (s.phase = .decLead ∧ s.rdPos ≠ s.nIn) ∨ s.phase = .decCont) : microstep s = fetchByte s := by
  have hbusy : s.busy = true := s.busy_iff.mpr hrun
  rcases hphase with ⟨hphase, hne⟩ | hphase
  · simp only [microstep, hbusy, hphase, hne, if_true, if_false]
  · simp only [microstep, hbusy, hphase, if_true]

theorem fetchByte_eq_exec {i : Instr} (hcap : s.rdPos.toNat < s.cfg.bCap)
    (hdec : decode (.unitByte (s.readByte s.rdPos.toNat)) = .ok i) : fetchByte s = exec i s := by
  simp only [fetchByte, runByte, hcap, hdec, if_true]

theorem State.afterTurn_readByte (s : State) (i : Nat) : s.afterTurn.readByte i = s.readByte i := by
  simp only [State.readByte, State.afterTurn_bbuf]

/-- Settles O9: the sequencer's turn is the fetch, and the turn's bookkeeping changes nothing that the fetch reads. -/
theorem stepRunsTheByteAtRdPos : Obligations.StepRunsTheByteAtRdPos := by
  intro s i hagent hrun hphase hcap hdec
  calc step s = microstep s.afterTurn := by simp only [step, hagent]
    _ = fetchByte s.afterTurn := microstep_eq_fetchByte (by simpa using hrun) (by simpa using hphase)
    _ = exec i s.afterTurn := fetchByte_eq_exec (by simpa using hcap) (by simpa [State.afterTurn_readByte] using hdec)

end Sys2Proof.Machine
end

section
/-! PROOFS. The hidden registers are never observed (O59, R34). Each hidden register is read in some phases only;
`State.live` keeps it there and forgets it elsewhere, and every turn respects that: what it makes of a state's live part it
makes of the state. -/
namespace Sys2Proof.Machine

/-! ## The live part of a state -/

/-- The state without the hidden registers that are written before they are read again: all of them while no operation runs,
and while one runs those that no microstep of its phase reads. -/
def State.live (s : State) : State :=
  { s with
    acc := if s.run = .busy ∧ s.phase = .decCont then s.acc else 0#21
    phase := if s.run = .busy then s.phase else .decLead
    nIn := if s.run = .busy then s.nIn else 0#32
    rdPos := if s.run = .busy then s.rdPos else 0#32
    wrPos := if s.run = .busy then s.wrPos else 0#32
    rem := if s.run = .busy ∧ (s.phase = .decCont ∨ s.phase = .encCont) then s.rem else 0#2
    cpLatch := if s.run = .busy ∧ s.phase = .encCont then s.cpLatch else 0#32
    rbits := if s.run = .busy ∧ s.phase = .encCont then s.rbits else 0#5 }

/-- The live part of the next state; the reasons stay. -/
def Outcome.live : Outcome → Outcome
  | .next t => .next t.live
  | .fault f => .fault f
  | .refused r => .refused r

@[simp] theorem Outcome.live_next (t : State) : Outcome.live (.next t) = .next t.live := rfl
@[simp] theorem Outcome.live_fault (f : Fault) : Outcome.live (.fault f) = .fault f := rfl
@[simp] theorem Outcome.live_refused (r : Refusal) : Outcome.live (.refused r) = .refused r := rfl

/-- `f` reads no hidden register that the live part forgets. -/
def RespectsLive (f : State → Outcome) : Prop :=
  ∀ s, Outcome.live (f s.live) = Outcome.live (f s)

variable (s : State)

@[simp] theorem State.live_cfg : s.live.cfg = s.cfg := rfl
@[simp] theorem State.live_inputs : s.live.inputs = s.inputs := rfl
@[simp] theorem State.live_busy : s.live.busy = s.busy := rfl
@[simp] theorem State.live_fits (op : Op) : s.live.fits op = s.fits op := by cases op <;> rfl
@[simp] theorem State.live_readByte (i : Nat) : s.live.readByte i = s.readByte i := rfl
@[simp] theorem State.live_readWord (i : Nat) : s.live.readWord i = s.readWord i := rfl
@[simp] theorem State.live_regValue (r : Reg) : s.live.regValue r = s.regValue r := by cases r <;> rfl
@[simp] theorem State.live_statusWord : s.live.statusWord = s.statusWord := rfl

/-- Forgetting twice is forgetting once. -/
@[simp] theorem State.live_live : s.live.live = s.live := by
  by_cases hrun : s.run = .busy
  · cases hphase : s.phase <;> simp [State.live, hrun, hphase]
  · simp [State.live, hrun]

theorem State.live_of_not_busy {s : State} (hrun : s.run ≠ .busy) : s.live = s.visible := by
  simp [State.live, State.visible, hrun]

@[simp] theorem State.visible_run : s.visible.run = s.run := rfl
@[simp] theorem State.visible_live : s.live.visible = s.visible := rfl

theorem showsTheSame_of_live_eq {o o' : Outcome} (h : Outcome.live o = Outcome.live o') : Outcome.showsTheSame o o' := by
  cases o <;> cases o'
  case next.next t t' =>
    show t.visible = t'.visible
    rw [← State.visible_live t, Host.Outcome.next.inj h, State.visible_live]
  all_goals simp_all [Outcome.showsTheSame]

/-! ## Starting, finishing and resetting -/

@[simp] theorem State.live_start_live (op : Op) : (s.live.start op).live = (s.start op).live := by cases op <;> rfl
@[simp] theorem State.live_clearResult_live : s.live.clearResult.live = s.clearResult.live := rfl
@[simp] theorem State.live_finishOk_live (n : Word) : (s.live.finishOk n).live = (s.finishOk n).live := rfl
@[simp] theorem State.live_reply (r : Reply) : s.live.reply r = (s.reply r).live := rfl

theorem State.live_raise_live {s : State} (hrun : s.run = .busy) (op : Op) (e : CoreError) (pos : Word) :
    (s.live.raise op e pos).live = (s.raise op e pos).live := by
  cases op <;> simp [State.live, State.raise, State.dropOutput, hrun]

/-! ## The microsteps

In its phase a pipeline reads the registers that the live part keeps there, and writes the others before it reads them. -/

section Busy

variable {s} (hrun : s.run = .busy)
include hrun

theorem State.live_phase : s.live.phase = s.phase := by simp [State.live, hrun]
theorem State.live_nIn : s.live.nIn = s.nIn := by simp [State.live, hrun]
theorem State.live_rdPos : s.live.rdPos = s.rdPos := by simp [State.live, hrun]
theorem State.live_wrPos : s.live.wrPos = s.wrPos := by simp [State.live, hrun]

theorem seedUnit_live (hphase : s.phase = .decLead) (k : LengthClass) (x : Byte) :
    Outcome.live (seedUnit k x s.live) = Outcome.live (seedUnit k x s) := by
  cases k with
  | one =>
    by_cases hcap : s.wrPos.toNat < s.cfg.wCap <;>
      simp [seedUnit, emitWord, State.live, State.writeWord, hrun, hphase, hcap]
  | two | three | four => simp [seedUnit, State.live, hrun]

theorem decLeadStep_live (hphase : s.phase = .decLead) (r : ByteRole) (x : Byte) :
    Outcome.live (decLeadStep r x s.live) = Outcome.live (decLeadStep r x s) := by
  simp only [decLeadStep, State.live_rdPos hrun, State.live_nIn hrun, State.live_wrPos hrun]
  split
  · simp only [Outcome.live_next, State.live_finishOk_live]
  · cases r with
    | lead k =>
      dsimp only
      split
      · simp only [Outcome.live_next, State.live_raise_live hrun]
      · exact seedUnit_live hrun hphase k x
    | cont | noFormat => simp only [Outcome.live_next, State.live_raise_live hrun]

theorem mergeUnit_live (hphase : s.phase = .decCont) (x : Byte) :
    Outcome.live (mergeUnit x s.live) = Outcome.live (mergeUnit x s) := by
  by_cases hlast : s.rem - 1#2 = 0#2
  · by_cases hcap : s.wrPos.toNat < s.cfg.wCap <;>
      simp [mergeUnit, emitWord, State.live, State.writeWord, hrun, hphase, hlast, hcap]
  · simp [mergeUnit, State.live, hrun, hphase, hlast]

theorem decContStep_live (hphase : s.phase = .decCont) (r : ByteRole) (x : Byte) :
    Outcome.live (decContStep r x s.live) = Outcome.live (decContStep r x s) := by
  cases r with
  | cont => exact mergeUnit_live hrun hphase x
  | lead | noFormat => simp only [decContStep, State.live_rdPos hrun, Outcome.live_next, State.live_raise_live hrun]

theorem placeLead_live (hphase : s.phase = .encLead) (k : LengthClass) (cp : Word) :
    (placeLead k cp s.live).live = (placeLead k cp s).live := by
  cases k <;> simp [placeLead, State.live, State.writeByte, hrun, hphase]

theorem encLeadStep_live (hphase : s.phase = .encLead) :
    Outcome.live (encLeadStep s.live) = Outcome.live (encLeadStep s) := by
  simp only [encLeadStep, State.live_rdPos hrun, State.live_nIn hrun, State.live_wrPos hrun, State.live_cfg,
    State.live_readWord]
  split
  · simp only [Outcome.live_next, State.live_finishOk_live]
  · split
    · cases magClass (s.readWord s.rdPos.toNat) with
      | none => simp only [Outcome.live_next, State.live_raise_live hrun]
      | some k =>
        dsimp only
        split
        · simp only [Outcome.live_next, placeLead_live hrun hphase]
        · rfl
    · rfl

theorem placeCont_live (hphase : s.phase = .encCont) : (placeCont s.live).live = (placeCont s).live := by
  by_cases hlast : s.rem - 1#2 = 0#2 <;> simp [placeCont, State.live, State.writeByte, hrun, hphase, hlast]

theorem encContStep_live (hphase : s.phase = .encCont) :
    Outcome.live (encContStep s.live) = Outcome.live (encContStep s) := by
  simp only [encContStep, State.live_wrPos hrun, State.live_cfg]
  split
  · simp only [Outcome.live_next, placeCont_live hrun hphase]
  · rfl

end Busy

theorem consumeByte_respectsLive (r : ByteRole) (x : Byte) : RespectsLive (consumeByte r x) := by
  intro s
  by_cases hrun : s.run = .busy
  · have hbusy : s.busy = true := (State.busy_iff s).mpr hrun
    simp only [consumeByte, State.live_busy, hbusy, if_true, State.live_phase hrun]
    cases hphase : s.phase with
    | decLead => exact decLeadStep_live hrun hphase r x
    | decCont => exact decContStep_live hrun hphase r x
    | encLead | encCont => simp only [Outcome.live_next, State.live_live]
  · simp [consumeByte, hrun]

theorem fetchByte_live (hrun : s.run = .busy) : Outcome.live (fetchByte s.live) = Outcome.live (fetchByte s) := by
  simp only [fetchByte, State.live_rdPos hrun, State.live_cfg, State.live_readByte, runByte_eq]
  split
  · exact consumeByte_respectsLive _ _ s
  · rfl

theorem microstep_respectsLive : RespectsLive microstep := by
  intro s
  by_cases hrun : s.run = .busy
  · have hbusy : s.busy = true := (State.busy_iff s).mpr hrun
    simp only [microstep, State.live_busy, hbusy, if_true, State.live_phase hrun]
    cases hphase : s.phase with
    | decLead =>
      simp only [State.live_rdPos hrun, State.live_nIn hrun, State.live_wrPos hrun]
      split
      · simp only [Outcome.live_next, State.live_finishOk_live]
      · exact fetchByte_live s hrun
    | decCont => exact fetchByte_live s hrun
    | encLead => exact encLeadStep_live hrun hphase
    | encCont => exact encContStep_live hrun hphase
  · simp [microstep, hrun]

/-! ## The host's turn -/

theorem startCommand_respectsLive (op : Op) : RespectsLive (startCommand op) := by
  intro s
  cases hbusy : s.busy with
  | true => simp [startCommand, hbusy]
  | false => cases hfits : s.fits op <;> simp [startCommand, hbusy, hfits]

theorem execClear_respectsLive : RespectsLive execClear := by
  intro s
  cases hbusy : s.busy <;> simp [execClear, hbusy]

theorem exec_respectsLive (i : Instr) : RespectsLive (exec i) := by
  cases i with
  | clear => exact execClear_respectsLive
  | decode | encode => exact startCommand_respectsLive _
  | lead1 x | lead2 x | lead3 x | lead4 x | cont x => exact consumeByte_respectsLive _ x

theorem writeCommand_respectsLive (v : Word) : RespectsLive (writeCommand v) := by
  intro s
  unfold writeCommand
  split
  · exact exec_respectsLive _ s
  · rfl

theorem writeMapped_respectsLive (r : Reg) (v : Word) : RespectsLive (writeMapped r v) := by
  intro s
  cases r with
  | cmd => exact writeCommand_respectsLive v s
  | inLen =>
    cases hbusy : s.busy with
    | true => simp [writeMapped, hbusy]
    | false =>
      simp only [writeMapped, State.live_busy, hbusy]
      exact congrArg Host.Outcome.next (State.live_live { s with inLen := v })
  | status | outLen | errCode | errPos => exact congrArg Host.Outcome.next (State.live_live s)

/-- A buffer access answers the same where its result has the same live part. -/
theorem bufferAccess_live {t t' : State} (cap i : Nat) (ht : t.live = t'.live) :
    Outcome.live (bufferAccess cap i s.live t) = Outcome.live (bufferAccess cap i s t') := by
  cases hbusy : s.busy with
  | true => simp [bufferAccess, hbusy]
  | false => by_cases hi : i < cap <;> simp [bufferAccess, hbusy, hi, ht]

theorem hostAct_respectsLive (a : HostAction) : RespectsLive (hostAct a) := by
  intro s
  cases a with
  | regRead off =>
    simp only [hostAct, readRegister, State.live_regValue, State.live_reply]
    cases regAt off <;> simp only [Outcome.live_next, State.live_live]
  | regWrite off v =>
    simp only [hostAct, writeRegister]
    cases regAt off with
    | none => rfl
    | some r => exact writeMapped_respectsLive r v s
  | bbufRead i => exact bufferAccess_live s _ i (State.live_live (s.reply _))
  | bbufWrite i v => exact bufferAccess_live s _ i (State.live_live (s.writeByte i v))
  | wbufRead i => exact bufferAccess_live s _ i (State.live_live (s.reply _))
  | wbufWrite i v => exact bufferAccess_live s _ i (State.live_live (s.writeWord i v))

theorem waitTurn_live (rest : List Input) : waitTurn rest s.live = (waitTurn rest s).live := by
  cases hbusy : s.busy <;> simp only [waitTurn, State.live_busy, hbusy] <;> rfl

theorem hostTurn_respectsLive : RespectsLive hostTurn := by
  intro s
  simp only [hostTurn, State.live_inputs]
  cases s.inputs with
  | nil => exact congrArg Host.Outcome.next s.live_live
  | cons input rest =>
    cases input with
    | act a => exact hostAct_respectsLive a { s with inputs := rest }
    | wait => simp only [Outcome.live_next, waitTurn_live, State.live_live]
    | reset => rfl

/-! ## Steps and runs -/

theorem nextAgent_live : s.live.nextAgent = s.nextAgent := rfl

theorem afterTurn_live : s.live.afterTurn = s.afterTurn.live := by
  cases hbusy : s.busy <;> simp only [State.afterTurn, State.live_busy, hbusy] <;> rfl

theorem step_respectsLive : RespectsLive step := by
  intro s
  simp only [step, nextAgent_live, afterTurn_live]
  cases s.nextAgent with
  | host => exact hostTurn_respectsLive s.afterTurn
  | core => exact microstep_respectsLive s.afterTurn

/-- Runs from states with the same live part answer with the same live part. -/
theorem run_live_eq (k : Nat) {s s' : State} (h : s.live = s'.live) :
    Outcome.live (Host.Core.run core k s) = Outcome.live (Host.Core.run core k s') := by
  induction k generalizing s s' with
  | zero => exact congrArg Host.Outcome.next h
  | succ k ih =>
    have hstep : Outcome.live (step s) = Outcome.live (step s') := by
      rw [← step_respectsLive s, h, step_respectsLive s']
    simp only [Host.Core.run, show core.step = step from rfl]
    cases hs : step s <;> cases hs' : step s' <;> rw [hs, hs'] at hstep
    case next.next t t' => exact ih (Host.Outcome.next.inj hstep)
    all_goals simp_all

/-- Settles O59: while no operation runs the live part is the visible part, and equal live parts stay equal. -/
theorem hiddenRegistersAreUnobservable : Obligations.HiddenRegistersAreUnobservable := by
  intro s s' k hrun hvis
  have hrun' : s'.run ≠ .busy := by rwa [← State.visible_run, ← hvis, State.visible_run]
  have hlive : s.live = s'.live := by rw [State.live_of_not_busy hrun, hvis, State.live_of_not_busy hrun']
  exact showsTheSame_of_live_eq (run_live_eq k hlive)

end Sys2Proof.Machine
end

section
/-! PROOFS. The turn of the outside and the buffers (O8, O10, O36, O39): R51, R52, R58, R61 of 20_memory.md. -/
namespace Sys2Proof.Machine

variable {s t : State}

/-! ## What a step of the host carries out (R51) -/

theorem step_eq_hostTurn (h : s.nextAgent = .host) : step s = hostTurn s.afterTurn := by
  simp only [step, h]

theorem hostTurn_eq_hostAct {a : HostAction} {rest : List Input} (h : s.inputs = .act a :: rest) :
    hostTurn s = hostAct a { s with inputs := rest } := by
  simp only [hostTurn, h]

theorem writeCommand_eq_exec {w : Word} {i : Instr} (h : decode (.command w) = .ok i) (s : State) :
    writeCommand w s = exec i s := by
  simp only [writeCommand, h]

/-- Settles O10: the host's turn takes the first input, and the turn's bookkeeping leaves the inputs. -/
theorem stepRunsTheHostAction : Obligations.StepRunsTheHostAction := by
  intro s a rest hagent hinputs
  calc step s = hostTurn s.afterTurn := step_eq_hostTurn hagent
    _ = hostAct a { s.afterTurn with inputs := rest } := hostTurn_eq_hostAct (by simpa using hinputs)

/-- Settles O8: the action is a CMD write, which runs what its word decodes to. -/
theorem stepRunsTheWrittenCommand : Obligations.StepRunsTheWrittenCommand := by
  intro s w rest i hagent hinputs hdec
  calc step s = hostAct (.regWrite Reg.cmd.offset w) { s.afterTurn with inputs := rest } :=
        stepRunsTheHostAction s _ rest hagent hinputs
    _ = writeCommand w { s.afterTurn with inputs := rest } := hostAct_regWrite .cmd w _
    _ = exec i { s.afterTurn with inputs := rest } := writeCommand_eq_exec hdec _

/-! ## Buffer accesses while no operation runs (R52, R58) -/

theorem bufferAccess_in_range {cap i : Nat} (hrun : s.run ≠ .busy) (hi : i < cap) (t : State) :
    bufferAccess cap i s t = .next t := by
  simp [bufferAccess, hrun, hi]

theorem bufferAccess_out_of_range {cap i : Nat} (hrun : s.run ≠ .busy) (hi : cap ≤ i) (t : State) :
    bufferAccess cap i s t = .refused .indexOutOfRange := by
  simp [bufferAccess, hrun, Nat.not_lt.mpr hi]

/-- Settles O36: in range an access answers its result, which for a write is the buffer's own write law; from the capacity
up it is refused. -/
theorem bufferAccessesWhileNotBusy : Obligations.BufferAccessesWhileNotBusy := by
  intro s i b v hrun
  refine ⟨fun hi => ⟨bufferAccess_in_range hrun hi _, fun hwf => ?_⟩,
    fun hi => ⟨bufferAccess_in_range hrun hi _, fun hwf => ?_⟩,
    fun hi => ⟨bufferAccess_out_of_range hrun hi _, bufferAccess_out_of_range hrun hi _⟩,
    fun hi => ⟨bufferAccess_out_of_range hrun hi _, bufferAccess_out_of_range hrun hi _⟩⟩
  · exact ⟨s.writeByte i b, bufferAccess_in_range hrun hi _, rfl, Memory.wf_write hwf i b,
      s.readByte_writeByte hwf i b⟩
  · exact ⟨s.writeWord i v, bufferAccess_in_range hrun hi _, rfl, Memory.wf_write hwf i v,
      s.readWord_writeWord hwf i v⟩

/-! ## The outside while an operation runs (R61, R185) -/

/-- Of everything a host action can do, a running operation leaves the reads of a register and the writes of a read-only
one. -/
theorem hostAct_frame_of_busy {a : HostAction} (hrun : s.run = .busy) (h : hostAct a s = .next t) :
    ∃ replies, t = { s with replies := replies } := by
  have hbusy : s.busy ≠ false := by simp [hrun]
  rcases hostAct_next h with rfl | ⟨r, rfl⟩ | ⟨hb, -⟩ | ⟨hb, -⟩ | ⟨hb, -⟩ | ⟨hb, -⟩ | ⟨hb, -⟩
  · exact ⟨_, rfl⟩
  · exact ⟨_, rfl⟩
  all_goals exact absurd hb hbusy

theorem hostTurn_frame_of_busy (hrun : s.run = .busy) (hreset : ∀ rest, s.inputs ≠ .reset :: rest)
    (h : hostTurn s = .next t) : ∃ inputs replies, t = { s with inputs := inputs, replies := replies } := by
  rcases hostTurn_next h with ⟨-, rfl⟩ | ⟨a, rest, -, h⟩ | ⟨rest, -, rfl⟩ | ⟨rest, hin, -⟩
  · exact ⟨_, _, rfl⟩
  · obtain ⟨replies, rfl⟩ := hostAct_frame_of_busy (s := { s with inputs := rest }) hrun h
    exact ⟨_, _, rfl⟩
  · exact waitTurn_eq rest s
  · exact absurd hin (hreset rest)

/-- Settles O39: the turn's bookkeeping changes the schedule, the turn itself the inputs and the replies. -/
theorem buffersBelongToOneAgent : Obligations.BuffersBelongToOneAgent := by
  intro s t hrun hagent h hreset
  obtain ⟨sched, hturn⟩ := afterTurn_eq s
  rw [step_eq_hostTurn hagent, hturn] at h
  obtain ⟨inputs, replies, rfl⟩ := hostTurn_frame_of_busy (s := { s with sched := sched }) hrun hreset h
  rfl

end Sys2Proof.Machine
end

section
/-! PROOFS. A microstep and the input buffer (O37, R56). A pipeline commutes with replacing its input buffer: but for the
entry at `rd_pos`, which the invariant keeps below `n_in`, it neither reads nor writes that buffer. -/
namespace Sys2Proof.Machine

variable {s t : State}

/-! ## Replacing a buffer -/

/-- The state with BBUF replaced. -/
def State.withBbuf (m : List Host.Cell) (s : State) : State := { s with bbuf := m }

/-- The state with WBUF replaced. -/
def State.withWbuf (m : List (Nat × Word)) (s : State) : State := { s with wbuf := m }

/-- The next state changed by `f`; the reasons stay. -/
def Outcome.mapNext (f : State → State) : Outcome → Outcome
  | .next t => .next (f t)
  | .fault r => .fault r
  | .refused r => .refused r

/-- `act` neither reads nor writes BBUF. -/
def IgnoresBbuf (act : State → Outcome) : Prop :=
  ∀ m s, act (State.withBbuf m s) = Outcome.mapNext (State.withBbuf m) (act s)

/-- A guard that the change of state does not touch: each branch is to be shown on its own. -/
theorem Outcome.ite_eq_mapNext {c : Prop} [Decidable c] {f : State → State} {a a' b b' : Outcome}
    (ha : c → a' = Outcome.mapNext f a) (hb : ¬c → b' = Outcome.mapNext f b) :
    (if c then a' else b') = Outcome.mapNext f (if c then a else b) := by
  by_cases hc : c
  · simpa only [if_pos hc] using ha hc
  · simpa only [if_neg hc] using hb hc

/-! ## The decoder -/

theorem emitWord_ignoresBbuf : IgnoresBbuf emitWord := fun _ _ =>
  Outcome.ite_eq_mapNext (fun _ => rfl) (fun _ => rfl)

theorem seedUnit_ignoresBbuf (k : LengthClass) (x : Byte) : IgnoresBbuf (seedUnit k x) := by
  intro m s
  cases k with
  | one => exact emitWord_ignoresBbuf m { s with acc := accSeed x, rdPos := s.rdPos + 1#32 }
  | two | three | four => rfl

theorem decLeadStep_ignoresBbuf (r : ByteRole) (x : Byte) : IgnoresBbuf (decLeadStep r x) := by
  intro m s
  refine Outcome.ite_eq_mapNext (fun _ => rfl) (fun _ => ?_)
  cases r with
  | lead k => exact Outcome.ite_eq_mapNext (fun _ => rfl) (fun _ => seedUnit_ignoresBbuf k x m s)
  | cont | noFormat => rfl

theorem mergeUnit_ignoresBbuf (x : Byte) : IgnoresBbuf (mergeUnit x) := fun m s =>
  Outcome.ite_eq_mapNext
    (fun _ => emitWord_ignoresBbuf m
      { s with acc := accMerge s.acc x, rdPos := s.rdPos + 1#32, rem := s.rem - 1#2, phase := .decLead })
    (fun _ => rfl)

theorem decContStep_ignoresBbuf (r : ByteRole) (x : Byte) : IgnoresBbuf (decContStep r x) := by
  intro m s
  cases r with
  | cont => exact mergeUnit_ignoresBbuf x m s
  | lead | noFormat => rfl

theorem consumeByte_ignoresBbuf (r : ByteRole) (x : Byte) : IgnoresBbuf (consumeByte r x) := by
  intro m s
  refine Outcome.ite_eq_mapNext (fun _ => ?_) (fun _ => rfl)
  simp only [show (State.withBbuf m s).phase = s.phase from rfl]
  cases s.phase with
  | decLead => exact decLeadStep_ignoresBbuf r x m s
  | decCont => exact decContStep_ignoresBbuf r x m s
  | encLead | encCont => rfl

/-- The fetch reads the entry at `rd_pos` and no other. -/
theorem fetchByte_withBbuf {m : List Host.Cell} (hread : Memory.read m s.rdPos.toNat = s.readByte s.rdPos.toNat) :
    fetchByte (s.withBbuf m) = Outcome.mapNext (State.withBbuf m) (fetchByte s) := by
  refine Outcome.ite_eq_mapNext (fun _ => ?_) (fun _ => rfl)
  rw [show (s.withBbuf m).readByte (s.withBbuf m).rdPos.toNat = s.readByte s.rdPos.toNat from hread]
  simp only [runByte_eq]
  exact consumeByte_ignoresBbuf _ _ m s

theorem microstep_of_input_used_up (hrun : s.run = .busy) (hphase : s.phase = .decLead) (hend : s.rdPos = s.nIn) :
    microstep s = .next (s.finishOk s.wrPos) := by
  simp [microstep, hrun, hphase, hend]

/-- Where the decoder fetches a byte, it is one of the input. -/
theorem Inv.fetch_in_input (hs : Inv s) (hrun : s.run = .busy)
    (hphase : (s.phase = .decLead ∧ s.rdPos ≠ s.nIn) ∨ s.phase = .decCont) : s.rdPos.toNat < s.nIn.toNat := by
  rcases hphase with ⟨hphase, hne⟩ | hphase
  · obtain ⟨-, hrd, -⟩ := hs.decLead hrun hphase
    exact Nat.lt_of_le_of_ne hrd (BitVec.toNat_ne.mp hne)
  · obtain ⟨-, hrem, hrd, -⟩ := hs.decCont hrun hphase
    omega

theorem Inv.microstep_withBbuf (hs : Inv s) (hrun : s.run = .busy) (hphase : s.phase = .decLead ∨ s.phase = .decCont)
    {m : List Host.Cell} (hread : ∀ j, j < s.nIn.toNat → Memory.read m j = s.readByte j) :
    microstep (s.withBbuf m) = Outcome.mapNext (State.withBbuf m) (microstep s) := by
  by_cases hend : s.phase = .decLead ∧ s.rdPos = s.nIn
  · obtain ⟨hlead, hend⟩ := hend
    rw [microstep_of_input_used_up hrun hlead hend]
    exact microstep_of_input_used_up (s := s.withBbuf m) hrun hlead hend
  · have hfetch : (s.phase = .decLead ∧ s.rdPos ≠ s.nIn) ∨ s.phase = .decCont := by tauto
    rw [microstep_eq_fetchByte hrun hfetch, microstep_eq_fetchByte (s := s.withBbuf m) hrun hfetch]
    exact fetchByte_withBbuf (hread _ (hs.fetch_in_input hrun hfetch))

/-! ## The encoder -/

theorem placeLead_withWbuf (k : LengthClass) (cp : Word) (m : List (Nat × Word)) (s : State) :
    placeLead k cp (s.withWbuf m) = (placeLead k cp s).withWbuf m := by
  cases k <;> rfl

/-- ENC_LEAD reads the entry at `rd_pos` and no other, and none at the end of the input. -/
theorem encLeadStep_withWbuf {m : List (Nat × Word)}
    (hread : s.rdPos ≠ s.nIn → Memory.read m s.rdPos.toNat = s.readWord s.rdPos.toNat) :
    encLeadStep (s.withWbuf m) = Outcome.mapNext (State.withWbuf m) (encLeadStep s) := by
  refine Outcome.ite_eq_mapNext (fun _ => rfl) (fun hne => Outcome.ite_eq_mapNext (fun _ => ?_) (fun _ => rfl))
  rw [show (s.withWbuf m).readWord (s.withWbuf m).rdPos.toNat = s.readWord s.rdPos.toNat from hread hne]
  cases magClass (s.readWord s.rdPos.toNat) with
  | none => rfl
  | some k =>
    exact Outcome.ite_eq_mapNext (fun _ => congrArg Host.Outcome.next (placeLead_withWbuf k _ m s)) (fun _ => rfl)

theorem encContStep_withWbuf (m : List (Nat × Word)) (s : State) :
    encContStep (s.withWbuf m) = Outcome.mapNext (State.withWbuf m) (encContStep s) :=
  Outcome.ite_eq_mapNext (fun _ => rfl) (fun _ => rfl)

theorem microstep_eq_encLeadStep (hrun : s.run = .busy) (hphase : s.phase = .encLead) :
    microstep s = encLeadStep s := by
  simp [microstep, hrun, hphase]

theorem microstep_eq_encContStep (hrun : s.run = .busy) (hphase : s.phase = .encCont) :
    microstep s = encContStep s := by
  simp [microstep, hrun, hphase]

/-- Where the encoder reads a word, it is one of the input. -/
theorem Inv.word_in_input (hs : Inv s) (hrun : s.run = .busy) (hphase : s.phase = .encLead) (hne : s.rdPos ≠ s.nIn) :
    s.rdPos.toNat < s.nIn.toNat := by
  obtain ⟨-, hrd, -⟩ := hs.encLead hrun hphase
  exact Nat.lt_of_le_of_ne hrd (BitVec.toNat_ne.mp hne)

theorem Inv.microstep_withWbuf (hs : Inv s) (hrun : s.run = .busy) (hphase : s.phase = .encLead ∨ s.phase = .encCont)
    {m : List (Nat × Word)} (hread : ∀ j, j < s.nIn.toNat → Memory.read m j = s.readWord j) :
    microstep (s.withWbuf m) = Outcome.mapNext (State.withWbuf m) (microstep s) := by
  rcases hphase with hphase | hphase
  · rw [microstep_eq_encLeadStep hrun hphase, microstep_eq_encLeadStep (s := s.withWbuf m) hrun hphase]
    exact encLeadStep_withWbuf fun hne => hread _ (hs.word_in_input hrun hphase hne)
  · rw [microstep_eq_encContStep hrun hphase, microstep_eq_encContStep (s := s.withWbuf m) hrun hphase]
    exact encContStep_withWbuf m s

/-- Settles O37: each pipeline's microstep commutes with replacing its input buffer by one that agrees below `n_in`. -/
theorem microstepsReadInputBelowNInOnly : Obligations.MicrostepsReadInputBelowNInOnly := by
  intro s t hs hrun h
  refine ⟨fun hphase m hread => ?_, fun hphase m hread => ?_⟩
  · exact (hs.microstep_withBbuf hrun hphase hread).trans (congrArg (Outcome.mapNext (State.withBbuf m)) h)
  · exact (hs.microstep_withWbuf hrun hphase hread).trans (congrArg (Outcome.mapNext (State.withWbuf m)) h)

end Sys2Proof.Machine
end

section
/-! PROOFS. A microstep and the output buffer (O38, R57): in each phase the invariant puts `wr_pos` below the output bound,
and an entry is written there only, together with the advance of `wr_pos`. -/
namespace Sys2Proof.Machine

variable {s t : State}

/-- No output: both buffers and `wr_pos` are as before. -/
def LeavesOutput (s t : State) : Prop := t.bbuf = s.bbuf ∧ t.wbuf = s.wbuf ∧ t.wrPos = s.wrPos

/-- One word of output, at `wr_pos` and below DECODE's output bound. -/
def EmitsOneWord (s t : State) : Prop :=
  t.bbuf = s.bbuf ∧ s.wrPos.toNat < s.nIn.toNat ∧ t.wrPos.toNat = s.wrPos.toNat + 1 ∧
    ∀ j, j ≠ s.wrPos.toNat → t.readWord j = s.readWord j

/-- One byte of output, at `wr_pos` and below ENCODE's output bound. -/
def PlacesOneByte (s t : State) : Prop :=
  t.wbuf = s.wbuf ∧ s.wrPos.toNat < 4 * s.nIn.toNat ∧ t.wrPos.toNat = s.wrPos.toNat + 1 ∧
    ∀ j, j ≠ s.wrPos.toNat → t.readByte j = s.readByte j

/-- A write of WBUF at `wr_pos` with the advance of `wr_pos`. -/
theorem EmitsOneWord.of_write (hs : Inv s) (hbound : s.wrPos.toNat < s.nIn.toNat) {v : Word}
    (hbbuf : t.bbuf = s.bbuf) (hwbuf : t.wbuf = (s.writeWord s.wrPos.toNat v).wbuf) (hwr : t.wrPos = s.wrPos + 1#32) :
    EmitsOneWord s t := by
  obtain ⟨-, -, hwf, -⟩ := hs.buffers
  refine ⟨hbbuf, hbound, hwr ▸ toNat_add_one hbound s.nIn.isLt, fun j hj => ?_⟩
  calc t.readWord j = (s.writeWord s.wrPos.toNat v).readWord j := congrArg (Memory.read · j) hwbuf
    _ = s.readWord j := by rw [s.readWord_writeWord hwf, if_neg hj]

/-- A write of BBUF at `wr_pos` with the advance of `wr_pos`. -/
theorem PlacesOneByte.of_write (hs : Inv s) (hcap : s.wrPos.toNat < s.cfg.bCap)
    (hbound : s.wrPos.toNat < 4 * s.nIn.toNat) {v : Byte} (hwbuf : t.wbuf = s.wbuf)
    (hbbuf : t.bbuf = (s.writeByte s.wrPos.toNat v).bbuf) (hwr : t.wrPos = s.wrPos + 1#32) : PlacesOneByte s t := by
  obtain ⟨-, hwf, -⟩ := hs.buffers
  refine ⟨hwbuf, hbound, hwr ▸ toNat_add_one hcap hs.buffers.bCap_lt, fun j hj => ?_⟩
  calc t.readByte j = (s.writeByte s.wrPos.toNat v).readByte j := congrArg (Memory.read · j) hbbuf
    _ = s.readByte j := by rw [s.readByte_writeByte hwf, if_neg hj]

/-- DEC_LEAD emits the word of a 1-byte unit (R112). -/
theorem Inv.decLeadStep_output {r : ByteRole} {x : Byte} (hs : Inv s) (hrun : s.run = .busy)
    (hphase : s.phase = .decLead) (hok : t.run ≠ .doneErr) (h : decLeadStep r x s = .next t) :
    LeavesOutput s t ∨ EmitsOneWord s t := by
  obtain ⟨-, -, hwr⟩ := hs.decLead hrun hphase
  rcases decLeadStep_next h with ⟨-, rfl⟩ | ⟨-, -, rfl⟩ | ⟨k, -, -, -, rfl⟩ | ⟨k, -, hne, -, hseed⟩
  · exact .inl ⟨rfl, rfl, rfl⟩
  · exact absurd rfl hok
  · exact absurd rfl hok
  · have hbound : s.wrPos.toNat < s.nIn.toNat := hwr.trans_lt (hs.fetch_in_input hrun (.inl ⟨hphase, hne⟩))
    rcases seedUnit_next hseed with ⟨-, -, rfl⟩ | ⟨-, rfl⟩
    · exact .inr (.of_write hs hbound rfl rfl rfl)
    · exact .inl ⟨rfl, rfl, rfl⟩

/-- DEC_CONT emits the word of a unit at the unit's last byte (R113). -/
theorem Inv.decContStep_output {r : ByteRole} {x : Byte} (hs : Inv s) (hrun : s.run = .busy)
    (hphase : s.phase = .decCont) (hok : t.run ≠ .doneErr) (h : decContStep r x s = .next t) :
    LeavesOutput s t ∨ EmitsOneWord s t := by
  obtain ⟨-, hrem, hrd, hwr, -⟩ := hs.decCont hrun hphase
  rcases decContStep_next h with ⟨-, rfl⟩ | ⟨-, hmerge⟩
  · exact absurd rfl hok
  · rcases mergeUnit_next hmerge with ⟨-, -, rfl⟩ | ⟨-, rfl⟩
    · exact .inr (.of_write hs (by omega) rfl rfl rfl)
    · exact .inl ⟨rfl, rfl, rfl⟩

/-- ENC_LEAD places the leading byte of a unit (R148). -/
theorem Inv.encLeadStep_output (hs : Inv s) (hrun : s.run = .busy) (hphase : s.phase = .encLead)
    (hok : t.run ≠ .doneErr) (h : encLeadStep s = .next t) : LeavesOutput s t ∨ PlacesOneByte s t := by
  obtain ⟨-, -, -, hhi⟩ := hs.encLead hrun hphase
  rcases encLeadStep_next h with ⟨-, rfl⟩ | ⟨-, -, -, rfl⟩ | ⟨k, hne, -, -, hcap, rfl⟩
  · exact .inl ⟨rfl, rfl, rfl⟩
  · exact absurd rfl hok
  · have hrdlt := hs.word_in_input hrun hphase hne
    exact .inr (.of_write hs hcap (by omega) (placeLead_wbuf ..) (placeLead_bbuf ..) (placeLead_wrPos ..))

/-- ENC_CONT places a continuation byte of a unit (R149). -/
theorem Inv.encContStep_output (hs : Inv s) (hrun : s.run = .busy) (hphase : s.phase = .encCont)
    (h : encContStep s = .next t) : PlacesOneByte s t := by
  obtain ⟨-, hrd, hrem, -, -, hhi, -⟩ := hs.encCont hrun hphase
  obtain ⟨hcap, rfl⟩ := encContStep_next h
  exact .of_write hs hcap (by omega) rfl rfl rfl

/-- Settles O38: by the phase of the microstep; finishing writes nothing, and an error is excluded. -/
theorem outputIsWrittenInOrder : Obligations.OutputIsWrittenInOrder := by
  intro s t hs hrun h hok
  show LeavesOutput s t ∨ EmitsOneWord s t ∨ PlacesOneByte s t
  rcases microstep_next h with ⟨hidle, -⟩ | ⟨-, -, -, rfl⟩ | ⟨-, hphase, -, -, h⟩ | ⟨-, hphase, -, h⟩ |
    ⟨-, hphase, h⟩ | ⟨-, hphase, h⟩
  · exact absurd hrun hidle
  · exact .inl ⟨rfl, rfl, rfl⟩
  · exact (hs.decLeadStep_output hrun hphase hok h).imp_right .inl
  · exact (hs.decContStep_output hrun hphase hok h).imp_right .inl
  · exact (hs.encLeadStep_output hrun hphase hok h).imp_right .inr
  · exact .inr (.inr (hs.encContStep_output hrun hphase h))

end Sys2Proof.Machine
end

section
/-! PROOFS. The encodings (O1 to O5): R70 to R75, R80 to R82 of 30_encoding.md. A byte format is a marker, a mask and a
payload width; what the five of them have in common is proved once, of `ByteFormat`. -/
namespace Sys2Proof.Machine

variable {marker mask b x : Byte} {width : Nat} {k k' : LengthClass} {s : State}

/-! ## Marker, mask and payload (R72, R75) -/

/-- The marker lies under the mask, and the mask leaves the low `width` bits to the payload. -/
structure ByteFormat (marker mask : Byte) (width : Nat) : Prop where
  marker_and_mask : marker &&& mask = marker
  not_mask : (~~~mask).toNat = 2 ^ width - 1

theorem leadFormat (k : LengthClass) : ByteFormat (romMarker k) (romMask k) (romLeadBits k) := by
  cases k <;> exact ⟨rfl, rfl⟩

theorem contFormat : ByteFormat contMarker contMask contBits := ⟨rfl, rfl⟩

namespace ByteFormat

variable (f : ByteFormat marker mask width)
include f

theorem payload_eq_self (hx : x.toNat < 2 ^ width) : x &&& ~~~mask = x := by
  apply BitVec.eq_of_toNat_eq
  rw [BitVec.toNat_and, f.not_mask, Nat.and_two_pow_sub_one_eq_mod, Nat.mod_eq_of_lt hx]

theorem payload_lt (b : Byte) : (b &&& ~~~mask).toNat < 2 ^ width := by
  rw [BitVec.toNat_and, f.not_mask, Nat.and_two_pow_sub_one_eq_mod]
  exact Nat.mod_lt _ (Nat.two_pow_pos width)

theorem payload_and_mask (hx : x.toNat < 2 ^ width) : x &&& mask = 0#8 := by
  rw [← f.payload_eq_self hx, BitVec.and_assoc, BitVec.and_comm _ mask, BitVec.and_not_self]
  exact BitVec.and_zero

theorem marker_and_not_mask : marker &&& ~~~mask = 0#8 := by
  rw [← f.marker_and_mask, BitVec.and_assoc, BitVec.and_not_self]
  exact BitVec.and_zero

/-- A marker with a payload of the format's width matches the format. -/
theorem matches_marker_or (hx : x.toNat < 2 ^ width) : (marker ||| x) &&& mask = marker := by
  rw [BitVec.and_or_distrib_right, f.marker_and_mask, f.payload_and_mask hx, BitVec.or_zero]

/-- The payload of a marker with a payload is that payload. -/
theorem payload_marker_or (hx : x.toNat < 2 ^ width) : (marker ||| x) &&& ~~~mask = x := by
  rw [BitVec.and_or_distrib_right, f.marker_and_not_mask, f.payload_eq_self hx, BitVec.zero_or]

omit f in
/-- A byte that matches a format is the format's marker with the byte's payload. -/
theorem marker_or_payload (h : b &&& mask = marker) : marker ||| (b &&& ~~~mask) = b := by
  rw [← h, ← BitVec.and_or_distrib_left, BitVec.or_not_self, BitVec.and_allOnes]

theorem toNat_marker_or (hx : x.toNat < 2 ^ width) : (marker ||| x).toNat = marker.toNat + x.toNat := by
  have hdisjoint : marker &&& x = 0#8 := by
    rw [← f.marker_and_mask, BitVec.and_assoc, BitVec.and_comm mask, f.payload_and_mask hx, BitVec.and_zero]
  rw [← BitVec.add_eq_or_of_and_eq_zero marker x hdisjoint, BitVec.toNat_add_of_and_eq_zero hdisjoint]

/-- The bytes that match a format are the `2 ^ width` values from its marker on. -/
theorem matches_iff_range :
    b &&& mask = marker ↔ marker.toNat ≤ b.toNat ∧ b.toNat < marker.toNat + 2 ^ width := by
  constructor
  · intro h
    have hnat := f.toNat_marker_or (f.payload_lt b)
    have hlt := f.payload_lt b
    rw [marker_or_payload h] at hnat
    omega
  · rintro ⟨hlo, hhi⟩
    have hx : (b - marker).toNat < 2 ^ width := by rw [BitVec.toNat_sub_of_le hlo]; omega
    have hb : b = marker ||| (b - marker) := by
      apply BitVec.eq_of_toNat_eq
      rw [f.toNat_marker_or hx, BitVec.toNat_sub_of_le hlo]
      omega
    rw [hb]
    exact f.matches_marker_or hx

end ByteFormat

/-! ## The patterns are disjoint (R74) -/

/-- Two patterns that one byte matches agree under both masks. -/
theorem patterns_agree {marker' mask' : Byte} (h : b &&& mask = marker) (h' : b &&& mask' = marker') :
    marker &&& mask' = marker' &&& mask := by
  rw [← h, ← h', BitVec.and_assoc, BitVec.and_assoc, BitVec.and_comm mask]

/-- Two classes' patterns disagree under both masks. -/
theorem class_unique (h : b &&& romMask k = romMarker k) (h' : b &&& romMask k' = romMarker k') : k = k' := by
  have hagree := patterns_agree h h'
  revert hagree
  cases k <;> cases k' <;> decide

theorem not_cont_of_lead (h : b &&& romMask k = romMarker k) : b &&& contMask ≠ contMarker := by
  intro hcont
  have hagree := patterns_agree h hcont
  revert hagree
  cases k <;> decide

/-- The first class of an order that leaves none out whose pattern matches is the one whose pattern matches. -/
theorem find?_class_eq_some_iff {order : List LengthClass} (hmem : ∀ k, k ∈ order) :
    (order.find? fun k => (b &&& romMask k) == romMarker k) = some k ↔ b &&& romMask k = romMarker k := by
  constructor
  · intro h
    simpa using List.find?_some h
  · intro h
    obtain ⟨k', hk'⟩ := Option.isSome_iff_exists.mp
      (List.find?_isSome (p := fun k => (b &&& romMask k) == romMarker k).mpr ⟨k, hmem k, beq_iff_eq.mpr h⟩)
    rw [hk', class_unique h (by simpa using List.find?_some hk')]

theorem mem_all_classes (k : LengthClass) : k ∈ LengthClass.all := by cases k <;> decide

theorem classify_eq_some_iff : classify b = some k ↔ b &&& romMask k = romMarker k :=
  find?_class_eq_some_iff mem_all_classes

/-- Settles O4: one byte matches the pattern of at most one class, so the first match of any order is that class. -/
theorem leadingPatternsAreDisjoint : Obligations.LeadingPatternsAreDisjoint := by
  intro b
  refine ⟨fun k k' => class_unique, fun order hperm => Option.ext fun k => ?_⟩
  rw [classify_eq_some_iff]
  exact find?_class_eq_some_iff fun k => hperm.mem_iff.mpr (mem_all_classes k)

/-! ## The role of a byte and its decoding (R72, R73) -/

theorem byteRole_eq_lead_iff : byteRole b = .lead k ↔ b &&& romMask k = romMarker k := by
  rw [← classify_eq_some_iff, byteRole]
  cases classify b with
  | some k' => simp
  | none => cases isCont b <;> simp

theorem byteRole_eq_cont_iff : byteRole b = .cont ↔ b &&& contMask = contMarker := by
  rw [byteRole]
  cases hclass : classify b with
  | some k => simpa using not_cont_of_lead (classify_eq_some_iff.mp hclass)
  | none => simp [isCont]

/-- The byte format of the leading byte of a class. -/
def leadInstr : LengthClass → Byte → Instr
  | .one => .lead1
  | .two => .lead2
  | .three => .lead3
  | .four => .lead4

theorem encode_leadInstr (k : LengthClass) (x : Byte) : encode (leadInstr k x) = .unitByte (romMarker k ||| x) := by
  cases k <;> rfl

theorem leadInstr_wf (k : LengthClass) (x : Byte) : (leadInstr k x).wf = true ↔ x.toNat < 2 ^ romLeadBits k := by
  cases k <;> exact decide_eq_true_iff

theorem decodeByte_of_lead (h : byteRole b = .lead k) : decodeByte b = .ok (leadInstr k (b &&& ~~~romMask k)) := by
  rw [decodeByte, classify_eq_some_iff.mpr (byteRole_eq_lead_iff.mp h)]
  cases k <;> rfl

theorem classify_eq_none_of_not_lead (h : ∀ k, byteRole b ≠ .lead k) : classify b = none :=
  Option.eq_none_iff_forall_ne_some.mpr fun k hk => h k (byteRole_eq_lead_iff.mpr (classify_eq_some_iff.mp hk))

theorem decodeByte_of_cont (h : byteRole b = .cont) : decodeByte b = .ok (.cont (b &&& ~~~contMask)) := by
  have hcont : isCont b = true := by simpa [isCont] using byteRole_eq_cont_iff.mp h
  rw [decodeByte, classify_eq_none_of_not_lead (by simp [h])]
  simp [hcont]

theorem decodeByte_of_noFormat (h : byteRole b = .noFormat) : decodeByte b = .error (.noByteFormat b) := by
  have hcont : isCont b = false := by
    have hne : b &&& contMask ≠ contMarker := fun hb => by simp [byteRole_eq_cont_iff.mpr hb] at h
    simpa [isCont] using hne
  rw [decodeByte, classify_eq_none_of_not_lead (by simp [h])]
  simp [hcont]

/-! ## Decoding and encoding are inverse (R72, R75, R81) -/

theorem decode_encode_leadInstr (hx : x.toNat < 2 ^ romLeadBits k) :
    decode (encode (leadInstr k x)) = .ok (leadInstr k x) := by
  have hrole : byteRole (romMarker k ||| x) = .lead k := byteRole_eq_lead_iff.mpr ((leadFormat k).matches_marker_or hx)
  calc decode (encode (leadInstr k x)) = decodeByte (romMarker k ||| x) := by rw [encode_leadInstr]; rfl
    _ = .ok (leadInstr k ((romMarker k ||| x) &&& ~~~romMask k)) := decodeByte_of_lead hrole
    _ = .ok (leadInstr k x) := by rw [(leadFormat k).payload_marker_or hx]

theorem decode_encode_cont (hx : x.toNat < 2 ^ contBits) : decode (encode (.cont x)) = .ok (.cont x) := by
  have hrole : byteRole (contMarker ||| x) = .cont := byteRole_eq_cont_iff.mpr (contFormat.matches_marker_or hx)
  calc decode (encode (.cont x)) = .ok (.cont ((contMarker ||| x) &&& ~~~contMask)) := decodeByte_of_cont hrole
    _ = .ok (.cont x) := by rw [contFormat.payload_marker_or hx]

/-- Settles O2: a command's word is one of three, and a byte format's marker and payload come apart again. -/
theorem decodeOfEncodeIsTheInstruction : Obligations.DecodeOfEncodeIsTheInstruction := by
  intro i hwf
  cases i with
  | clear | decode | encode => rfl
  | lead1 x => exact decode_encode_leadInstr (k := .one) (of_decide_eq_true hwf)
  | lead2 x => exact decode_encode_leadInstr (k := .two) (of_decide_eq_true hwf)
  | lead3 x => exact decode_encode_leadInstr (k := .three) (of_decide_eq_true hwf)
  | lead4 x => exact decode_encode_leadInstr (k := .four) (of_decide_eq_true hwf)
  | cont x => exact decode_encode_cont (of_decide_eq_true hwf)

/-- A byte that decodes is the word of its well-formed instruction. -/
theorem wf_and_encode_of_decodeByte {i : Instr} (h : decodeByte b = .ok i) : i.wf = true ∧ encode i = .unitByte b := by
  cases hrole : byteRole b with
  | lead k =>
    rw [decodeByte_of_lead hrole] at h
    cases h
    rw [leadInstr_wf, encode_leadInstr, ByteFormat.marker_or_payload (byteRole_eq_lead_iff.mp hrole)]
    exact ⟨(leadFormat k).payload_lt b, rfl⟩
  | cont =>
    rw [decodeByte_of_cont hrole] at h
    cases h
    exact ⟨decide_eq_true (contFormat.payload_lt b),
      congrArg Code.unitByte (ByteFormat.marker_or_payload (byteRole_eq_cont_iff.mp hrole))⟩
  | noFormat =>
    rw [decodeByte_of_noFormat hrole] at h
    cases h

/-- Settles O3: by the kind of the word. -/
theorem encodeOfDecodeIsTheWord : Obligations.EncodeOfDecodeIsTheWord := by
  intro c i h
  cases c with
  | command w =>
    rcases decodeCommand_ok h with ⟨rfl, rfl⟩ | ⟨rfl, rfl⟩ | ⟨rfl, rfl⟩
    all_goals exact ⟨rfl, rfl⟩
  | unitByte b => exact wf_and_encode_of_decodeByte h

/-- Settles O1: the accepted words are the words of their instructions (O2); the rejected ones break a check each. -/
theorem wordsOfTheSpecDecode : Obligations.WordsOfTheSpecDecode :=
  have accepted := decodeOfEncodeIsTheInstruction
  ⟨accepted .clear rfl, accepted .decode rfl, accepted .encode rfl, rfl, rfl, accepted (.lead1 0x24#8) rfl,
    accepted (.lead2 0x10#8) rfl, accepted (.lead3 0x02#8) rfl, accepted (.lead4 0x04#8) rfl, accepted (.cont 0x2F#8) rfl,
    rfl⟩

/-! ## The 256 byte values (R73) -/

/-- The bytes of a class are those from its marker on, as many as it has payloads. -/
theorem classify_eq_some_iff_range :
    classify b = some k ↔ (romMarker k).toNat ≤ b.toNat ∧ b.toNat < (romMarker k).toNat + 2 ^ romLeadBits k :=
  classify_eq_some_iff.trans (leadFormat k).matches_iff_range

theorem classify_eq_none_of_outside (h : 0x80 ≤ b.toNat ∧ b.toNat < 0xC0 ∨ 0xF8 ≤ b.toNat) : classify b = none := by
  refine Option.eq_none_iff_forall_ne_some.mpr fun k hk => ?_
  obtain ⟨hlo, hhi⟩ := classify_eq_some_iff_range.mp hk
  cases k <;> simp [romMarker, romLeadBits] at hlo hhi <;> omega

theorem classify_eq_ranges (b : Byte) :
    classify b = if b.toNat < 0x80 then some .one else if b.toNat < 0xC0 then none
      else if b.toNat < 0xE0 then some .two else if b.toNat < 0xF0 then some .three
      else if b.toNat < 0xF8 then some .four else none := by
  split_ifs with h80 hC0 hE0 hF0 hF8
  · exact classify_eq_some_iff_range.mpr ⟨Nat.zero_le _, h80⟩
  · exact classify_eq_none_of_outside (by omega)
  · exact classify_eq_some_iff_range.mpr ⟨Nat.le_of_not_lt hC0, hE0⟩
  · exact classify_eq_some_iff_range.mpr ⟨Nat.le_of_not_lt hE0, hF0⟩
  · exact classify_eq_some_iff_range.mpr ⟨Nat.le_of_not_lt hF0, hF8⟩
  · exact classify_eq_none_of_outside (by omega)

theorem byteRole_eq_cont_iff_range : byteRole b = .cont ↔ 0x80 ≤ b.toNat ∧ b.toNat < 0xC0 :=
  byteRole_eq_cont_iff.trans contFormat.matches_iff_range

/-! ## What the pipeline does on a byte, by its role (R112, R113) -/

theorem runByte_decLead (hrun : s.run = .busy) (hphase : s.phase = .decLead) (b : Byte) :
    runByte b s = decLeadStep (byteRole b) (bytePayload b) s := by
  simp [runByte_eq, consumeByte, hrun, hphase]

theorem runByte_decCont (hrun : s.run = .busy) (hphase : s.phase = .decCont) (b : Byte) :
    runByte b s = decContStep (byteRole b) (bytePayload b) s := by
  simp [runByte_eq, consumeByte, hrun, hphase]

theorem decLeadStep_of_not_lead {r : ByteRole} (hne : s.rdPos ≠ s.nIn) (h : ∀ k, r ≠ .lead k) (x : Byte) :
    decLeadStep r x s = .next (s.raise .decode .invalidLeadByte s.rdPos) := by
  cases r with
  | lead k => exact absurd rfl (h k)
  | cont | noFormat => exact if_neg hne

theorem decContStep_of_not_cont {r : ByteRole} (h : r ≠ .cont) (x : Byte) :
    decContStep r x s = .next (s.raise .decode .invalidContinuationByte s.rdPos) := by
  cases r with
  | cont => exact absurd rfl h
  | lead k => rfl
  | noFormat => rfl

/-- Settles O5: each class and the continuation bytes are a range (`ByteFormat.matches_iff_range`), and the two microsteps
raise their error on the bytes outside. -/
theorem byteValuesFallIntoClasses : Obligations.ByteValuesFallIntoClasses := by
  intro b s
  refine ⟨classify_eq_ranges b, fun hrun hphase hne hnone => ?_, fun hrun hphase hlo hhi => ?_,
    fun hrun hphase hout => ?_⟩
  · have hrole : ∀ k, byteRole b ≠ .lead k := fun k hk => by
      simpa [hnone] using classify_eq_some_iff.mpr (byteRole_eq_lead_iff.mp hk)
    rw [runByte_decLead hrun hphase, decLeadStep_of_not_lead hne hrole]
  · have hrole : byteRole b = .cont := byteRole_eq_cont_iff_range.mpr (by omega)
    rw [runByte_decCont hrun hphase, bytePayload, hrole]
    rfl
  · have hrole : byteRole b ≠ .cont := mt byteRole_eq_cont_iff_range.mp (by omega)
    rw [runByte_decCont hrun hphase, decContStep_of_not_cont hrole]

end Sys2Proof.Machine
end

section
/-! PROOFS. The unit layout (O7, R77 of 30_encoding.md): a marker under which a bit field is OR'd in is the concatenation of
the marker's top bits and the field. -/
namespace Sys2Proof.Machine

theorem append_eq_or {m n : Nat} (p : BitVec m) (f : BitVec n) : p ++ f = (p ++ 0#n) ||| f.setWidth (m + n) := by
  ext i hi
  by_cases hin : i < n
  · simp [BitVec.getElem_append, hin]
  · simp [BitVec.getElem_append, hin, BitVec.getLsbD_of_ge f i (Nat.le_of_not_lt hin)]

/-- A bit field `v[hi:lo]` (R8) is an extraction. -/
theorem bits_eq_extractLsb' (cp : Word) (hi lo : Nat) :
    bits cp hi lo = (cp.extractLsb' lo (hi - lo + 1)).setWidth 32 := by
  apply BitVec.eq_of_getLsbD_eq
  intro i hi32
  have hmask : (BitVec.ofNat 32 (2 ^ (hi - lo + 1) - 1)).getLsbD i = decide (i < hi - lo + 1) := by
    simp only [BitVec.getLsbD_ofNat, Nat.testBit_two_pow_sub_one, hi32, decide_true, Bool.true_and]
  rw [bits, BitVec.getLsbD_and, hmask, Bool.and_comm]
  simp [hi32]

/-- A marker of top bits `p` with a field of `n` bits OR'd in, as R143 and R144 build a byte, is a concatenation. -/
theorem top_or_bits {m n : Nat} (p : BitVec m) (cp : Word) (hi lo : Nat) (hn : hi - lo + 1 = n) (hmn : m + n ≤ 32) :
    (p ++ 0#n) ||| (bits cp hi lo).setWidth (m + n) = p ++ cp.extractLsb' lo n := by
  rw [append_eq_or p (cp.extractLsb' lo n), bits_eq_extractLsb', hn, BitVec.setWidth_setWidth_of_le _ hmn]

theorem packLead_eq_append (cp : Word) :
    packLead .one cp = 0b0#1 ++ cp.extractLsb' 0 7 ∧ packLead .two cp = 0b110#3 ++ cp.extractLsb' 6 5 ∧
      packLead .three cp = 0b1110#4 ++ cp.extractLsb' 12 4 ∧ packLead .four cp = 0b11110#5 ++ cp.extractLsb' 18 3 :=
  ⟨top_or_bits (n := 7) 0b0#1 cp 6 0 rfl (by decide), top_or_bits (n := 5) 0b110#3 cp 10 6 rfl (by decide),
    top_or_bits (n := 4) 0b1110#4 cp 15 12 rfl (by decide), top_or_bits (n := 3) 0b11110#5 cp 20 18 rfl (by decide)⟩

theorem packCont_eq_append (cp : Word) (r : Nat) : packCont cp r = 0b10#2 ++ cp.extractLsb' r 6 :=
  top_or_bits (n := 6) 0b10#2 cp (r + 5) r (by omega) (by decide)

/-- Settles O7: each byte of a row is the leading byte or a continuation byte at the row's bit position. -/
theorem unitLayoutOfEachClass : Obligations.UnitLayoutOfEachClass := by
  intro cp
  obtain ⟨hone, htwo, hthree, hfour⟩ := packLead_eq_append cp
  simp only [← hone, ← htwo, ← hthree, ← hfour, ← packCont_eq_append]
  exact ⟨rfl, rfl, rfl, rfl⟩

end Sys2Proof.Machine
end

section
/-! PROOFS. The statement WAIT of a host program (O60, R83 of 30_encoding.md). -/
namespace Sys2Proof.Machine

/-- WAIT replies STATUS, and is over unless STATE is BUSY. -/
theorem waitTurn_eq_reply (rest : List Input) (s : State) :
    waitTurn rest s = { s with
      replies := .word (s.regValue .status) :: s.replies
      inputs := if s.run = .busy then s.inputs else rest } := by
  by_cases hrun : s.run = .busy
  · rw [waitTurn, if_pos (s.busy_iff.mpr hrun), if_pos hrun]
    rfl
  · rw [waitTurn, if_neg (mt s.busy_iff.mp hrun), if_neg hrun]
    rfl

/-- Settles O60: the host's turn is the WAIT, and the turn's bookkeeping changes the schedule only. -/
theorem waitReadsStatusUntilNotBusy : Obligations.WaitReadsStatusUntilNotBusy := by
  intro s rest hagent hinputs
  obtain ⟨sched, hturn⟩ := afterTurn_eq s
  refine ⟨waitTurn rest { s with sched := sched }, ?_, ?_, ?_⟩
  · rw [step_eq_hostTurn hagent, hturn]
    simp only [hostTurn, hinputs]
  · rw [waitTurn_eq_reply]
    rfl
  · rw [waitTurn_eq_reply]

end Sys2Proof.Machine
end

section
/-! PROOFS. Payload fields and the accumulator (O6, R104 to R108 of 40_decoder.md). A payload is a bit field of its byte, and
a merge appends the field of a continuation byte to the bits gathered so far. -/
namespace Sys2Proof.Machine

variable {marker mask b : Byte} {width : Nat} {acc : AccWord}

/-! ## Payload fields (R104, R105) -/

/-- The payload of a byte format is the low `width` bits of the byte. -/
theorem ByteFormat.toNat_payload (f : ByteFormat marker mask width) (b : Byte) :
    (b &&& ~~~mask).toNat = b.toNat % 2 ^ width := by
  rw [BitVec.toNat_and, f.not_mask, Nat.and_two_pow_sub_one_eq_mod]

theorem leadPayload_eq_field (b : Byte) (k : LengthClass) :
    leadPayload b k = (b.extractLsb' 0 (romLeadBits k)).setWidth 21 := by
  apply BitVec.eq_of_toNat_eq
  rw [leadPayload, BitVec.toNat_setWidth, BitVec.toNat_setWidth, (leadFormat k).toNat_payload,
    BitVec.extractLsb'_toNat, Nat.shiftRight_zero]

theorem toNat_leadPayload (b : Byte) (k : LengthClass) :
    (leadPayload b k).toNat = b.toNat % 2 ^ romLeadBits k := by
  rw [leadPayload, BitVec.toNat_setWidth, (leadFormat k).toNat_payload]
  exact Nat.mod_eq_of_lt ((Nat.mod_le ..).trans_lt (b.isLt.trans_le (by decide)))

theorem toNat_contPayload (b : Byte) : (contPayload b).toNat = b.toNat % 64 := by
  rw [← setWidth_eq_contPayload, BitVec.toNat_setWidth, contFormat.toNat_payload]
  exact Nat.mod_eq_of_lt ((Nat.mod_le ..).trans_lt (b.isLt.trans_le (by decide)))

/-- Settles O6: the payload of every format is a field of as many bits as its mask leaves. -/
theorem payloadsAreTheUnmaskedBits : Obligations.PayloadsAreTheUnmaskedBits := fun b =>
  ⟨leadPayload_eq_field b .one, leadPayload_eq_field b .two, leadPayload_eq_field b .three,
    leadPayload_eq_field b .four, rfl⟩

/-! ## Merging (R107) -/

/-- The accumulator after a valid continuation byte (R107). -/
def mergeCont (acc : AccWord) (b : Byte) : AccWord := (acc <<< contBits) ||| contPayload b

/-- The accumulator after a unit's continuation bytes, from its seed. -/
def mergeConts (acc : AccWord) (conts : List Byte) : AccWord := conts.foldl mergeCont acc

@[simp] theorem mergeConts_nil (acc : AccWord) : mergeConts acc [] = acc := rfl
@[simp] theorem mergeConts_cons (acc : AccWord) (b : Byte) (conts : List Byte) :
    mergeConts acc (b :: conts) = mergeConts (mergeCont acc b) conts := rfl

/-- With six free bits at the top a merge shifts no bit out. -/
theorem toNat_mergeCont (hacc : acc.toNat < 2 ^ 15) (b : Byte) :
    (mergeCont acc b).toNat = 64 * acc.toNat + b.toNat % 64 := by
  have hpay : b.toNat % 64 < 2 ^ contBits := Nat.mod_lt _ (by decide)
  have hshift : acc.toNat <<< contBits = 64 * acc.toNat := by rw [Nat.shiftLeft_eq, Nat.mul_comm]; rfl
  have hroom : 64 * acc.toNat < 2 ^ 21 := by omega
  rw [mergeCont, BitVec.toNat_or, BitVec.toNat_shiftLeft, toNat_contPayload, hshift, Nat.mod_eq_of_lt hroom, ← hshift,
    ← Nat.shiftLeft_add_eq_or_of_lt hpay, hshift]

/-- A merge appends the continuation byte's field to a field that leaves it room. -/
theorem mergeCont_setWidth {m : Nat} (hm : m + 6 ≤ 21) (p : BitVec m) (b : Byte) :
    mergeCont (p.setWidth 21) b = (p ++ b.extractLsb' 0 6).setWidth 21 := by
  have hp : p.toNat < 2 ^ 15 := p.isLt.trans_le (Nat.pow_le_pow_right (by decide) (by omega))
  have hwide : (p.setWidth 21).toNat = p.toNat := by
    rw [BitVec.toNat_setWidth, Nat.mod_eq_of_lt (by omega)]
  have hfield : (b.extractLsb' 0 6).toNat = b.toNat % 64 := by rw [BitVec.extractLsb'_toNat, Nat.shiftRight_zero]
  apply BitVec.eq_of_toNat_eq
  rw [toNat_mergeCont (by omega), hwide, BitVec.toNat_setWidth, BitVec.toNat_append, hfield,
    ← Nat.shiftLeft_add_eq_or_of_lt (Nat.mod_lt _ (by decide)), Nat.shiftLeft_eq]
  omega

/-- A merge uses up the room of one payload. -/
theorem mergeCont_lt {n : Nat} (hn : 6 * (n + 1) ≤ 21) (hacc : acc.toNat < 2 ^ (21 - 6 * (n + 1))) (b : Byte) :
    (mergeCont acc b).toNat < 2 ^ (21 - 6 * n) := by
  rw [mergeCont, ← accMerge_eq_contPayload]
  exact accMerge_lt (Nat.succ_pos n) (by omega) hacc (contFormat.payload_lt b)

/-- The continuation bytes shift out again, and leave the seed. -/
theorem toNat_mergeConts_div (conts : List Byte) (hroom : acc.toNat < 2 ^ (21 - 6 * conts.length))
    (hlen : 6 * conts.length ≤ 21) : (mergeConts acc conts).toNat / 2 ^ (6 * conts.length) = acc.toNat := by
  induction conts generalizing acc with
  | nil => simp
  | cons b conts ih =>
    rw [List.length_cons] at hroom hlen
    have hacc : acc.toNat < 2 ^ 15 := hroom.trans_le (Nat.pow_le_pow_right (by decide) (by omega))
    have hmerge := toNat_mergeCont hacc b
    rw [mergeConts_cons, List.length_cons, Nat.mul_succ, Nat.pow_add, ← Nat.div_div_eq_div_mul,
      ih (mergeCont_lt hlen hroom b) (by omega)]
    omega

end Sys2Proof.Machine
end

section
/-! PROOFS. What `DecodeFn` accepts (O44, O45, O46; R109, R115 to R117 of 40_decoder.md): a sequence of units, each a leading
byte of a class and its continuation bytes, with one word for each unit. -/
namespace Sys2Proof.Machine

/-! ## Units (R102, R109) -/

/-- A leading byte of class `k` and its `k.len - 1` continuation bytes. -/
structure IsUnit (k : LengthClass) (b : Byte) (conts : List Byte) : Prop where
  lead : classify b = some k
  length : conts.length = k.len - 1
  conts : ∀ c ∈ conts, isCont c = true

/-- The accumulator at the end of a unit. -/
def unitAcc (k : LengthClass) (b : Byte) (conts : List Byte) : AccWord := mergeConts (leadPayload b k) conts

/-- `s` is a sequence of units of the classes `ks`, and `ws` the words they give. -/
inductive Decodes : (s : List Byte) → (ks : List LengthClass) → (ws : List Word) → Prop where
  | nil : Decodes [] [] []
  | unit {k b conts rest ks ws} (hunit : IsUnit k b conts) (hrest : Decodes rest ks ws) :
      Decodes (b :: (conts ++ rest)) (k :: ks) (accEmit (unitAcc k b conts) :: ws)

variable {b : Byte} {conts rest s : List Byte} {k : LengthClass} {ks : List LengthClass} {acc acc' : AccWord}
  {ws out out' : List Word} {n pos fuel : Nat}

theorem class_len_pos (k : LengthClass) : 1 ≤ k.len := by cases k <;> decide

theorem romTotalBits_eq (k : LengthClass) : romTotalBits k = romLeadBits k + 6 * (k.len - 1) := by cases k <;> rfl

/-- The loop over a unit's continuation bytes takes just these and merges them. -/
theorem takeConts_eq_ok_iff :
    takeConts n s pos acc = .ok (acc', rest) ↔
      ∃ conts, s = conts ++ rest ∧ conts.length = n ∧ (∀ c ∈ conts, isCont c = true) ∧ acc' = mergeConts acc conts := by
  induction n generalizing s pos acc with
  | zero =>
    simp only [takeConts, Except.ok.injEq, Prod.mk.injEq, List.length_eq_zero_iff]
    constructor
    · rintro ⟨rfl, rfl⟩
      exact ⟨[], rfl, rfl, by simp, rfl⟩
    · rintro ⟨-, rfl, rfl, -, rfl⟩
      exact ⟨rfl, rfl⟩
  | succ n ih =>
    constructor
    · intro h
      cases s with
      | nil => cases h
      | cons c s =>
        rw [takeConts] at h
        split at h
        · next hc =>
          obtain ⟨conts, rfl, rfl, hconts, rfl⟩ := ih.mp h
          exact ⟨c :: conts, rfl, rfl, List.forall_mem_cons.mpr ⟨hc, hconts⟩, rfl⟩
        · cases h
    · rintro ⟨_ | ⟨c, conts⟩, rfl, hlen, hconts, rfl⟩
      · cases hlen
      · obtain ⟨hc, hconts⟩ := List.forall_mem_cons.mp hconts
        rw [List.cons_append, takeConts, if_pos hc]
        exact ih.mpr ⟨conts, rfl, Nat.succ.inj hlen, hconts, rfl⟩

theorem takeConts_length_le (h : takeConts n s pos acc = .ok (acc', rest)) : rest.length ≤ s.length := by
  obtain ⟨conts, rfl, -⟩ := takeConts_eq_ok_iff.mp h
  simp

/-- A seed leaves its unit's continuation bytes their room. -/
theorem IsUnit.room (h : IsUnit k b conts) :
    6 * conts.length ≤ 21 ∧ (leadPayload b k).toNat < 2 ^ (21 - 6 * conts.length) := by
  rw [h.length]
  exact ⟨by cases k <;> decide, accSeed_lt ((leadFormat k).payload_lt b)⟩

/-- Above the bits of its continuation bytes a unit's value is its leading byte's payload. -/
theorem IsUnit.toNat_unitAcc_div (h : IsUnit k b conts) :
    (unitAcc k b conts).toNat / 2 ^ (6 * (k.len - 1)) = b.toNat % 2 ^ romLeadBits k := by
  obtain ⟨hlen, hroom⟩ := h.room
  rw [← h.length, unitAcc, toNat_mergeConts_div conts hroom hlen, toNat_leadPayload]

theorem IsUnit.unitAcc_lt (h : IsUnit k b conts) : (unitAcc k b conts).toNat < 2 ^ romTotalBits k := by
  rw [romTotalBits_eq, Nat.pow_add, ← Nat.div_lt_iff_lt_mul (by positivity), h.toNat_unitAcc_div]
  exact Nat.mod_lt _ (by positivity)

/-! ## A sequence of units (R109) -/

@[simp] theorem decodeUnits_nil (fuel pos : Nat) (out : List Word) : decodeUnits fuel [] pos out = .ok out := by
  cases fuel <;> rfl

/-- An input that converts is a sequence of units. -/
theorem decodes_of_decodeUnits (hfuel : s.length ≤ fuel) (h : decodeUnits fuel s pos out = .ok out') :
    ∃ ws, out' = out ++ ws ∧ Decodes s (unitClassesFrom fuel s) ws := by
  induction fuel generalizing s pos out with
  | zero =>
    obtain rfl := List.eq_nil_of_length_eq_zero (Nat.le_zero.mp hfuel)
    cases h
    exact ⟨[], by simp, .nil⟩
  | succ fuel ih =>
    cases s with
    | nil =>
      cases h
      exact ⟨[], by simp, .nil⟩
    | cons b s =>
      simp only [decodeUnits] at h
      simp only [unitClassesFrom]
      cases hk : classify b with
      | none => simp [hk] at h
      | some k =>
        simp only [hk] at h ⊢
        split at h
        · cases h
        · split at h
          · cases h
          · next acc rest htake =>
            obtain ⟨conts, rfl, hlen, hconts, rfl⟩ := takeConts_eq_ok_iff.mp htake
            have hrest : rest.length ≤ fuel := by
              rw [List.length_cons, List.length_append] at hfuel
              omega
            obtain ⟨ws, rfl, hws⟩ := ih hrest h
            rw [← hlen, List.drop_left]
            exact ⟨accEmit (unitAcc k b conts) :: ws, List.append_assoc .., .unit ⟨hk, hlen, hconts⟩ hws⟩

/-- A sequence of units converts, wherever it stands in the input. -/
theorem Decodes.decodeUnits_eq (h : Decodes s ks ws) (hfuel : s.length ≤ fuel) (pos : Nat) (out : List Word) :
    decodeUnits fuel s pos out = .ok (out ++ ws) := by
  induction h generalizing fuel pos out with
  | nil => simp
  | @unit k b conts rest ks ws hunit hrest ih =>
    have hlen := hunit.length
    rw [List.length_cons, List.length_append] at hfuel
    obtain ⟨fuel, rfl⟩ := Nat.exists_eq_add_one.mpr (show 0 < fuel by omega)
    have hlong : ¬ (b :: (conts ++ rest)).length < k.len := by
      rw [List.length_cons, List.length_append]
      omega
    have htake : takeConts (k.len - 1) (conts ++ rest) (pos + 1) (leadPayload b k) = .ok (unitAcc k b conts, rest) :=
      takeConts_eq_ok_iff.mpr ⟨conts, rfl, hlen, hunit.conts, rfl⟩
    simp only [decodeUnits, hunit.lead, if_neg hlong, htake]
    rw [ih (by omega), List.append_assoc]
    rfl

theorem decodes_of_decodeFn (h : decodeFn s = .ok ws) : Decodes s (unitClasses s) ws := by
  obtain ⟨ws', rfl, hdec⟩ := decodes_of_decodeUnits le_rfl h
  exact hdec

theorem Decodes.decodeFn_eq (h : Decodes s ks ws) : decodeFn s = .ok ws := h.decodeUnits_eq le_rfl 0 []

/-- A unit alone converts to its own word. -/
theorem IsUnit.decodeFn_eq (h : IsUnit k b conts) : decodeFn (b :: conts) = .ok [accEmit (unitAcc k b conts)] := by
  simpa using (Decodes.unit h .nil).decodeFn_eq

/-! ## The words of the units (R115, R116) -/

theorem accEmit_setWidth {m : Nat} (hm : m ≤ 21) (p : BitVec m) : accEmit (p.setWidth 21) = p.setWidth 32 :=
  BitVec.setWidth_setWidth (by omega)

/-- Settles O44: a unit of each class converts, its seed is a field, and each merge appends one. -/
theorem decoderSpellsPayloadBits : Obligations.DecoderSpellsPayloadBits := by
  intro b0 b1 b2 b3
  refine ⟨fun hk => ?_, fun hk h1 => ?_, fun hk h1 h2 => ?_, fun hk h1 h2 h3 => ?_⟩
  · have hunit : IsUnit .one b0 [] := ⟨hk, rfl, by simp⟩
    have hseed : b0 &&& ~~~romMask .one = b0 := by
      simpa [romMarker] using ByteFormat.marker_or_payload (classify_eq_some_iff.mp hk)
    rw [hunit.decodeFn_eq, unitAcc, mergeConts_nil, leadPayload, hseed, accEmit_setWidth (by decide)]
  · have hunit : IsUnit .two b0 [b1] := ⟨hk, rfl, by simp [h1]⟩
    rw [hunit.decodeFn_eq, unitAcc, leadPayload_eq_field]
    simp (disch := decide) only [mergeConts_cons, mergeConts_nil, mergeCont_setWidth, accEmit_setWidth]
    rfl
  · have hunit : IsUnit .three b0 [b1, b2] := ⟨hk, rfl, by simp [h1, h2]⟩
    rw [hunit.decodeFn_eq, unitAcc, leadPayload_eq_field]
    simp (disch := decide) only [mergeConts_cons, mergeConts_nil, mergeCont_setWidth, accEmit_setWidth]
    rfl
  · have hunit : IsUnit .four b0 [b1, b2, b3] := ⟨hk, rfl, by simp [h1, h2, h3]⟩
    rw [hunit.decodeFn_eq, unitAcc, leadPayload_eq_field]
    simp (disch := decide) only [mergeConts_cons, mergeConts_nil, mergeCont_setWidth, accEmit_setWidth]
    rfl

theorem accEmit_top (acc : AccWord) : (accEmit acc).extractLsb' 21 11 = 0#11 := by
  ext i hi
  simp [accEmit]

theorem Decodes.top_bits (h : Decodes s ks ws) : ∀ v ∈ ws, v.extractLsb' 21 11 = 0#11 := by
  induction h with
  | nil => simp
  | unit hunit hrest ih => exact List.forall_mem_cons.mpr ⟨accEmit_top _, ih⟩

/-- Settles O45: a word is a 21-bit accumulator, and a unit's accumulator has its class's bits. -/
theorem decodedValuesFitTheirClass : Obligations.DecodedValuesFitTheirClass := by
  refine ⟨fun s out h => (decodes_of_decodeFn h).top_bits, fun b s rest k pos acc hk h => ?_⟩
  obtain ⟨conts, -, hlen, hconts, rfl⟩ := takeConts_eq_ok_iff.mp h
  exact IsUnit.unitAcc_lt ⟨hk, hlen, hconts⟩

/-! ## The number of words (R117) -/

theorem Decodes.words_length (h : Decodes s ks ws) : ws.length = ks.length := by
  induction h with
  | nil => rfl
  | unit hunit hrest ih => simp [ih]

theorem class_len_eq_one_iff : k.len = 1 ↔ k = .one := by cases k <;> decide

/-- A unit takes at least one byte, and one byte exactly in class 1. -/
theorem Decodes.classes_length (h : Decodes s ks ws) :
    ks.length ≤ s.length ∧ (ks.length = s.length ↔ ∀ k ∈ ks, k = .one) := by
  induction h with
  | nil => simp
  | @unit k b conts rest ks ws hunit hrest ih =>
    obtain ⟨hle, heq⟩ := ih
    have hlen := hunit.length
    have hpos := class_len_pos k
    rw [List.length_cons, List.length_cons, List.length_append, List.forall_mem_cons, ← heq, ← class_len_eq_one_iff]
    omega

/-- Settles O46: a word for each unit, and a byte at least for each. -/
theorem decodeOutputCount : Obligations.DecodeOutputCount := by
  intro s out h
  have hdec := decodes_of_decodeFn h
  rw [hdec.words_length]
  exact ⟨rfl, hdec.classes_length⟩

end Sys2Proof.Machine
end

section
/-! PROOFS. The byte round trip (O47, R118 of 40_decoder.md). Packing a unit's value in the unit's own class gives the unit
back, and the leading byte shows which class the encoder took. -/
namespace Sys2Proof.Machine

variable {b : Byte} {conts s : List Byte} {k : LengthClass} {ks ks' : List LengthClass} {acc : AccWord} {cp : Word}
  {cps : List Word} {out out' : List Byte}

/-! ## Packing (R143, R144) -/

/-- A bit field of at most eight bits, as it is OR'd under a marker. -/
theorem toNat_bits_setWidth (cp : Word) {hi lo n : Nat} (hn : hi - lo + 1 = n) (hn8 : n ≤ 8) :
    ((bits cp hi lo).setWidth 8).toNat = cp.toNat / 2 ^ lo % 2 ^ n := by
  have hfield : cp.toNat / 2 ^ lo % 2 ^ n < 2 ^ 8 :=
    (Nat.mod_lt _ (by positivity)).trans_le (Nat.pow_le_pow_right (by decide) hn8)
  rw [bits_eq_extractLsb', hn, BitVec.toNat_setWidth, BitVec.toNat_setWidth, BitVec.extractLsb'_toNat,
    Nat.shiftRight_eq_div_pow, Nat.mod_eq_of_lt (by omega), Nat.mod_eq_of_lt (hfield.trans (by decide))]

/-- A byte that matches a format is its marker with any field equal to its payload. -/
theorem ByteFormat.marker_or_eq {marker mask x : Byte} {width : Nat} (f : ByteFormat marker mask width)
    (hb : b &&& mask = marker) (hx : x.toNat = b.toNat % 2 ^ width) : marker ||| x = b := by
  rw [BitVec.eq_of_toNat_eq (hx.trans (f.toNat_payload b).symm), marker_or_payload hb]

theorem toNat_leadField (k : LengthClass) (cp : Word) :
    ((bits cp (romTotalBits k - 1) (remainingBits k)).setWidth 8).toNat =
      cp.toNat / 2 ^ remainingBits k % 2 ^ romLeadBits k :=
  toNat_bits_setWidth cp (by cases k <;> rfl) (by cases k <;> decide)

/-- A packed leading byte is one of the class it was packed for. -/
theorem classify_packLead (k : LengthClass) (cp : Word) : classify (packLead k cp) = some k := by
  refine classify_eq_some_iff.mpr ((leadFormat k).matches_marker_or ?_)
  rw [toNat_leadField]
  exact Nat.mod_lt _ (by positivity)

theorem packCont_eq (hcont : isCont b = true) {r : Nat} (hfield : cp.toNat / 2 ^ r % 64 = b.toNat % 64) :
    packCont cp r = b := by
  refine contFormat.marker_or_eq (by simpa [isCont] using hcont) ?_
  rw [toNat_bits_setWidth cp (show r + 5 - r + 1 = 6 by omega) (by decide)]
  exact hfield

theorem remainingBits_eq (k : LengthClass) : remainingBits k = 6 * (k.len - 1) := by cases k <;> rfl

theorem toNat_accEmit (acc : AccWord) : (accEmit acc).toNat = acc.toNat :=
  BitVec.toNat_setWidth_of_le (by decide)

/-! ## A unit packed again (R77, R118) -/

/-- The continuation bytes that were merged are generated again. -/
theorem contBytes_mergeConts (hconts : ∀ c ∈ conts, isCont c = true) (hlen : 6 * conts.length ≤ 21)
    (hroom : acc.toNat < 2 ^ (21 - 6 * conts.length)) :
    contBytes (accEmit (mergeConts acc conts)) conts.length (6 * conts.length) = conts := by
  induction conts generalizing acc with
  | nil => rfl
  | cons c conts ih =>
    obtain ⟨hc, hconts⟩ := List.forall_mem_cons.mp hconts
    rw [List.length_cons] at hlen hroom
    have hacc : acc.toNat < 2 ^ 15 := hroom.trans_le (Nat.pow_le_pow_right (by decide) (by omega))
    have hmerge := toNat_mergeCont hacc c
    have hnext := mergeCont_lt hlen hroom c
    rw [mergeConts_cons, List.length_cons, contBytes, show 6 * (conts.length + 1) - 6 = 6 * conts.length by omega,
      ih hconts (by omega) hnext]
    congr 1
    apply packCont_eq hc
    rw [toNat_accEmit, toNat_mergeConts_div conts hnext (by omega)]
    omega

theorem IsUnit.unitBytes_eq (h : IsUnit k b conts) : unitBytes k (accEmit (unitAcc k b conts)) = b :: conts := by
  have hlead : packLead k (accEmit (unitAcc k b conts)) = b := by
    refine (leadFormat k).marker_or_eq (classify_eq_some_iff.mp h.lead) ?_
    rw [toNat_leadField, toNat_accEmit, remainingBits_eq, h.toNat_unitAcc_div, Nat.mod_mod]
  obtain ⟨hlen, hroom⟩ := h.room
  rw [unitBytes, hlead, remainingBits_eq, ← h.length, unitAcc, contBytes_mergeConts h.conts hlen hroom]

/-- The bytes of the words `cps`, each packed in its class of `ks`. -/
def packUnits (ks : List LengthClass) (cps : List Word) : List Byte := (List.zipWith unitBytes ks cps).flatten

@[simp] theorem packUnits_cons (k : LengthClass) (ks : List LengthClass) (cp : Word) (cps : List Word) :
    packUnits (k :: ks) (cp :: cps) = unitBytes k cp ++ packUnits ks cps := rfl

theorem Decodes.packUnits_eq (h : Decodes s ks cps) : packUnits ks cps = s := by
  induction h with
  | nil => rfl
  | unit hunit hrest ih => rw [packUnits_cons, hunit.unitBytes_eq, ih, List.cons_append]

/-- The bytes show the classes they were packed in. -/
theorem packUnits_injective (hlen : ks.length = cps.length) (hlen' : ks'.length = cps.length)
    (h : packUnits ks cps = packUnits ks' cps) : ks = ks' := by
  induction cps generalizing ks ks' with
  | nil => rw [List.eq_nil_of_length_eq_zero hlen, List.eq_nil_of_length_eq_zero hlen']
  | cons cp cps ih =>
    obtain ⟨k, ks, rfl⟩ := List.exists_cons_of_length_eq_add_one hlen
    obtain ⟨k', ks', rfl⟩ := List.exists_cons_of_length_eq_add_one hlen'
    rw [packUnits_cons, packUnits_cons] at h
    have hlead : packLead k cp = packLead k' cp := (List.cons.inj h).1
    have hk : k = k' := Option.some.inj (by rw [← classify_packLead k cp, hlead, classify_packLead])
    subst hk
    rw [ih (Nat.succ.inj hlen) (Nat.succ.inj hlen') (List.append_cancel_left h)]

/-! ## What `EncodeFn` answers (R145) -/

/-- The encoder packs each word in its magnitude class. -/
theorem encodeWords_eq_ok_iff {i : Nat} :
    encodeWords cps i out = .ok out' ↔
      ∃ ks : List LengthClass, cps.map magClass = ks.map some ∧ out' = out ++ packUnits ks cps := by
  induction cps generalizing i out with
  | nil =>
    constructor
    · rintro ⟨⟩
      exact ⟨[], rfl, (List.append_nil _).symm⟩
    · rintro ⟨ks, -, rfl⟩
      simp [encodeWords, packUnits]
  | cons cp cps ih =>
    simp only [encodeWords, List.map_cons]
    cases magClass cp with
    | none =>
      constructor
      · rintro ⟨⟩
      · rintro ⟨_ | ⟨k, ks⟩, ⟨⟩, -⟩
    | some k =>
      constructor
      · intro h
        obtain ⟨ks, hks, rfl⟩ := ih.mp h
        exact ⟨k :: ks, congrArg (some k :: ·) hks, List.append_assoc ..⟩
      · rintro ⟨_ | ⟨k', ks⟩, hks, rfl⟩
        · cases hks
        · obtain ⟨hk', htail⟩ := List.cons.inj hks
          cases hk'
          exact ih.mpr ⟨ks, htail, (List.append_assoc ..).symm⟩

theorem encodeFn_eq_ok_iff :
    encodeFn cps = .ok out ↔ ∃ ks : List LengthClass, cps.map magClass = ks.map some ∧ out = packUnits ks cps :=
  encodeWords_eq_ok_iff

/-- MagClass refuses exactly the values above the last MAXCP (R141). -/
theorem magClass_eq_none_iff : magClass cp = none ↔ 0x10FFFF < cp.toNat := by
  have hmax (k : LengthClass) : (romMaxCp k).toNat ≤ 0x10FFFF := by cases k <;> decide
  simp only [magClass, List.find?_eq_none, decide_eq_true_eq, Nat.not_le]
  exact ⟨fun h => h .four (mem_all_classes .four), fun h k _ => (hmax k).trans_lt h⟩

theorem exists_magClasses (h : ∀ cp ∈ cps, cp.toNat ≤ 0x10FFFF) :
    ∃ ks : List LengthClass, cps.map magClass = ks.map some := by
  induction cps with
  | nil => exact ⟨[], rfl⟩
  | cons cp cps ih =>
    obtain ⟨hcp, hcps⟩ := List.forall_mem_cons.mp h
    obtain ⟨ks, hks⟩ := ih hcps
    obtain ⟨k, hk⟩ := Option.ne_none_iff_exists'.mp (mt magClass_eq_none_iff.mp (Nat.not_lt.mpr hcp))
    exact ⟨k :: ks, by rw [List.map_cons, List.map_cons, hk, hks]⟩

/-- The first word above the last MAXCP is the one reported (R206). -/
theorem encodeWords_first_error {i j : Nat} (hcp : cps[j]? = some cp) (hlarge : 0x10FFFF < cp.toNat)
    (hbefore : ∀ j' c, j' < j → cps[j']? = some c → c.toNat ≤ 0x10FFFF) :
    encodeWords cps i out = .err .codePointOutOfRange (i + j) := by
  induction cps generalizing i j out with
  | nil => simp at hcp
  | cons c cps ih =>
    cases j with
    | zero =>
      obtain rfl : c = cp := by simpa using hcp
      simp [encodeWords, magClass_eq_none_iff.mpr hlarge]
    | succ j =>
      have hc : c.toNat ≤ 0x10FFFF := hbefore 0 c (Nat.zero_lt_succ j) rfl
      obtain ⟨k, hk⟩ := Option.ne_none_iff_exists'.mp (mt magClass_eq_none_iff.mp (Nat.not_lt.mpr hc))
      simp only [encodeWords, hk]
      rw [ih hcp fun j' c' hj' => hbefore (j' + 1) c' (Nat.succ_lt_succ hj'), Nat.add_right_comm, Nat.add_assoc]

/-! ## The round trip (R118) -/

/-- The bytes come back exactly when every unit's class is its word's. -/
theorem Decodes.encodeFn_eq_iff (h : Decodes s ks cps) : encodeFn cps = .ok s ↔ cps.map magClass = ks.map some := by
  rw [encodeFn_eq_ok_iff]
  constructor
  · rintro ⟨ks', hks', hs⟩
    have hlen' : ks'.length = cps.length := by simpa using (congrArg List.length hks').symm
    rw [packUnits_injective h.words_length.symm hlen' (h.packUnits_eq.trans hs), hks']
  · intro hks
    exact ⟨ks, hks, h.packUnits_eq.symm⟩

/-- Settles O47: the encoder succeeds where no word is too large, and gives the same bytes exactly for minimal units. -/
theorem byteRoundTrip : Obligations.ByteRoundTrip := by
  intro b cps h
  have hiff := (decodes_of_decodeFn h).encodeFn_eq_iff
  refine ⟨hiff, fun hrange hne => ?_, fun i cp hcp hlarge hbefore => ?_⟩
  · obtain ⟨ks, hks⟩ := exists_magClasses hrange
    have henc : encodeFn cps = .ok (packUnits ks cps) := encodeFn_eq_ok_iff.mpr ⟨ks, hks, rfl⟩
    exact ⟨packUnits ks cps, henc, fun heq => hne (hiff.mp (heq ▸ henc))⟩
  · rw [encodeFn, encodeWords_first_error hcp hlarge hbefore, Nat.zero_add]

end Sys2Proof.Machine
end

section
/-! PROOFS. The byte formats at the decoder (O17 to O19) and its two microsteps (O20, O23, O24): R106 to R108, R112 and R113
of 40_decoder.md. First what each operation answers where its guards hold, then the microsteps branch by branch. -/
namespace Sys2Proof.Machine

variable {s t : State} {b x : Byte} {k : LengthClass}

/-! ## The pipeline's operations where their guards hold (R106 to R108) -/

theorem consumeByte_decLead (hrun : s.run = .busy) (hphase : s.phase = .decLead) (r : ByteRole) (x : Byte) :
    consumeByte r x s = decLeadStep r x s := by
  simp [consumeByte, hrun, hphase]

theorem consumeByte_decCont (hrun : s.run = .busy) (hphase : s.phase = .decCont) (r : ByteRole) (x : Byte) :
    consumeByte r x s = decContStep r x s := by
  simp [consumeByte, hrun, hphase]

theorem emitWord_in_range (hcap : s.wrPos.toNat < s.cfg.wCap) :
    emitWord s = .next { s.writeWord s.wrPos.toNat (accEmit s.acc) with wrPos := s.wrPos + 1#32 } := if_pos hcap

theorem decLeadStep_of_short (hne : s.rdPos ≠ s.nIn) (hlen : s.nIn.toNat < s.rdPos.toNat + k.len) (x : Byte) :
    decLeadStep (.lead k) x s = .next (s.raise .decode .truncatedSequence s.rdPos) := by
  rw [decLeadStep, if_neg hne]
  exact if_pos hlen

theorem decLeadStep_of_fits (hlen : s.rdPos.toNat + k.len ≤ s.nIn.toNat) (x : Byte) :
    decLeadStep (.lead k) x s = seedUnit k x s := by
  have hpos := class_len_pos k
  rw [decLeadStep, if_neg (fun heq => by rw [heq] at hlen; omega)]
  exact if_neg (Nat.not_lt.mpr hlen)

/-- A 1-byte unit is emitted at once. -/
theorem seedUnit_one (hcap : s.wrPos.toNat < s.cfg.wCap) (x : Byte) :
    seedUnit .one x s =
      .next { s.writeWord s.wrPos.toNat (accEmit (accSeed x)) with
        acc := accSeed x, rdPos := s.rdPos + 1#32, wrPos := s.wrPos + 1#32 } :=
  emitWord_in_range (s := { s with acc := accSeed x, rdPos := s.rdPos + 1#32 }) hcap

/-- A longer unit awaits its continuation bytes. -/
theorem seedUnit_of_ne_one (hk : k ≠ .one) (x : Byte) (s : State) :
    seedUnit k x s =
      .next { s with
        acc := accSeed x, rdPos := s.rdPos + 1#32, rem := BitVec.ofNat 2 (k.len - 1), phase := .decCont } := by
  cases k with
  | one => exact absurd rfl hk
  | two | three | four => rfl

/-- The last continuation byte of a unit emits. -/
theorem mergeUnit_last (hrem : s.rem - 1#2 = 0#2) (hcap : s.wrPos.toNat < s.cfg.wCap) (x : Byte) :
    mergeUnit x s =
      .next { s.writeWord s.wrPos.toNat (accEmit (accMerge s.acc x)) with
        acc := accMerge s.acc x, rdPos := s.rdPos + 1#32, rem := s.rem - 1#2, phase := .decLead,
        wrPos := s.wrPos + 1#32 } := by
  rw [mergeUnit, if_pos hrem]
  exact emitWord_in_range hcap

theorem mergeUnit_not_last (hrem : s.rem - 1#2 ≠ 0#2) (x : Byte) :
    mergeUnit x s =
      .next { s with acc := accMerge s.acc x, rdPos := s.rdPos + 1#32, rem := s.rem - 1#2 } := if_neg hrem

/-! ## The byte formats (R112, R113) -/

/-- Settles O17: the one byte left is the whole unit, which is seeded and emitted. -/
theorem lead1EmitsItsPayload : Obligations.Lead1EmitsItsPayload := by
  intro s x hrun hphase hrd hcap hwf
  have hexec : exec (.lead1 x) s = .next _ :=
    calc exec (.lead1 x) s = decLeadStep (.lead .one) x s := consumeByte_decLead hrun hphase _ x
      _ = seedUnit .one x s := decLeadStep_of_fits (k := .one) hrd x
      _ = _ := seedUnit_one hcap x
  refine ⟨_, hexec, rfl, Memory.wf_write hwf _ _, ?_, fun j hj => ?_⟩
  · exact (s.readWord_writeWord hwf _ _ _).trans ((if_pos rfl).trans (accEmit_setWidth (by decide) x))
  · exact (s.readWord_writeWord hwf _ _ _).trans (if_neg hj)

/-- A leading byte of a longer unit that fits. -/
theorem consumeByte_long_lead (hrun : s.run = .busy) (hphase : s.phase = .decLead) (hk : k ≠ .one)
    (hlen : s.rdPos.toNat + k.len ≤ s.nIn.toNat) (x : Byte) :
    consumeByte (.lead k) x s =
      .next { s with
        acc := accSeed x, rdPos := s.rdPos + 1#32, rem := BitVec.ofNat 2 (k.len - 1), phase := .decCont } := by
  rw [consumeByte_decLead hrun hphase, decLeadStep_of_fits hlen, seedUnit_of_ne_one hk]

/-- Settles O18: the three formats are the three classes of more than one byte. -/
theorem longLeadsSeedTheAccumulator : Obligations.LongLeadsSeedTheAccumulator := by
  intro s x hrun hphase
  exact ⟨fun hlen => consumeByte_long_lead (k := .two) hrun hphase nofun hlen x,
    fun hlen => consumeByte_long_lead (k := .three) hrun hphase nofun hlen x,
    fun hlen => consumeByte_long_lead (k := .four) hrun hphase nofun hlen x⟩

/-- Settles O19: by whether the byte is the last of its unit. -/
theorem contMergesItsPayload : Obligations.ContMergesItsPayload := by
  intro s x hrun hphase
  have hexec : exec (.cont x) s = mergeUnit x s := consumeByte_decCont hrun hphase .cont x
  rw [hexec]
  refine ⟨fun hrem => ?_, fun hrem hcap hwf => ?_⟩
  · have hmore : s.rem - 1#2 ≠ 0#2 := by
      rw [BitVec.toNat_ne, rem_sub_one_toNat (by omega)]
      simp only [BitVec.toNat_ofNat]
      omega
    exact mergeUnit_not_last hmore x
  · have hlast : s.rem - 1#2 = 0#2 := by rw [hrem]; rfl
    have hexec := mergeUnit_last hlast hcap x
    rw [hlast] at hexec
    refine ⟨_, hexec, rfl, Memory.wf_write hwf _ _, ?_, fun j hj => ?_⟩
    · exact (s.readWord_writeWord hwf _ _ _).trans (if_pos rfl)
    · exact (s.readWord_writeWord hwf _ _ _).trans (if_neg hj)

/-! ## The microsteps on the byte at `rd_pos` -/

theorem byteRole_eq_lead_iff_classify : byteRole b = .lead k ↔ classify b = some k :=
  byteRole_eq_lead_iff.trans classify_eq_some_iff.symm

theorem byteRole_eq_cont_iff_isCont : byteRole b = .cont ↔ isCont b = true :=
  byteRole_eq_cont_iff.trans (by simp [isCont])

theorem accSeed_bytePayload (h : classify b = some k) : accSeed (bytePayload b) = leadPayload b k := by
  rw [bytePayload, byteRole_eq_lead_iff_classify.mpr h]
  rfl

theorem accMerge_bytePayload (h : isCont b = true) (acc : AccWord) : accMerge acc (bytePayload b) = mergeCont acc b := by
  rw [bytePayload, byteRole_eq_cont_iff_isCont.mpr h]
  exact accMerge_eq_contPayload acc b

theorem microstep_decLead (hrun : s.run = .busy) (hphase : s.phase = .decLead) (hne : s.rdPos ≠ s.nIn)
    (hcap : s.rdPos.toNat < s.cfg.bCap) (hb : s.readByte s.rdPos.toNat = b) :
    microstep s = decLeadStep (byteRole b) (bytePayload b) s := by
  rw [microstep_eq_fetchByte hrun (.inl ⟨hphase, hne⟩), fetchByte, if_pos hcap, hb, runByte_decLead hrun hphase]

theorem microstep_decCont (hrun : s.run = .busy) (hphase : s.phase = .decCont)
    (hcap : s.rdPos.toNat < s.cfg.bCap) (hb : s.readByte s.rdPos.toNat = b) :
    microstep s = decContStep (byteRole b) (bytePayload b) s := by
  rw [microstep_eq_fetchByte hrun (.inr hphase), fetchByte, if_pos hcap, hb, runByte_decCont hrun hphase]

/-- Settles O23: by the checks of R112 in their order. -/
theorem decLeadMicrostep : Obligations.DecLeadMicrostep := by
  intro s hrun hphase hcaps
  by_cases hne : s.rdPos = s.nIn
  · rw [if_pos hne]
    exact microstep_of_input_used_up hrun hphase hne
  obtain ⟨hrcap, hwcap⟩ := hcaps hne
  rw [if_neg hne, microstep_decLead hrun hphase hne hrcap rfl]
  generalize s.readByte s.rdPos.toNat = b
  cases hk : classify b with
  | none => exact decLeadStep_of_not_lead hne (fun k hrole => by simp [byteRole_eq_lead_iff_classify.mp hrole] at hk) _
  | some k =>
    rw [byteRole_eq_lead_iff_classify.mpr hk]
    dsimp only
    by_cases hlen : s.nIn.toNat < s.rdPos.toNat + k.len
    · rw [if_pos (by omega), decLeadStep_of_short hne hlen]
    rw [if_neg (by omega), decLeadStep_of_fits (Nat.not_lt.mp hlen), ← accSeed_bytePayload hk]
    by_cases hone : k = .one
    · subst hone
      exact seedUnit_one hwcap _
    · rw [if_neg (mt class_len_eq_one_iff.mp hone)]
      exact seedUnit_of_ne_one hone _ s

/-- Settles O24: by the checks of R113 in their order. -/
theorem decContMicrostep : Obligations.DecContMicrostep := by
  intro s acc hrun hphase hrcap hwcap hacc
  refine ⟨?_, fun hs => hs.fetch_in_input hrun (.inr hphase)⟩
  rw [microstep_decCont hrun hphase hrcap rfl]
  generalize s.readByte s.rdPos.toNat = b at hacc ⊢
  cases hcont : isCont b with
  | false => exact decContStep_of_not_cont (mt byteRole_eq_cont_iff_isCont.mp (by simp [hcont])) _
  | true =>
    have hmerge : acc = accMerge s.acc (bytePayload b) := hacc.trans (accMerge_bytePayload hcont s.acc).symm
    rw [byteRole_eq_cont_iff_isCont.mpr hcont, hmerge]
    simp only [decContStep, Bool.true_eq_false, if_false]
    by_cases hrem : s.rem - 1#2 = 0#2
    · rw [if_pos hrem]
      exact mergeUnit_last hrem hwcap _
    · rw [if_neg hrem]
      exact mergeUnit_not_last hrem _

/-- Settles O20: the byte is merged, and the invariant keeps the accumulator's six top bits free. -/
theorem accumulatorLosesNoBit : Obligations.AccumulatorLosesNoBit := by
  intro s t hs hrun hphase hcont h
  obtain ⟨-, hrem, -, -, hacc⟩ := hs.decCont hrun hphase
  have hroom : s.acc.toNat < 2 ^ 15 := hacc.trans_le (Nat.pow_le_pow_right (by decide) (by omega))
  have hmerge : t.acc = mergeCont s.acc (s.readByte s.rdPos.toNat) := by
    rw [microstep_eq_fetchByte hrun (.inr hphase)] at h
    obtain ⟨-, h⟩ := fetchByte_next h
    rw [consumeByte_decCont hrun hphase, byteRole_eq_cont_iff_isCont.mpr hcont] at h
    rw [← accMerge_bytePayload hcont]
    rcases mergeUnit_next h with ⟨-, -, rfl⟩ | ⟨-, rfl⟩ <;> rfl
  rw [hmerge]
  exact ⟨rfl, toNat_mergeCont hroom _⟩

end Sys2Proof.Machine
end

section
/-! PROOFS. The microsteps compute `DecodeFn` (O52, R114 of 40_decoder.md). In a running DECODE the bytes left and the
registers fix what `DecodeFn` will answer (`State.decodeResult`); a microstep on a byte of the input takes the byte away and
keeps that answer, or ends the operation with it. -/
namespace Sys2Proof.Machine

variable {s t u : State} {b : Byte} {bs : List Byte} {k : LengthClass} {acc : AccWord} {out : List Word} {n pos fuel : Nat}

/-! ## `DecodeFn` byte by byte (R109) -/

/-- More fuel than bytes changes nothing. -/
theorem decodeUnits_eq_of_le (hfuel : bs.length ≤ fuel) (hn : bs.length ≤ n) :
    decodeUnits fuel bs pos out = decodeUnits n bs pos out := by
  induction fuel generalizing n bs pos out with
  | zero =>
    obtain rfl := List.eq_nil_of_length_eq_zero (Nat.le_zero.mp hfuel)
    rw [decodeUnits_nil, decodeUnits_nil]
  | succ fuel ih =>
    cases bs with
    | nil => rw [decodeUnits_nil, decodeUnits_nil]
    | cons b bs =>
      rw [List.length_cons] at hfuel hn
      obtain ⟨n, rfl⟩ := Nat.exists_eq_add_one.mpr (show 0 < n by omega)
      simp only [decodeUnits]
      cases classify b with
      | none => rfl
      | some k =>
        dsimp only
        cases htake : takeConts (k.len - 1) bs (pos + 1) (leadPayload b k) with
        | error p => rfl
        | ok r =>
          have hrest := takeConts_length_le (rest := r.2) htake
          simp only [ih (n := n) (show r.2.length ≤ fuel by omega) (by omega)]

/-- `DecodeFn` between two units: the bytes `bs` are left, from position `pos` on, and `out` is the output so far. -/
def decodeFrom (bs : List Byte) (pos : Nat) (out : List Word) : CodecResult Word := decodeUnits bs.length bs pos out

/-- `DecodeFn` inside a unit: `n` continuation bytes are awaited. -/
def decodeInside (n : Nat) (bs : List Byte) (pos : Nat) (acc : AccWord) (out : List Word) : CodecResult Word :=
  match takeConts n bs pos acc with
  | .error p => .err .invalidContinuationByte p
  | .ok (acc, rest) => decodeFrom rest (pos + n) (out ++ [accEmit acc])

theorem decodeFrom_nil (pos : Nat) (out : List Word) : decodeFrom [] pos out = .ok out := rfl

theorem decodeFrom_of_no_class (hk : classify b = none) (bs : List Byte) (pos : Nat) (out : List Word) :
    decodeFrom (b :: bs) pos out = .err .invalidLeadByte pos := by
  simp only [decodeFrom, List.length_cons, decodeUnits, hk]

theorem decodeFrom_of_short (hk : classify b = some k) (hlen : bs.length + 1 < k.len) (pos : Nat) (out : List Word) :
    decodeFrom (b :: bs) pos out = .err .truncatedSequence pos := by
  simp only [decodeFrom, List.length_cons, decodeUnits, hk, if_pos hlen]

theorem decodeFrom_of_fits (hk : classify b = some k) (hlen : k.len ≤ bs.length + 1) (pos : Nat) (out : List Word) :
    decodeFrom (b :: bs) pos out = decodeInside (k.len - 1) bs (pos + 1) (leadPayload b k) out := by
  have hpos : pos + k.len = pos + 1 + (k.len - 1) := by have := class_len_pos k; omega
  simp only [decodeFrom, decodeInside, List.length_cons, decodeUnits, hk, if_neg (Nat.not_lt.mpr hlen)]
  cases htake : takeConts (k.len - 1) bs (pos + 1) (leadPayload b k) with
  | error p => rfl
  | ok r => simp only [hpos, decodeUnits_eq_of_le (takeConts_length_le (rest := r.2) htake) le_rfl]

theorem decodeInside_zero (bs : List Byte) (pos : Nat) (acc : AccWord) (out : List Word) :
    decodeInside 0 bs pos acc out = decodeFrom bs pos (out ++ [accEmit acc]) := rfl

theorem decodeInside_of_cont (hb : isCont b = true) (n : Nat) (bs : List Byte) (pos : Nat) (acc : AccWord)
    (out : List Word) :
    decodeInside (n + 1) (b :: bs) pos acc out = decodeInside n bs (pos + 1) (mergeCont acc b) out := by
  simp only [decodeInside, takeConts, hb, if_true, Nat.add_right_comm pos 1 n]
  rfl

theorem decodeInside_of_not_cont (hb : isCont b = false) (n : Nat) (bs : List Byte) (pos : Nat) (acc : AccWord)
    (out : List Word) : decodeInside (n + 1) (b :: bs) pos acc out = .err .invalidContinuationByte pos := by
  simp [decodeInside, takeConts, hb]

/-! ## A running DECODE -/

/-- The input from position `p` on. -/
def State.bytesFrom (t : State) (p : Nat) : List Byte := (t.bytesIn t.nIn.toNat).drop p

/-- The output so far. -/
def State.output (t : State) : List Word := t.wordsIn t.wrPos.toNat

/-- What `DecodeFn` answers, given what has been decoded up to this state. -/
def State.decodeResult (t : State) : CodecResult Word :=
  if t.phase = .decCont then decodeInside t.rem.toNat (t.bytesFrom t.rdPos.toNat) t.rdPos.toNat t.acc t.output
  else decodeFrom (t.bytesFrom t.rdPos.toNat) t.rdPos.toNat t.output

/-- `t` is a state of a DECODE that was started in `s`, and the sequencer moves next: what R56 and R57 keep. -/
structure Decoding (s t : State) : Prop where
  run : t.run = .busy
  nIn : t.nIn = s.inLen
  capacity : t.nIn.toNat ≤ t.cfg.bCap ∧ t.nIn.toNat ≤ t.cfg.wCap
  turn : t.inputs = [] ∨ t.sched = []
  inputs : t.inputs = s.inputs
  bbuf : t.bbuf = s.bbuf
  wf : Memory.wf t.wbuf = true
  above : ∀ j, t.wrPos.toNat ≤ j → t.readWord j = s.readWord j

/-- The positions between two units (R112). -/
structure BetweenUnits (t : State) : Prop where
  phase : t.phase = .decLead
  rdPos : t.rdPos.toNat ≤ t.nIn.toNat
  wrPos : t.wrPos.toNat ≤ t.rdPos.toNat

/-- The positions inside a unit, whose remaining bytes are in the input (R113). -/
structure InsideUnit (t : State) : Prop where
  phase : t.phase = .decCont
  rem : 1 ≤ t.rem.toNat
  rdPos : t.rdPos.toNat + t.rem.toNat ≤ t.nIn.toNat
  wrPos : t.wrPos.toNat + 1 ≤ t.rdPos.toNat

/-- The operation started in `s` has ended in `u` with a result. -/
def DecodeEnds (s u : State) (r : CodecResult Word) : Prop :=
  u.bbuf = s.bbuf ∧ u.inputs = s.inputs ∧
    match r with
    | .ok out =>
      u.run = .doneOk ∧ u.outLen.toNat = out.length ∧ u.wordsIn out.length = out ∧
        ∀ j, out.length ≤ j → u.readWord j = s.readWord j
    | .err e pos =>
      u.run = .doneErr ∧ u.errCode = some e ∧ u.errPos.toNat = pos ∧ u.outLen = 0#32 ∧
        ∀ j, s.inLen.toNat ≤ j → u.readWord j = s.readWord j

/-- One byte of the input is taken, and the result stays. -/
structure TakesByte (s t u : State) : Prop where
  decoding : Decoding s u
  positions : BetweenUnits u ∨ InsideUnit u
  rdPos : u.rdPos.toNat = t.rdPos.toNat + 1
  result : u.decodeResult = t.decodeResult

theorem BetweenUnits.decodeResult_eq (h : BetweenUnits t) :
    t.decodeResult = decodeFrom (t.bytesFrom t.rdPos.toNat) t.rdPos.toNat t.output :=
  if_neg (by rw [h.phase]; decide)

theorem InsideUnit.decodeResult_eq (h : InsideUnit t) :
    t.decodeResult = decodeInside t.rem.toNat (t.bytesFrom t.rdPos.toNat) t.rdPos.toNat t.acc t.output := if_pos h.phase

/-! ## Buffers and registers along the operation -/

theorem bytesFrom_length (t : State) (p : Nat) : (t.bytesFrom p).length = t.nIn.toNat - p := by
  simp [State.bytesFrom, State.bytesIn]

theorem bytesFrom_eq_cons {p : Nat} (hp : p < t.nIn.toNat) :
    t.bytesFrom p = t.readByte p :: t.bytesFrom (p + 1) := by
  have hlen : p < (t.bytesIn t.nIn.toNat).length := by simpa [State.bytesIn] using hp
  rw [State.bytesFrom, List.drop_eq_getElem_cons hlen]
  simp [State.bytesFrom, State.bytesIn]

theorem wordsIn_succ (t : State) (n : Nat) : t.wordsIn (n + 1) = t.wordsIn n ++ [t.readWord n] := by
  simp [State.wordsIn, List.range_succ]

/-- An emitted word is appended to the output. -/
theorem output_writeWord (hwf : Memory.wf t.wbuf = true) {v : Word}
    (hwbuf : u.wbuf = (t.writeWord t.wrPos.toNat v).wbuf) (hwr : u.wrPos.toNat = t.wrPos.toNat + 1) :
    u.output = t.output ++ [v] := by
  have hread (j : Nat) : u.readWord j = if j = t.wrPos.toNat then v else t.readWord j :=
    (congrArg (Memory.read · j) hwbuf).trans (t.readWord_writeWord hwf _ v j)
  have hbelow : u.wordsIn t.wrPos.toNat = t.wordsIn t.wrPos.toNat := by
    refine List.map_congr_left fun j hj => ?_
    rw [hread, if_neg (Nat.ne_of_lt (List.mem_range.mp hj))]
  rw [State.output, hwr, wordsIn_succ, hbelow, hread, if_pos rfl, State.output]

theorem raise_decode_readWord (hwf : Memory.wf t.wbuf = true) (e : CoreError) (p : Word) {j : Nat}
    (hj : t.nIn.toNat ≤ j) : (t.raise .decode e p).readWord j = t.readWord j :=
  (Memory.read_fill _ _ hwf j).trans (if_neg (Nat.not_lt.mpr ((Nat.min_le_left ..).trans hj)))

/-- The registers of the accumulator, the input position and the phase are free to change. -/
theorem Decoding.of_registers (h : Decoding s t) (acc : AccWord) (rdPos : Word) (rem : BitVec 2) (phase : Phase) :
    Decoding s { t with acc := acc, rdPos := rdPos, rem := rem, phase := phase } :=
  ⟨h.run, h.nIn, h.capacity, h.turn, h.inputs, h.bbuf, h.wf, h.above⟩

/-- An emitted word leaves the entries from the next `wr_pos` on. -/
theorem Decoding.of_emit (h : Decoding s t) (hwr : t.wrPos.toNat < t.nIn.toNat) (v : Word) :
    Decoding s { t.writeWord t.wrPos.toNat v with wrPos := t.wrPos + 1#32 } := by
  refine ⟨h.run, h.nIn, h.capacity, h.turn, h.inputs, h.bbuf, Memory.wf_write h.wf _ _, fun j hj => ?_⟩
  have hlt : t.wrPos.toNat < j := by
    rw [toNat_add_one hwr t.nIn.isLt] at hj
    exact hj
  exact (t.readWord_writeWord h.wf _ v j).trans ((if_neg (Nat.ne_of_gt hlt)).trans (h.above j (Nat.le_of_lt hlt)))

/-! ## The microsteps -/

/-- The end of the input (R112). -/
theorem Decoding.ends_at_input_end (h : Decoding s t) (hpos : BetweenUnits t) (hend : t.rdPos = t.nIn) :
    DecodeEnds s (t.finishOk t.wrPos) t.decodeResult := by
  have hleft : t.bytesFrom t.rdPos.toNat = [] :=
    List.eq_nil_of_length_eq_zero (by rw [bytesFrom_length, hend, Nat.sub_self])
  have hlen : t.output.length = t.wrPos.toNat := by simp [State.output, State.wordsIn]
  rw [hpos.decodeResult_eq, hleft, decodeFrom_nil]
  refine ⟨h.bbuf, h.inputs, rfl, hlen.symm, ?_, ?_⟩
  · rw [hlen]; rfl
  · rw [hlen]; exact h.above

/-- An error at `rd_pos` (R207, R208). -/
theorem Decoding.ends_in_error (h : Decoding s t) (hwr : t.wrPos.toNat ≤ t.nIn.toNat) {e : CoreError}
    (hres : t.decodeResult = .err e t.rdPos.toNat) : DecodeEnds s (t.raise .decode e t.rdPos) t.decodeResult := by
  rw [hres]
  refine ⟨h.bbuf, (t.raise_inputs .decode e t.rdPos).trans h.inputs, rfl, rfl, rfl, rfl, fun j hj => ?_⟩
  rw [← h.nIn] at hj
  rw [raise_decode_readWord h.wf _ _ hj, h.above j (hwr.trans hj)]

/-- The last byte of a unit is taken, and its word emitted. -/
theorem Decoding.takes_last_byte (h : Decoding s t) (hrd : t.rdPos.toNat < t.nIn.toNat)
    (hwr : t.wrPos.toNat ≤ t.rdPos.toNat) {acc : AccWord} {phase : Phase} (hphase : phase = .decLead) (rem : BitVec 2)
    (hres : t.decodeResult =
      decodeFrom (t.bytesFrom (t.rdPos.toNat + 1)) (t.rdPos.toNat + 1) (t.output ++ [accEmit acc]))
    (hu : u = { t.writeWord t.wrPos.toNat (accEmit acc) with
      acc := acc, rdPos := t.rdPos + 1#32, rem := rem, phase := phase, wrPos := t.wrPos + 1#32 }) :
    TakesByte s t u := by
  have hrd1 : u.rdPos.toNat = t.rdPos.toNat + 1 := by rw [hu]; exact toNat_add_one hrd t.nIn.isLt
  have hwr1 : u.wrPos.toNat = t.wrPos.toNat + 1 := by rw [hu]; exact toNat_add_one (hwr.trans_lt hrd) t.nIn.isLt
  have hnIn : u.nIn = t.nIn := by rw [hu]; rfl
  have hpos : BetweenUnits u := ⟨by rw [hu]; exact hphase, by rw [hnIn]; omega, by omega⟩
  have hdec : Decoding s u := by rw [hu]; exact (h.of_emit (hwr.trans_lt hrd) _).of_registers _ _ _ _
  have hleft (p : Nat) : u.bytesFrom p = t.bytesFrom p := by rw [hu]; rfl
  refine ⟨hdec, .inl hpos, hrd1, ?_⟩
  rw [hpos.decodeResult_eq, hres, output_writeWord h.wf (by rw [hu]) hwr1, hrd1, hleft]

/-- A byte of a unit is taken, and `rem` more are awaited. -/
theorem Decoding.takes_byte_and_awaits (h : Decoding s t) (hwr : t.wrPos.toNat ≤ t.rdPos.toNat) {acc : AccWord}
    {phase : Phase} (hphase : phase = .decCont) {rem : BitVec 2} (hrem : 1 ≤ rem.toNat)
    (hfits : t.rdPos.toNat + 1 + rem.toNat ≤ t.nIn.toNat)
    (hres : t.decodeResult =
      decodeInside rem.toNat (t.bytesFrom (t.rdPos.toNat + 1)) (t.rdPos.toNat + 1) acc t.output) :
    TakesByte s t { t with acc := acc, rdPos := t.rdPos + 1#32, rem := rem, phase := phase } := by
  have hrd1 := toNat_add_one (v := t.rdPos) (n := t.nIn.toNat) (by omega) t.nIn.isLt
  have hpos : InsideUnit { t with acc := acc, rdPos := t.rdPos + 1#32, rem := rem, phase := phase } :=
    ⟨hphase, hrem, by rw [hrd1]; exact hfits, by rw [hrd1]; exact Nat.succ_le_succ hwr⟩
  refine ⟨h.of_registers _ _ _ _, .inr hpos, hrd1, ?_⟩
  rw [hpos.decodeResult_eq, hres, hrd1]
  rfl

/-- DEC_LEAD on a byte of the input (R112). -/
theorem Decoding.after_decLead (h : Decoding s t) (hpos : BetweenUnits t) (hne : t.rdPos ≠ t.nIn) :
    ∃ u, microstep t = .next u ∧ (DecodeEnds s u t.decodeResult ∨ TakesByte s t u) := by
  have hres := hpos.decodeResult_eq
  obtain ⟨hphase, hrd, hwr⟩ := hpos
  have hlt : t.rdPos.toNat < t.nIn.toNat := Nat.lt_of_le_of_ne hrd (BitVec.toNat_ne.mp hne)
  have hleft := bytesFrom_length t (t.rdPos.toNat + 1)
  rw [bytesFrom_eq_cons hlt] at hres
  rw [microstep_decLead h.run hphase hne (hlt.trans_le h.capacity.1) rfl]
  generalize t.readByte t.rdPos.toNat = b at hres ⊢
  cases hk : classify b with
  | none =>
    have hrole : ∀ k, byteRole b ≠ .lead k := fun k hrole => by simp [byteRole_eq_lead_iff_classify.mp hrole] at hk
    rw [decodeFrom_of_no_class hk] at hres
    exact ⟨_, decLeadStep_of_not_lead hne hrole _, .inl (h.ends_in_error (hwr.trans hrd) hres)⟩
  | some k =>
    rw [byteRole_eq_lead_iff_classify.mpr hk]
    by_cases hshort : t.nIn.toNat < t.rdPos.toNat + k.len
    · rw [decodeFrom_of_short hk (by omega)] at hres
      exact ⟨_, decLeadStep_of_short hne hshort _, .inl (h.ends_in_error (hwr.trans hrd) hres)⟩
    rw [decodeFrom_of_fits hk (by omega), ← accSeed_bytePayload hk] at hres
    rw [decLeadStep_of_fits (Nat.not_lt.mp hshort)]
    by_cases hone : k = .one
    · subst hone
      exact ⟨_, seedUnit_one ((hwr.trans_lt hlt).trans_le h.capacity.2) _,
        .inr (h.takes_last_byte hlt hwr hphase t.rem hres rfl)⟩
    · have hrem : (BitVec.ofNat 2 (k.len - 1)).toNat = k.len - 1 := by cases k <;> decide
      have hlen := mt class_len_eq_one_iff.mp hone
      have hkpos := class_len_pos k
      rw [← hrem] at hres
      exact ⟨_, seedUnit_of_ne_one hone _ t, .inr (h.takes_byte_and_awaits hwr rfl (by omega) (by omega) hres)⟩

/-- DEC_CONT (R113). -/
theorem Decoding.after_decCont (h : Decoding s t) (hpos : InsideUnit t) :
    ∃ u, microstep t = .next u ∧ (DecodeEnds s u t.decodeResult ∨ TakesByte s t u) := by
  have hres := hpos.decodeResult_eq
  obtain ⟨hphase, hrem, hrd, hwr⟩ := hpos
  have hlt : t.rdPos.toNat < t.nIn.toNat := by omega
  have hrem1 := rem_sub_one_toNat hrem
  rw [bytesFrom_eq_cons hlt, ← Nat.sub_add_cancel hrem, ← hrem1] at hres
  rw [microstep_decCont h.run hphase (hlt.trans_le h.capacity.1) rfl]
  generalize t.readByte t.rdPos.toNat = b at hres ⊢
  cases hcont : isCont b with
  | false =>
    have hrole : byteRole b ≠ .cont := mt byteRole_eq_cont_iff_isCont.mp (by simp [hcont])
    rw [decodeInside_of_not_cont hcont] at hres
    exact ⟨_, decContStep_of_not_cont hrole _, .inl (h.ends_in_error (by omega) hres)⟩
  | true =>
    rw [byteRole_eq_cont_iff_isCont.mpr hcont]
    rw [decodeInside_of_cont hcont, ← accMerge_bytePayload hcont] at hres
    by_cases hlast : t.rem - 1#2 = 0#2
    · rw [hlast] at hres
      exact ⟨_, mergeUnit_last hlast (by have := h.capacity.2; omega) _,
        .inr (h.takes_last_byte hlt (by omega) rfl _ hres rfl)⟩
    · have hmore : (t.rem - 1#2).toNat ≠ 0 := BitVec.toNat_ne.mp hlast
      exact ⟨_, mergeUnit_not_last hlast _, .inr (h.takes_byte_and_awaits (by omega) hphase (by omega) (by omega) hres)⟩

/-- A microstep ends the operation with its result, or takes a byte of the input. -/
theorem Decoding.after_microstep (h : Decoding s t) (hpos : BetweenUnits t ∨ InsideUnit t) :
    ∃ u, microstep t = .next u ∧
      (DecodeEnds s u t.decodeResult ∨ t.rdPos.toNat < t.nIn.toNat ∧ TakesByte s t u) := by
  rcases hpos with hpos | hpos
  · by_cases hend : t.rdPos = t.nIn
    · exact ⟨_, microstep_of_input_used_up h.run hpos.phase hend, .inl (h.ends_at_input_end hpos hend)⟩
    · have hlt : t.rdPos.toNat < t.nIn.toNat := Nat.lt_of_le_of_ne hpos.rdPos (BitVec.toNat_ne.mp hend)
      obtain ⟨u, hu, hnext⟩ := h.after_decLead hpos hend
      exact ⟨u, hu, hnext.imp_right fun htakes => ⟨hlt, htakes⟩⟩
  · have hlt : t.rdPos.toNat < t.nIn.toNat := (Nat.lt_add_of_pos_right hpos.rem).trans_le hpos.rdPos
    obtain ⟨u, hu, hnext⟩ := h.after_decCont hpos
    exact ⟨u, hu, hnext.imp_right fun htakes => ⟨hlt, htakes⟩⟩

/-! ## Steps and runs -/

/-- The sequencer's turn is a microstep of a state that differs in the schedule only. -/
theorem Decoding.step_eq (h : Decoding s t) :
    ∃ sched, step t = microstep { t with sched := sched } ∧ Decoding s { t with sched := sched } := by
  have hbusy : t.busy = true := t.busy_iff.mpr h.run
  have hagent : t.nextAgent = .core := by
    rw [State.nextAgent, if_pos hbusy]
    rcases h.turn with hnone | hnone <;> rw [hnone]
    cases t.inputs <;> rfl
  have hturn : t.inputs = [] ∨ t.sched.tail = [] := h.turn.imp_right fun hnone => by rw [hnone]; rfl
  refine ⟨t.sched.tail, ?_, h.run, h.nIn, h.capacity, hturn, h.inputs, h.bbuf, h.wf, h.above⟩
  simp only [step, hagent, State.afterTurn, if_pos hbusy]

theorem Decoding.after_step (h : Decoding s t) (hpos : BetweenUnits t ∨ InsideUnit t) :
    ∃ u, step t = .next u ∧
      (DecodeEnds s u t.decodeResult ∨ t.rdPos.toNat < t.nIn.toNat ∧ TakesByte s t u) := by
  obtain ⟨sched, hstep, hturn⟩ := h.step_eq
  have hposturn : BetweenUnits { t with sched := sched } ∨ InsideUnit { t with sched := sched } :=
    hpos.imp (fun hp => ⟨hp.phase, hp.rdPos, hp.wrPos⟩) (fun hp => ⟨hp.phase, hp.rem, hp.rdPos, hp.wrPos⟩)
  obtain ⟨u, hu, hends | ⟨hlt, htakes⟩⟩ := hturn.after_microstep hposturn
  · exact ⟨u, hstep.trans hu, .inl hends⟩
  · exact ⟨u, hstep.trans hu, .inr ⟨hlt, htakes.decoding, htakes.positions, htakes.rdPos, htakes.result⟩⟩

theorem run_succ_of_step {m : Nat} (h : step t = .next u) :
    Host.Core.run core (m + 1) t = Host.Core.run core m u := by
  simp only [Host.Core.run, show core.step = step from rfl, h]

/-- A running DECODE with `m` bytes left ends within `m + 1` steps. -/
theorem Decoding.ends (m : Nat) (h : Decoding s t) (hpos : BetweenUnits t ∨ InsideUnit t)
    (hm : t.rdPos.toNat + m = s.inLen.toNat) :
    ∃ u j, j ≤ m + 1 ∧ Host.Core.run core j t = .next u ∧ DecodeEnds s u t.decodeResult := by
  induction m generalizing t with
  | zero =>
    obtain ⟨u, hu, hends | ⟨hlt, -⟩⟩ := h.after_step hpos
    · exact ⟨u, 1, le_rfl, run_succ_of_step hu, hends⟩
    · rw [h.nIn] at hlt
      omega
  | succ m ih =>
    obtain ⟨u, hu, hends | ⟨-, htakes⟩⟩ := h.after_step hpos
    · exact ⟨u, 1, by omega, run_succ_of_step hu, hends⟩
    · obtain ⟨v, j, hj, hrun, hends⟩ := ih htakes.decoding htakes.positions (by rw [htakes.rdPos]; omega)
      exact ⟨v, j + 1, Nat.succ_le_succ hj, (run_succ_of_step hu).trans hrun, htakes.result ▸ hends⟩

/-- Settles O52: DECODE leaves all of its input, and what `DecodeFn` answers for it is what the operation ends with. -/
theorem decodeComputesDecodeFn : Obligations.DecodeComputesDecodeFn := by
  intro s n hrun hwf hn hb hw hturn
  subst hn
  have hstart : exec .decode s = .next (s.start .decode) := by
    simp [exec, execDecode, startCommand, State.fits, hrun, hb, hw]
  have hdec : Decoding s (s.start .decode) := ⟨rfl, rfl, ⟨hb, hw⟩, hturn, rfl, rfl, hwf, fun _ _ => rfl⟩
  have hpos : BetweenUnits (s.start .decode) := ⟨rfl, Nat.zero_le _, le_rfl⟩
  have hres : (s.start .decode).decodeResult = decodeFn (s.bytesIn s.inLen.toNat) := hpos.decodeResult_eq
  obtain ⟨u, k, hk, hrunk, hends⟩ := hdec.ends s.inLen.toNat (.inl hpos) (Nat.zero_add _)
  rw [hres] at hends
  exact ⟨s.start .decode, u, k, hstart, hk, hrunk, hends⟩

end Sys2Proof.Machine
end

section
/-! PROOFS. The magnitude classes and what `EncodeFn` answers (O25, O50, O51): R141, R142, R154 and R155 of
41_encoder.md. -/
namespace Sys2Proof.Machine

variable {cp : Word} {cps : List Word} {k k' : LengthClass} {ks : List LengthClass}

/-! ## The magnitude classifier (R141) -/

/-- The classifier takes the first class whose MAXCP admits the value. -/
theorem magClass_eq_ite (cp : Word) :
    magClass cp =
      if cp.toNat ≤ (romMaxCp .one).toNat then some .one else if cp.toNat ≤ (romMaxCp .two).toNat then some .two
      else if cp.toNat ≤ (romMaxCp .three).toNat then some .three
      else if cp.toNat ≤ (romMaxCp .four).toNat then some .four else none := by
  simp only [magClass, LengthClass.all, List.find?_cons, List.find?_nil]
  split_ifs with hone htwo hthree hfour <;> simp only [*, decide_true, decide_false]

/-- Settles O25: the MAXCP of the classes are the ends of the ranges. -/
theorem magnitudeClassRanges : Obligations.MagnitudeClassRanges := magClass_eq_ite

/-- The least value of a magnitude class, one more than the MAXCP before it. -/
def minCp : LengthClass → Nat
  | .one => 0
  | .two => 0x80
  | .three => 0x800
  | .four => 0x10000

theorem magClass_eq_some_iff : magClass cp = some k ↔ minCp k ≤ cp.toNat ∧ cp.toNat ≤ (romMaxCp k).toNat := by
  rw [magnitudeClassRanges cp]
  cases k with
  | one | two | three | four =>
    simp only [minCp, romMaxCp, BitVec.toNat_ofNat]
    split_ifs <;> simp <;> omega

/-- A class's payload bits hold every value of its range (R143). -/
theorem lt_totalBits_of_magClass (h : magClass cp = some k) : cp.toNat < 2 ^ romTotalBits k := by
  have hmax : (romMaxCp k).toNat < 2 ^ romTotalBits k := by cases k <;> decide
  exact (magClass_eq_some_iff.mp h).2.trans_lt hmax

/-- No shorter class's payload bits hold a value of the range. -/
theorem len_le_of_magClass (h : magClass cp = some k) (hlt : cp.toNat < 2 ^ romTotalBits k') : k.len ≤ k'.len := by
  have hmin : minCp k < 2 ^ romTotalBits k' := (magClass_eq_some_iff.mp h).1.trans_lt hlt
  revert hmin
  cases k <;> cases k' <;> decide

/-! ## One word (R154) -/

theorem encodeFn_singleton (h : magClass cp = some k) : encodeFn [cp] = .ok (unitBytes k cp) := by
  simp only [encodeFn, encodeWords, h, List.nil_append]

/-- A single word that is too large is reported at index 0. -/
theorem encodeFn_singleton_of_large (h : 0x10FFFF < cp.toNat) : encodeFn [cp] = .err .codePointOutOfRange 0 :=
  encodeWords_first_error (i := 0) (j := 0) rfl h nofun

/-- Settles O50: a word of some class encodes, any other is too large; the surrogates lie in class 3. -/
theorem encoderRejectsOnlyLargeValues : Obligations.EncoderRejectsOnlyLargeValues := by
  intro cp
  have hsurrogate {w : Word} (hlo : 0xD800 ≤ w.toNat) (hhi : w.toNat ≤ 0xDFFF) :
      encodeFn [w] = .ok (unitBytes .three w) :=
    encodeFn_singleton (magClass_eq_some_iff.mpr ⟨hlo.trans' (by decide), hhi.trans (by decide)⟩)
  refine ⟨⟨fun hle => ?_, fun ⟨b, hb⟩ => ?_⟩, encodeFn_singleton_of_large, hsurrogate,
    hsurrogate (by decide) (by decide)⟩
  · obtain ⟨k, hk⟩ := Option.ne_none_iff_exists'.mp (mt magClass_eq_none_iff.mp (Nat.not_lt.mpr hle))
    exact ⟨unitBytes k cp, encodeFn_singleton hk⟩
  · by_contra hlarge
    rw [encodeFn_singleton_of_large (Nat.not_le.mp hlarge)] at hb
    cases hb

/-! ## The number of bytes (R155) -/

theorem contBytes_length (cp : Word) (n r : Nat) : (contBytes cp n r).length = n := by
  induction n generalizing r with
  | zero => rfl
  | succ n ih => rw [contBytes, List.length_cons, ih]

theorem unitBytes_length (k : LengthClass) (cp : Word) : (unitBytes k cp).length = k.len := by
  rw [unitBytes, List.length_cons, contBytes_length, Nat.sub_add_cancel (class_len_pos k)]

theorem packUnits_length (h : ks.length = cps.length) : (packUnits ks cps).length = (ks.map LengthClass.len).sum := by
  induction ks generalizing cps with
  | nil => rfl
  | cons k ks ih =>
    obtain ⟨cp, cps, rfl⟩ := List.exists_cons_of_length_eq_add_one h.symm
    rw [packUnits_cons, List.length_append, unitBytes_length, ih (Nat.succ.inj h), List.map_cons, List.sum_cons]

/-- Every class has one byte to four. -/
theorem sum_len_bounds (ks : List LengthClass) :
    ks.length ≤ (ks.map LengthClass.len).sum ∧ (ks.map LengthClass.len).sum ≤ 4 * ks.length := by
  induction ks with
  | nil => exact ⟨le_rfl, le_rfl⟩
  | cons k ks ih =>
    have hlen : 1 ≤ k.len ∧ k.len ≤ 4 := by cases k <;> decide
    simp only [List.map_cons, List.sum_cons, List.length_cons]
    omega

/-- Settles O51: each word gives a unit of its magnitude class. -/
theorem encodeOutputCount : Obligations.EncodeOutputCount := by
  intro s out h
  obtain ⟨ks, hks, rfl⟩ := encodeFn_eq_ok_iff.mp h
  have hlen : ks.length = s.length := by simpa using (congrArg List.length hks).symm
  have hlens : (s.map fun cp => ((magClass cp).map LengthClass.len).getD 0) = ks.map LengthClass.len := by
    simpa [Function.comp_def] using congrArg (List.map fun c => (c.map LengthClass.len).getD 0) hks
  rw [packUnits_length hlen, hlens, ← hlen]
  exact ⟨rfl, sum_len_bounds ks⟩

end Sys2Proof.Machine
end

section
/-! PROOFS. The code-point round trip (O49, R152 of 41_encoder.md). The unit packed for a word of its own magnitude class is a
unit the decoder accepts, and its merges give the word back. -/
namespace Sys2Proof.Machine

variable {b : Byte} {cp : Word} {cps : List Word} {k : LengthClass} {ks : List LengthClass} {acc : AccWord} {n r : Nat}

/-! ## The bytes of a unit, unpacked (R143, R144) -/

theorem toNat_contField (cp : Word) (r : Nat) : ((bits cp (r + 5) r).setWidth 8).toNat = cp.toNat / 2 ^ r % 64 :=
  toNat_bits_setWidth cp (n := 6) (by omega) (by decide)

theorem contField_lt (cp : Word) (r : Nat) : ((bits cp (r + 5) r).setWidth 8).toNat < 2 ^ contBits := by
  rw [toNat_contField]
  exact Nat.mod_lt _ (by decide)

theorem isCont_packCont (cp : Word) (r : Nat) : isCont (packCont cp r) = true :=
  beq_iff_eq.mpr (contFormat.matches_marker_or (contField_lt cp r))

theorem toNat_packCont (cp : Word) (r : Nat) : (packCont cp r).toNat = 0x80 + cp.toNat / 2 ^ r % 64 := by
  rw [packCont, contFormat.toNat_marker_or (contField_lt cp r), toNat_contField]
  rfl

theorem isCont_of_mem_contBytes (h : b ∈ contBytes cp n r) : isCont b = true := by
  induction n generalizing r with
  | zero => cases h
  | succ n ih =>
    rcases List.mem_cons.mp h with rfl | h
    · exact isCont_packCont cp _
    · exact ih h

/-- Above the bits of the continuation bytes nothing of a word of the class is lost. -/
theorem leadField_of_magClass (h : magClass cp = some k) :
    ((bits cp (romTotalBits k - 1) (remainingBits k)).setWidth 8).toNat = cp.toNat / 2 ^ remainingBits k ∧
      cp.toNat / 2 ^ remainingBits k < 2 ^ romLeadBits k := by
  have hlt : cp.toNat / 2 ^ remainingBits k < 2 ^ romLeadBits k := by
    rw [Nat.div_lt_iff_lt_mul (by positivity), ← Nat.pow_add, remainingBits_eq, ← romTotalBits_eq]
    exact lt_totalBits_of_magClass h
  rw [toNat_leadField, Nat.mod_eq_of_lt hlt]
  exact ⟨rfl, hlt⟩

theorem toNat_packLead (h : magClass cp = some k) :
    (packLead k cp).toNat = (romMarker k).toNat + cp.toNat / 2 ^ remainingBits k := by
  obtain ⟨hfield, hlt⟩ := leadField_of_magClass h
  rw [packLead, (leadFormat k).toNat_marker_or (hfield ▸ hlt), hfield]

theorem toNat_leadPayload_packLead (h : magClass cp = some k) :
    (leadPayload (packLead k cp) k).toNat = cp.toNat / 2 ^ remainingBits k := by
  obtain ⟨hfield, hlt⟩ := leadField_of_magClass h
  have hpayload : packLead k cp &&& ~~~romMask k = _ := (leadFormat k).payload_marker_or (hfield ▸ hlt)
  rw [leadPayload, hpayload, BitVec.toNat_setWidth_of_le (by decide), hfield]

/-! ## A unit decodes to its word (R152) -/

/-- Merging the continuation bytes of `cp` under its upper bits gives `cp`. -/
theorem toNat_mergeConts_contBytes (hn : 6 * n ≤ 21) (hroom : acc.toNat < 2 ^ (21 - 6 * n))
    (hacc : acc.toNat = cp.toNat / 2 ^ (6 * n)) : (mergeConts acc (contBytes cp n (6 * n))).toNat = cp.toNat := by
  induction n generalizing acc with
  | zero => simpa [contBytes] using hacc
  | succ n ih =>
    have hlow : acc.toNat < 2 ^ 15 := hroom.trans_le (Nat.pow_le_pow_right (by decide) (by omega))
    have hmerge : (mergeCont acc (packCont cp (6 * n))).toNat = cp.toNat / 2 ^ (6 * n) := by
      have hdiv : cp.toNat / 2 ^ (6 * (n + 1)) = cp.toNat / 2 ^ (6 * n) / 64 := by
        rw [Nat.mul_succ, Nat.pow_add, ← Nat.div_div_eq_div_mul]
      rw [toNat_mergeCont hlow, toNat_packCont, hacc, hdiv]
      omega
    rw [contBytes, show 6 * (n + 1) - 6 = 6 * n by omega, mergeConts_cons]
    exact ih (by omega) (mergeCont_lt hn hroom _) hmerge

theorem isUnit_unitBytes (k : LengthClass) (cp : Word) :
    IsUnit k (packLead k cp) (contBytes cp (k.len - 1) (remainingBits k)) :=
  ⟨classify_packLead k cp, contBytes_length .., fun _ => isCont_of_mem_contBytes⟩

theorem accEmit_unitAcc_unitBytes (h : magClass cp = some k) :
    accEmit (unitAcc k (packLead k cp) (contBytes cp (k.len - 1) (remainingBits k))) = cp := by
  obtain ⟨hlen, hroom⟩ := (isUnit_unitBytes k cp).room
  have hseed := toNat_leadPayload_packLead h
  rw [contBytes_length] at hlen hroom
  apply BitVec.eq_of_toNat_eq
  rw [toNat_accEmit, unitAcc, remainingBits_eq]
  exact toNat_mergeConts_contBytes hlen hroom (remainingBits_eq k ▸ hseed)

/-- What the encoder packs is a sequence of units with the same words. -/
theorem decodes_packUnits (h : cps.map magClass = ks.map some) : Decodes (packUnits ks cps) ks cps := by
  induction cps generalizing ks with
  | nil =>
    obtain rfl := List.map_eq_nil_iff.mp h.symm
    exact .nil
  | cons cp cps ih =>
    obtain ⟨k, ks, rfl, hk, hks⟩ := List.map_eq_cons_iff.mp h.symm
    have hunit := Decodes.unit (isUnit_unitBytes k cp) (ih hks.symm)
    rwa [accEmit_unitAcc_unitBytes hk.symm] at hunit

/-- Settles O49: every word in range has a class, and the units packed in these classes decode to the words. -/
theorem codePointRoundTrip : Obligations.CodePointRoundTrip := by
  intro s hs
  obtain ⟨ks, hks⟩ := exists_magClasses hs
  exact ⟨packUnits ks s, encodeFn_eq_ok_iff.mpr ⟨ks, hks, rfl⟩, (decodes_packUnits hks).decodeFn_eq⟩

end Sys2Proof.Machine
end

section
/-! PROOFS. The encoder is minimal (O48, R151 of 41_encoder.md). The class of a word is no longer than any unit that decodes to
it, and the ranges of the magnitude classes shut out the bytes and the pairs of bytes that overlong or too large units have. -/
namespace Sys2Proof.Machine

variable {b c : Byte} {bs : List Byte} {cp : Word} {cps : List Word} {k : LengthClass} {ks ks' : List LengthClass}

/-! ## No shorter bytes -/

/-- A unit is at least as long as its word's magnitude class. -/
theorem IsUnit.len_le (h : IsUnit k b bs) {k' : LengthClass} (hmag : magClass (accEmit (unitAcc k b bs)) = some k') :
    k'.len ≤ k.len :=
  len_le_of_magClass hmag (by rw [toNat_accEmit]; exact h.unitAcc_lt)

theorem Decodes.packUnits_length_le (h : Decodes bs ks' cps) (hks : cps.map magClass = ks.map some) :
    (packUnits ks cps).length ≤ bs.length := by
  induction h generalizing ks with
  | nil =>
    obtain rfl := List.map_eq_nil_iff.mp hks.symm
    exact le_rfl
  | unit hunit hrest ih =>
    obtain ⟨k, ks, rfl, hk, hks⟩ := List.map_eq_cons_iff.mp hks.symm
    have hle := hunit.len_le hk.symm
    have hrestle := ih hks.symm
    have hlen := hunit.length
    rw [packUnits_cons, List.length_append, unitBytes_length, List.length_cons, List.length_append]
    omega

/-! ## The bytes of a unit -/

theorem byte_lt_of_isCont (h : isCont b = true) : b.toNat < 0xC0 :=
  (contFormat.matches_iff_range.mp (beq_iff_eq.mp h)).2

/-- The values a leading byte takes on the range of its class. -/
theorem packLead_bounds (h : magClass cp = some k) :
    (packLead k cp).toNat < 0x80 ∨ 0xC2 ≤ (packLead k cp).toNat ∧ (packLead k cp).toNat ≤ 0xF4 := by
  obtain ⟨hmin, hmax⟩ := magClass_eq_some_iff.mp h
  have hlead := toNat_packLead h
  cases k with
  | one | two | three | four =>
    simp only [minCp, romMaxCp, romMarker, remainingBits, romTotalBits, romLeadBits, BitVec.toNat_ofNat] at hmin hmax hlead
    omega

theorem forall_mem_packUnits {p : Byte → Prop} (hks : cps.map magClass = ks.map some)
    (hunit : ∀ k cp, magClass cp = some k → ∀ b ∈ unitBytes k cp, p b) : ∀ b ∈ packUnits ks cps, p b := by
  induction cps generalizing ks with
  | nil =>
    obtain rfl := List.map_eq_nil_iff.mp hks.symm
    nofun
  | cons cp cps ih =>
    obtain ⟨k, ks, rfl, hk, hks⟩ := List.map_eq_cons_iff.mp hks.symm
    rw [packUnits_cons, List.forall_mem_append]
    exact ⟨hunit k cp hk.symm, ih hks.symm⟩

/-- The bytes 0xC0, 0xC1 and 0xF5 to 0xFF are neither leading bytes of a class's range nor continuation bytes. -/
theorem byte_of_mem_unitBytes (h : magClass cp = some k) (hb : b ∈ unitBytes k cp) :
    b.toNat < 0xC0 ∨ 0xC2 ≤ b.toNat ∧ b.toNat ≤ 0xF4 := by
  rcases List.mem_cons.mp hb with rfl | hb
  · exact (packLead_bounds h).imp_left (Nat.lt_trans · (by decide))
  · exact .inl (byte_lt_of_isCont (isCont_of_mem_contBytes hb))

/-! ## Pairs of bytes -/

/-- The first continuation byte after 0xE0, 0xF0 and 0xF4, as R151 bounds it. -/
structure MinimalPair (b c : Byte) : Prop where
  afterE0 : b.toNat = 0xE0 → 0xA0 ≤ c.toNat
  afterF0 : b.toNat = 0xF0 → 0x90 ≤ c.toNat
  afterF4 : b.toNat = 0xF4 → c.toNat ≤ 0x8F

theorem minimalPair_of_lt (h : b.toNat < 0xE0) (c : Byte) : MinimalPair b c := by
  constructor <;> omega

/-- Where the leading byte is the marker alone, the range's lower end puts a bit into the next byte; under 0xF4 its upper end
keeps all but four out. -/
theorem minimalPair_lead (h : magClass cp = some k) (hk : k ≠ .one) :
    MinimalPair (packLead k cp) (packCont cp (remainingBits k - 6)) := by
  obtain ⟨hmin, hmax⟩ := magClass_eq_some_iff.mp h
  have hlead := toNat_packLead h
  have hcont := toNat_packCont cp (remainingBits k - 6)
  generalize packLead k cp = b at hlead ⊢
  generalize packCont cp (remainingBits k - 6) = c at hcont ⊢
  cases k with
  | one => exact absurd rfl hk
  | two | three | four =>
    simp only [minCp, romMaxCp, romMarker, remainingBits, romTotalBits, romLeadBits, BitVec.toNat_ofNat] at hmin hmax hlead hcont
    constructor <;> omega

theorem isChain_append_of_lt {rest : List Byte} (hbs : ∀ b ∈ bs, b.toNat < 0xE0) (hrest : rest.IsChain MinimalPair) :
    (bs ++ rest).IsChain MinimalPair := by
  refine List.isChain_append.mpr ⟨?_, hrest, fun b hb c _ => minimalPair_of_lt (hbs b (List.mem_of_getLast? hb)) c⟩
  exact (List.pairwise_of_forall_mem_list fun b hb c _ => minimalPair_of_lt (hbs b hb) c).isChain

/-- The leading byte's pair is all that a unit adds. -/
theorem isChain_unitBytes_append {rest : List Byte} (h : magClass cp = some k) (hrest : rest.IsChain MinimalPair) :
    (unitBytes k cp ++ rest).IsChain MinimalPair := by
  have hconts : (contBytes cp (k.len - 1) (remainingBits k) ++ rest).IsChain MinimalPair :=
    isChain_append_of_lt (fun b hb => (byte_lt_of_isCont (isCont_of_mem_contBytes hb)).trans (by decide)) hrest
  refine List.isChain_cons.mpr ⟨fun c hc => ?_, hconts⟩
  by_cases hk : k = .one
  · subst hk
    have hlead : (packLead .one cp).toNat < 0x80 := (classify_eq_some_iff_range.mp (classify_packLead .one cp)).2
    exact minimalPair_of_lt (hlead.trans (by decide)) c
  · obtain rfl : packCont cp (remainingBits k - 6) = c := by
      cases k with
      | one => exact absurd rfl hk
      | two | three | four => exact Option.some.inj hc
    exact minimalPair_lead h hk

theorem isChain_packUnits (hks : cps.map magClass = ks.map some) : (packUnits ks cps).IsChain MinimalPair := by
  induction cps generalizing ks with
  | nil =>
    obtain rfl := List.map_eq_nil_iff.mp hks.symm
    exact .nil
  | cons cp cps ih =>
    obtain ⟨k, ks, rfl, hk, hks⟩ := List.map_eq_cons_iff.mp hks.symm
    exact isChain_unitBytes_append hk.symm (ih hks.symm)

/-- Settles O48: by the classes of the units for the length, and by their ranges for the bytes and the pairs. -/
theorem encoderIsMinimal : Obligations.EncoderIsMinimal := by
  intro s out h
  obtain ⟨ks, hks, rfl⟩ := encodeFn_eq_ok_iff.mp h
  refine ⟨fun b hb => (decodes_of_decodeFn hb).packUnits_length_le hks, fun b hb => ?_, fun i c b hb hc => ?_⟩
  · have hbounds := forall_mem_packUnits hks (fun k cp hk b => byte_of_mem_unitBytes hk) b hb
    simp only [ne_eq, BitVec.toNat_eq, BitVec.toNat_ofNat]
    omega
  · obtain ⟨d, hd, rfl⟩ := Option.map_eq_some_iff.mp hc
    obtain ⟨hi, rfl⟩ := List.getElem?_eq_some_iff.mp hb
    obtain ⟨hi', rfl⟩ := List.getElem?_eq_some_iff.mp hd
    obtain ⟨hE0, hF0, hF4⟩ := List.isChain_iff_getElem.mp (isChain_packUnits hks) i hi'
    exact ⟨fun hb => hE0 (congrArg BitVec.toNat hb), fun hb => hF0 (congrArg BitVec.toNat hb),
      fun hb => hF4 (congrArg BitVec.toNat hb)⟩

end Sys2Proof.Machine
end

section
/-! PROOFS. The encoder's two microsteps branch by branch (O26, O27): R148 and R149 of 41_encoder.md. -/
namespace Sys2Proof.Machine

variable {s : State} {cp : Word} {k : LengthClass}

/-! ## ENC_LEAD (R148) -/

theorem encLeadStep_of_input_used_up (hend : s.rdPos = s.nIn) : encLeadStep s = .next (s.finishOk s.wrPos) := if_pos hend

theorem encLeadStep_of_large (hne : s.rdPos ≠ s.nIn) (hcap : s.rdPos.toNat < s.cfg.wCap)
    (hmag : magClass (s.readWord s.rdPos.toNat) = none) :
    encLeadStep s = .next (s.raise .encode .codePointOutOfRange s.rdPos) := by
  simp only [encLeadStep, if_neg hne, if_pos hcap, hmag]

theorem encLeadStep_of_class (hne : s.rdPos ≠ s.nIn) (hrcap : s.rdPos.toNat < s.cfg.wCap)
    (hwcap : s.wrPos.toNat < s.cfg.bCap) (hmag : magClass (s.readWord s.rdPos.toNat) = some k) :
    encLeadStep s = .next (placeLead k (s.readWord s.rdPos.toNat) s) := by
  simp only [encLeadStep, if_neg hne, if_pos hrcap, if_pos hwcap, hmag]

/-- Settles O26: by the checks of R148 in their order. -/
theorem encLeadMicrostep : Obligations.EncLeadMicrostep := by
  intro s cp hrun hphase hcaps hcp
  subst hcp
  rw [microstep_eq_encLeadStep hrun hphase]
  by_cases hend : s.rdPos = s.nIn
  · rw [if_pos hend, encLeadStep_of_input_used_up hend]
  obtain ⟨hrcap, hwcap⟩ := hcaps hend
  rw [if_neg hend]
  cases hmag : magClass (s.readWord s.rdPos.toNat) with
  | none => exact encLeadStep_of_large hend hrcap hmag
  | some k =>
    rw [encLeadStep_of_class hend hrcap hwcap hmag]
    dsimp only
    by_cases hone : k = .one
    · subst hone
      rfl
    · rw [if_neg (mt class_len_eq_one_iff.mp hone), placeLead_of_ne_one hone]
      rfl

/-! ## ENC_CONT (R149) -/

/-- The continuation byte is CONT_MARKER with the six bits from `r` on (R144). -/
theorem packCont_eq_or (cp : Word) (r : Nat) : packCont cp r = 0x80#8 ||| (cp.extractLsb' r 6).setWidth 8 :=
  (packCont_eq_append cp r).trans (append_eq_or 0b10#2 (cp.extractLsb' r 6))

theorem encContStep_in_range (hcap : s.wrPos.toNat < s.cfg.bCap) : encContStep s = .next (placeCont s) := if_pos hcap

/-- The last continuation byte of a unit. -/
theorem placeCont_last (hrem : s.rem - 1#2 = 0#2) :
    placeCont s =
      { s.writeByte s.wrPos.toNat (packCont s.cpLatch (s.rbits - 6#5).toNat) with
        rbits := s.rbits - 6#5, wrPos := s.wrPos + 1#32, rem := s.rem - 1#2, rdPos := s.rdPos + 1#32,
        phase := .encLead } := by
  simp only [placeCont, if_pos hrem]

theorem placeCont_not_last (hrem : s.rem - 1#2 ≠ 0#2) :
    placeCont s =
      { s.writeByte s.wrPos.toNat (packCont s.cpLatch (s.rbits - 6#5).toNat) with
        rbits := s.rbits - 6#5, wrPos := s.wrPos + 1#32, rem := s.rem - 1#2 } := by
  simp only [placeCont, if_neg hrem]
  rfl

/-- Settles O27: by whether the byte is the last of its unit; the invariant keeps `rbits` at six for each byte left. -/
theorem encContMicrostep : Obligations.EncContMicrostep := by
  intro s hrun hphase hcap
  refine ⟨?_, fun hs => ?_⟩
  · rw [microstep_eq_encContStep hrun hphase, encContStep_in_range hcap, ← packCont_eq_or]
    by_cases hrem : s.rem - 1#2 = 0#2
    · rw [if_pos hrem, placeCont_last hrem]
    · rw [if_neg hrem, placeCont_not_last hrem]
  · obtain ⟨-, -, hrem, hrbits, -⟩ := hs.encCont hrun hphase
    exact ⟨by omega, hrbits⟩

end Sys2Proof.Machine
end

section
/-! PROOFS. The microsteps compute `EncodeFn` (O53, R150 of 41_encoder.md). In a running ENCODE the words left and the
registers fix what `EncodeFn` will answer (`State.encodeResult`); a microstep places one byte and keeps that answer, or ends
the operation with it. -/
namespace Sys2Proof.Machine

variable {s t u : State} {k : LengthClass}

/-! ## A running ENCODE -/

/-- The words of the input from position `p` on. -/
def State.wordsFrom (t : State) (p : Nat) : List Word := (t.wordsIn t.nIn.toNat).drop p

/-- The bytes placed so far. -/
def State.placed (t : State) : List Byte := t.bytesIn t.wrPos.toNat

/-- What `EncodeFn` answers, given what has been encoded up to this state. -/
def State.encodeResult (t : State) : CodecResult Byte :=
  if t.phase = .encCont then
    encodeWords (t.wordsFrom (t.rdPos.toNat + 1)) (t.rdPos.toNat + 1)
      (t.placed ++ contBytes t.cpLatch t.rem.toNat t.rbits.toNat)
  else encodeWords (t.wordsFrom t.rdPos.toNat) t.rdPos.toNat t.placed

/-- `t` is a state of an ENCODE that was started in `s`, and the sequencer moves next: what R56 and R57 keep. -/
structure Encoding (s t : State) : Prop where
  run : t.run = .busy
  nIn : t.nIn = s.inLen
  wCap : t.nIn.toNat ≤ t.cfg.wCap
  bCap : 4 * t.nIn.toNat ≤ t.cfg.bCap
  bCap_lt : t.cfg.bCap < 2 ^ 32
  turn : t.inputs = [] ∨ t.sched = []
  inputs : t.inputs = s.inputs
  wbuf : t.wbuf = s.wbuf
  wf : Memory.wf t.bbuf = true
  above : ∀ j, t.wrPos.toNat ≤ j → t.readByte j = s.readByte j

/-- The positions between two units (R148). -/
structure BetweenEncUnits (t : State) : Prop where
  phase : t.phase = .encLead
  rdPos : t.rdPos.toNat ≤ t.nIn.toNat
  wrPos : t.wrPos.toNat ≤ 4 * t.rdPos.toNat

/-- The positions inside a unit, whose remaining bytes have room (R142, R149). -/
structure InsideEncUnit (t : State) : Prop where
  phase : t.phase = .encCont
  rem : 1 ≤ t.rem.toNat
  rbits : t.rbits.toNat = 6 * t.rem.toNat
  rdPos : t.rdPos.toNat < t.nIn.toNat
  wrPos : t.wrPos.toNat + t.rem.toNat ≤ 4 * t.rdPos.toNat + 4

/-- The operation started in `s` has ended in `u` with a result. -/
def EncodeEnds (s u : State) (r : CodecResult Byte) : Prop :=
  u.wbuf = s.wbuf ∧ u.inputs = s.inputs ∧
    match r with
    | .ok out =>
      u.run = .doneOk ∧ u.outLen.toNat = out.length ∧ u.bytesIn out.length = out ∧
        ∀ j, out.length ≤ j → u.readByte j = s.readByte j
    | .err e pos =>
      u.run = .doneErr ∧ u.errCode = some e ∧ u.errPos.toNat = pos ∧ u.outLen = 0#32 ∧
        ∀ j, 4 * s.inLen.toNat ≤ j → u.readByte j = s.readByte j

/-- One byte of output is placed, and the result stays. -/
structure PlacesByte (s t u : State) : Prop where
  encoding : Encoding s u
  positions : BetweenEncUnits u ∨ InsideEncUnit u
  room : t.wrPos.toNat < 4 * t.nIn.toNat
  wrPos : u.wrPos.toNat = t.wrPos.toNat + 1
  result : u.encodeResult = t.encodeResult

theorem BetweenEncUnits.encodeResult_eq (h : BetweenEncUnits t) :
    t.encodeResult = encodeWords (t.wordsFrom t.rdPos.toNat) t.rdPos.toNat t.placed :=
  if_neg (by rw [h.phase]; decide)

theorem InsideEncUnit.encodeResult_eq (h : InsideEncUnit t) :
    t.encodeResult =
      encodeWords (t.wordsFrom (t.rdPos.toNat + 1)) (t.rdPos.toNat + 1)
        (t.placed ++ contBytes t.cpLatch t.rem.toNat t.rbits.toNat) := if_pos h.phase

/-! ## Buffers and registers along the operation -/

theorem wordsFrom_nIn (t : State) : t.wordsFrom t.nIn.toNat = [] := by
  simp [State.wordsFrom, State.wordsIn]

theorem wordsFrom_eq_cons {p : Nat} (hp : p < t.nIn.toNat) :
    t.wordsFrom p = t.readWord p :: t.wordsFrom (p + 1) := by
  have hlen : p < (t.wordsIn t.nIn.toNat).length := by simpa [State.wordsIn] using hp
  rw [State.wordsFrom, List.drop_eq_getElem_cons hlen]
  simp [State.wordsFrom, State.wordsIn]

theorem bytesIn_succ (t : State) (n : Nat) : t.bytesIn (n + 1) = t.bytesIn n ++ [t.readByte n] := by
  simp [State.bytesIn, List.range_succ]

/-- A byte written at `wr_pos` is appended to the output. -/
theorem placed_writeByte (hwf : Memory.wf t.bbuf = true) {v : Byte}
    (hbbuf : u.bbuf = (t.writeByte t.wrPos.toNat v).bbuf) (hwr : u.wrPos.toNat = t.wrPos.toNat + 1) :
    u.placed = t.placed ++ [v] := by
  have hread (j : Nat) : u.readByte j = if j = t.wrPos.toNat then v else t.readByte j :=
    (congrArg (Memory.read · j) hbbuf).trans (t.readByte_writeByte hwf _ v j)
  have hbelow : u.bytesIn t.wrPos.toNat = t.bytesIn t.wrPos.toNat := by
    refine List.map_congr_left fun j hj => ?_
    rw [hread, if_neg (Nat.ne_of_lt (List.mem_range.mp hj))]
  rw [State.placed, hwr, bytesIn_succ, hbelow, hread, if_pos rfl, State.placed]

theorem raise_encode_readByte (hwf : Memory.wf t.bbuf = true) (e : CoreError) (p : Word) {j : Nat}
    (hj : 4 * t.nIn.toNat ≤ j) : (t.raise .encode e p).readByte j = t.readByte j :=
  (Memory.read_fill _ _ hwf j).trans (if_neg (Nat.not_lt.mpr ((Nat.min_le_left ..).trans hj)))

/-- A byte placed at `wr_pos`, with `wr_pos` advanced: the entries from there on stay, and so does the input. -/
theorem Encoding.of_place (h : Encoding s t) (hroom : t.wrPos.toNat < 4 * t.nIn.toNat) {v : Byte} {rdPos cpLatch : Word}
    {rem : BitVec 2} {rbits : BitVec 5} {phase : Phase}
    (hu : u = { t.writeByte t.wrPos.toNat v with
      wrPos := t.wrPos + 1#32, rdPos := rdPos, rem := rem, cpLatch := cpLatch, rbits := rbits, phase := phase }) :
    Encoding s u ∧ u.wrPos.toNat = t.wrPos.toNat + 1 ∧ u.placed = t.placed ++ [v] ∧
      ∀ p, u.wordsFrom p = t.wordsFrom p := by
  have hwr1 : u.wrPos.toNat = t.wrPos.toNat + 1 := by rw [hu]; exact toNat_add_one (hroom.trans_le h.bCap) h.bCap_lt
  have habove : ∀ j, u.wrPos.toNat ≤ j → u.readByte j = s.readByte j := by
    intro j hj
    rw [hwr1] at hj
    rw [← h.above j (Nat.le_of_lt hj), hu]
    exact (t.readByte_writeByte h.wf _ v j).trans (if_neg (Nat.ne_of_gt hj))
  refine ⟨?_, hwr1, placed_writeByte h.wf (by rw [hu]) hwr1, fun p => by rw [hu]; rfl⟩
  subst hu
  exact ⟨h.run, h.nIn, h.wCap, h.bCap, h.bCap_lt, h.turn, h.inputs, h.wbuf, Memory.wf_write h.wf _ _, habove⟩

/-! ## The microsteps -/

/-- The end of the input (R148). -/
theorem Encoding.ends_at_input_end (h : Encoding s t) (hpos : BetweenEncUnits t) (hend : t.rdPos = t.nIn) :
    EncodeEnds s (t.finishOk t.wrPos) t.encodeResult := by
  have hlen : t.placed.length = t.wrPos.toNat := by simp [State.placed, State.bytesIn]
  rw [hpos.encodeResult_eq, hend, wordsFrom_nIn, encodeWords]
  refine ⟨h.wbuf, h.inputs, rfl, hlen.symm, ?_, ?_⟩
  · rw [hlen]; rfl
  · rw [hlen]; exact h.above

/-- A word of no class (R207, R208). -/
theorem Encoding.ends_in_error (h : Encoding s t) (hwr : t.wrPos.toNat ≤ 4 * t.nIn.toNat)
    (hres : t.encodeResult = .err .codePointOutOfRange t.rdPos.toNat) :
    EncodeEnds s (t.raise .encode .codePointOutOfRange t.rdPos) t.encodeResult := by
  rw [hres]
  refine ⟨h.wbuf, (t.raise_inputs ..).trans h.inputs, rfl, rfl, rfl, rfl, fun j hj => ?_⟩
  rw [← h.nIn] at hj
  rw [raise_encode_readByte h.wf _ _ hj, h.above j (hwr.trans hj)]

/-- The last byte of a unit is placed. -/
theorem Encoding.places_last_byte (h : Encoding s t) (hrd : t.rdPos.toNat < t.nIn.toNat)
    (hwr : t.wrPos.toNat < 4 * t.rdPos.toNat + 4) {v : Byte} {rem : BitVec 2} {cpLatch : Word} {rbits : BitVec 5}
    {phase : Phase} (hphase : phase = .encLead)
    (hres : t.encodeResult =
      encodeWords (t.wordsFrom (t.rdPos.toNat + 1)) (t.rdPos.toNat + 1) (t.placed ++ [v]))
    (hu : u = { t.writeByte t.wrPos.toNat v with
      wrPos := t.wrPos + 1#32, rdPos := t.rdPos + 1#32, rem := rem, cpLatch := cpLatch, rbits := rbits,
      phase := phase }) : PlacesByte s t u := by
  have hroom : t.wrPos.toNat < 4 * t.nIn.toNat := by omega
  obtain ⟨henc, hwr1, hplaced, hleft⟩ := h.of_place hroom hu
  have hrd1 : u.rdPos.toNat = t.rdPos.toNat + 1 := by rw [hu]; exact toNat_add_one hrd t.nIn.isLt
  have hphase' : u.phase = .encLead := by rw [hu]; exact hphase
  have hpos : BetweenEncUnits u := ⟨hphase', by rw [henc.nIn, ← h.nIn]; omega, by omega⟩
  refine ⟨henc, .inl hpos, hroom, hwr1, ?_⟩
  rw [hpos.encodeResult_eq, hres, hplaced, hrd1, hleft]

/-- A byte of a unit is placed, and `rem` more are to come. -/
theorem Encoding.places_byte_and_continues (h : Encoding s t) (hrd : t.rdPos.toNat < t.nIn.toNat) {v : Byte}
    {rem : BitVec 2} {cpLatch : Word} {rbits : BitVec 5} {phase : Phase} (hphase : phase = .encCont)
    (hrem : 1 ≤ rem.toNat) (hrbits : rbits.toNat = 6 * rem.toNat)
    (hwr : t.wrPos.toNat + 1 + rem.toNat ≤ 4 * t.rdPos.toNat + 4)
    (hres : t.encodeResult =
      encodeWords (t.wordsFrom (t.rdPos.toNat + 1)) (t.rdPos.toNat + 1)
        (t.placed ++ v :: contBytes cpLatch rem.toNat rbits.toNat))
    (hu : u = { t.writeByte t.wrPos.toNat v with
      wrPos := t.wrPos + 1#32, rem := rem, cpLatch := cpLatch, rbits := rbits, phase := phase }) :
    PlacesByte s t u := by
  have hroom : t.wrPos.toNat < 4 * t.nIn.toNat := by omega
  obtain ⟨henc, hwr1, hplaced, hleft⟩ := h.of_place hroom hu
  rw [← hwr1] at hwr
  have hpos : InsideEncUnit u := by
    subst hu
    exact ⟨hphase, hrem, hrbits, hrd, hwr⟩
  refine ⟨henc, .inr hpos, hroom, hwr1, ?_⟩
  rw [hpos.encodeResult_eq, hres, hplaced, hleft, List.append_assoc, hu]
  rfl

/-- ENC_LEAD on a word of the input (R148). -/
theorem Encoding.after_encLead (h : Encoding s t) (hpos : BetweenEncUnits t) (hne : t.rdPos ≠ t.nIn) :
    ∃ u, microstep t = .next u ∧ (EncodeEnds s u t.encodeResult ∨ PlacesByte s t u) := by
  have hres := hpos.encodeResult_eq
  obtain ⟨hphase, hrd, hwr⟩ := hpos
  have hlt : t.rdPos.toNat < t.nIn.toNat := Nat.lt_of_le_of_ne hrd (BitVec.toNat_ne.mp hne)
  have hrcap := hlt.trans_le h.wCap
  rw [wordsFrom_eq_cons hlt, encodeWords] at hres
  rw [microstep_eq_encLeadStep h.run hphase]
  cases hmag : magClass (t.readWord t.rdPos.toNat) with
  | none =>
    rw [hmag] at hres
    exact ⟨_, encLeadStep_of_large hne hrcap hmag, .inl (h.ends_in_error (by omega) hres)⟩
  | some k =>
    rw [hmag] at hres
    refine ⟨_, encLeadStep_of_class hne hrcap (by have := h.bCap; omega) hmag, .inr ?_⟩
    by_cases hone : k = .one
    · subst hone
      exact h.places_last_byte hlt (by omega) hphase hres rfl
    · have hlen : 2 ≤ k.len ∧ k.len ≤ 4 := by cases k <;> simp_all [LengthClass.len]
      have hrem : (BitVec.ofNat 2 (k.len - 1)).toNat = k.len - 1 := by cases k <;> decide
      have hrbits : (BitVec.ofNat 5 (remainingBits k)).toNat = remainingBits k := by cases k <;> decide
      refine h.places_byte_and_continues hlt rfl (by omega) ?_ (by omega) ?_ (placeLead_of_ne_one hone _ t)
      · rw [hrbits, hrem, remainingBits_eq]
      · rw [hrbits, hrem]
        exact hres

/-- ENC_CONT (R149). -/
theorem Encoding.after_encCont (h : Encoding s t) (hpos : InsideEncUnit t) :
    ∃ u, microstep t = .next u ∧ PlacesByte s t u := by
  have hres := hpos.encodeResult_eq
  obtain ⟨hphase, hrem, hrbits, hrd, hwr⟩ := hpos
  have hrem1 := rem_sub_one_toNat hrem
  have hrbits1 : (t.rbits - 6#5).toNat = t.rbits.toNat - 6 :=
    BitVec.toNat_sub_of_le (by simp only [BitVec.le_def, BitVec.toNat_ofNat]; omega)
  rw [← Nat.sub_add_cancel hrem, contBytes, ← hrem1, ← hrbits1] at hres
  rw [microstep_eq_encContStep h.run hphase, encContStep_in_range (by have := h.bCap; omega)]
  refine ⟨_, rfl, ?_⟩
  by_cases hlast : t.rem - 1#2 = 0#2
  · rw [hlast] at hres
    exact h.places_last_byte hrd (by omega) rfl hres (placeCont_last hlast)
  · have hmore : (t.rem - 1#2).toNat ≠ 0 := BitVec.toNat_ne.mp hlast
    exact h.places_byte_and_continues hrd hphase (by omega) (by omega) (by omega) hres (placeCont_not_last hlast)

/-- A microstep ends the operation with its result, or places a byte. -/
theorem Encoding.after_microstep (h : Encoding s t) (hpos : BetweenEncUnits t ∨ InsideEncUnit t) :
    ∃ u, microstep t = .next u ∧ (EncodeEnds s u t.encodeResult ∨ PlacesByte s t u) := by
  rcases hpos with hpos | hpos
  · by_cases hend : t.rdPos = t.nIn
    · refine ⟨_, ?_, .inl (h.ends_at_input_end hpos hend)⟩
      rw [microstep_eq_encLeadStep h.run hpos.phase, encLeadStep_of_input_used_up hend]
    · exact h.after_encLead hpos hend
  · obtain ⟨u, hu, hplaces⟩ := h.after_encCont hpos
    exact ⟨u, hu, .inr hplaces⟩

/-! ## Steps and runs -/

/-- The sequencer's turn is a microstep of a state that differs in the schedule only. -/
theorem Encoding.step_eq (h : Encoding s t) :
    ∃ sched, step t = microstep { t with sched := sched } ∧ Encoding s { t with sched := sched } := by
  have hbusy : t.busy = true := t.busy_iff.mpr h.run
  have hagent : t.nextAgent = .core := by
    cases hnext : t.nextAgent with
    | core => rfl
    | host =>
      obtain ⟨a, rest, sched, hinputs, hsched⟩ := nextAgent_host_of_busy hnext h.run
      rcases h.turn with hnone | hnone <;> simp_all
  have hturn : t.inputs = [] ∨ t.sched.tail = [] := h.turn.imp_right fun hnone => by rw [hnone]; rfl
  refine ⟨t.sched.tail, ?_, h.run, h.nIn, h.wCap, h.bCap, h.bCap_lt, hturn, h.inputs, h.wbuf, h.wf, h.above⟩
  simp only [step, hagent, State.afterTurn, if_pos hbusy]

theorem Encoding.after_step (h : Encoding s t) (hpos : BetweenEncUnits t ∨ InsideEncUnit t) :
    ∃ u, step t = .next u ∧ (EncodeEnds s u t.encodeResult ∨ PlacesByte s t u) := by
  obtain ⟨sched, hstep, hturn⟩ := h.step_eq
  have hposturn : BetweenEncUnits { t with sched := sched } ∨ InsideEncUnit { t with sched := sched } :=
    hpos.imp (fun hp => ⟨hp.phase, hp.rdPos, hp.wrPos⟩) (fun hp => ⟨hp.phase, hp.rem, hp.rbits, hp.rdPos, hp.wrPos⟩)
  obtain ⟨u, hu, hends | hplaces⟩ := hturn.after_microstep hposturn
  · exact ⟨u, hstep.trans hu, .inl hends⟩
  · exact ⟨u, hstep.trans hu, .inr ⟨hplaces.encoding, hplaces.positions, hplaces.room, hplaces.wrPos, hplaces.result⟩⟩

/-- A running ENCODE with room for `m` bytes below the output bound ends within `m + 1` steps. -/
theorem Encoding.ends (m : Nat) (h : Encoding s t) (hpos : BetweenEncUnits t ∨ InsideEncUnit t)
    (hm : t.wrPos.toNat + m = 4 * s.inLen.toNat) :
    ∃ u j, j ≤ m + 1 ∧ Host.Core.run core j t = .next u ∧ EncodeEnds s u t.encodeResult := by
  induction m generalizing t with
  | zero =>
    obtain ⟨u, hu, hends | hplaces⟩ := h.after_step hpos
    · exact ⟨u, 1, le_rfl, run_succ_of_step hu, hends⟩
    · have hroom := hplaces.room
      rw [h.nIn] at hroom
      omega
  | succ m ih =>
    obtain ⟨u, hu, hends | hplaces⟩ := h.after_step hpos
    · exact ⟨u, 1, by omega, run_succ_of_step hu, hends⟩
    · obtain ⟨v, j, hj, hrun, hends⟩ := ih hplaces.encoding hplaces.positions (by rw [hplaces.wrPos]; omega)
      exact ⟨v, j + 1, Nat.succ_le_succ hj, (run_succ_of_step hu).trans hrun, hplaces.result ▸ hends⟩

/-- Settles O53: ENCODE leaves all of its input, and what `EncodeFn` answers for it is what the operation ends with. -/
theorem encodeComputesEncodeFn : Obligations.EncodeComputesEncodeFn := by
  intro s n hrun hwf hn hw hb hvalid hturn
  subst hn
  have hstart : exec .encode s = .next (s.start .encode) := by
    simp [exec, execEncode, startCommand, State.fits, hrun, hb, hw]
  have hbCap : s.cfg.bCap < 2 ^ 32 := by
    simp only [Config.valid, Bool.and_eq_true, decide_eq_true_eq] at hvalid
    omega
  have henc : Encoding s (s.start .encode) := ⟨rfl, rfl, hw, hb, hbCap, hturn, rfl, rfl, hwf, fun _ _ => rfl⟩
  have hpos : BetweenEncUnits (s.start .encode) := ⟨rfl, Nat.zero_le _, le_rfl⟩
  have hres : (s.start .encode).encodeResult = encodeFn (s.wordsIn s.inLen.toNat) := hpos.encodeResult_eq
  obtain ⟨u, k, hk, hrunk, hends⟩ := henc.ends (4 * s.inLen.toNat) (.inl hpos) (Nat.zero_add _)
  rw [hres] at hends
  exact ⟨s.start .encode, u, k, hstart, hk, hrunk, hends⟩

end Sys2Proof.Machine
end

section
/-! PROOFS. The commands (O12 to O14) and the host port while an operation runs (O15): R180 to R185 of 42_control.md, R28 of
10_state.md. First what each command answers by the guard it meets. -/
namespace Sys2Proof.Machine

variable {s : State} {op : Op} {v : Word}

/-! ## A command by its guards (R181, R184, R185) -/

theorem State.fits_decode_iff : s.fits .decode = true ↔ s.inLen.toNat ≤ s.cfg.bCap ∧ s.inLen.toNat ≤ s.cfg.wCap := by
  simp [State.fits]

theorem State.fits_encode_iff :
    s.fits .encode = true ↔ s.inLen.toNat ≤ s.cfg.wCap ∧ 4 * s.inLen.toNat ≤ s.cfg.bCap := by
  simp [State.fits]

theorem startCommand_of_fits (hrun : s.run ≠ .busy) (hfits : s.fits op = true) :
    startCommand op s = .next (s.start op) := by
  simp [startCommand, hrun, hfits]

theorem startCommand_of_not_fits (hrun : s.run ≠ .busy) (hfits : ¬s.fits op = true) :
    startCommand op s = .refused .capacityExceeded := by
  simp [startCommand, hrun, hfits]

theorem startCommand_of_busy (hrun : s.run = .busy) (op : Op) : startCommand op s = .refused .commandWhileBusy := by
  simp [startCommand, hrun]

theorem execClear_of_busy (hrun : s.run = .busy) : execClear s = .refused .commandWhileBusy := by
  simp [execClear, hrun]

theorem execClear_of_not_busy (hrun : s.run ≠ .busy) : execClear s = .next s.clearResult := by
  simp [execClear, hrun]

/-- A CMD write runs the command its word decodes to. -/
theorem hostAct_cmd_eq_exec {i : Instr} (h : decode (.command v) = .ok i) (s : State) :
    hostAct (.regWrite 0x00 v) s = exec i s :=
  (hostAct_regWrite .cmd v s).trans (writeCommand_eq_exec h s)

/-- While an operation runs every command is refused. -/
theorem exec_of_decodeCommand_of_busy {i : Instr} (h : decodeCommand v = .ok i) (hrun : s.run = .busy) :
    exec i s = .refused .commandWhileBusy := by
  rcases decodeCommand_ok h with ⟨-, rfl⟩ | ⟨-, rfl⟩ | ⟨-, rfl⟩
  · exact execClear_of_busy hrun
  · exact startCommand_of_busy hrun .decode
  · exact startCommand_of_busy hrun .encode

/-- In IDLE the result registers already hold what CLEAR puts there. -/
theorem Inv.clearResult_of_idle (h : Inv s) (hrun : s.run = .idle) : s.clearResult = s := by
  obtain ⟨hout, herr, -, hlast⟩ := h.result
  obtain ⟨hcode, hpos⟩ := herr (by simp [hrun])
  have hlen : s.outLen = 0#32 := hout (by simp [hrun])
  have hop : s.lastOp = none := hlast.mp hrun
  cases s
  simp only [State.clearResult, State.mk.injEq, true_and, and_true]
  exact ⟨hrun.symm, hop.symm, hlen.symm, hcode.symm, hpos.symm⟩

/-- Settles O12: CLEAR's one guard is BUSY. -/
theorem clearReturnsToIdle : Obligations.ClearReturnsToIdle := by
  intro s
  refine ⟨hostAct_cmd_eq_exec rfl s, execClear_of_not_busy, execClear_of_busy, fun hs hrun => ?_, fun t h => ?_⟩
  · calc exec .clear s = .next s.clearResult := execClear_of_not_busy (by simp [hrun])
      _ = .next s := by rw [hs.clearResult_of_idle hrun]
  · obtain ⟨-, rfl⟩ := execClear_next h
    rfl

/-- Settles O13: both commands are the start once R184's precondition holds. -/
theorem commandsStartAtomically : Obligations.CommandsStartAtomically := by
  intro s hrun
  exact ⟨fun hb hw => startCommand_of_fits (op := .decode) hrun (State.fits_decode_iff.mpr ⟨hb, hw⟩),
    fun hw hb => startCommand_of_fits (op := .encode) hrun (State.fits_encode_iff.mpr ⟨hw, hb⟩)⟩

/-- Settles O14: BUSY is checked first, then R184's precondition. -/
theorem commandsRefused : Obligations.CommandsRefused := by
  intro s
  refine ⟨fun hrun => ⟨startCommand_of_busy hrun .decode, startCommand_of_busy hrun .encode⟩,
    fun hrun hlen => startCommand_of_not_fits (op := .decode) hrun ?_,
    fun hrun hlen => startCommand_of_not_fits (op := .encode) hrun ?_⟩
  · rw [State.fits_decode_iff]
    omega
  · rw [State.fits_encode_iff]
    omega

/-! ## The host port while an operation runs (R185) -/

theorem offset_of_regAt {off : Nat} {r : Reg} (h : regAt off = some r) : off = r.offset := by
  by_contra hne
  by_cases hmem : off ∈ [0x00, 0x04, 0x08, 0x0C, 0x10, 0x14]
  · simp only [List.mem_cons, List.not_mem_nil, or_false] at hmem
    rcases hmem with rfl | rfl | rfl | rfl | rfl | rfl <;> cases h <;> exact hne rfl
  · simp [regAt_eq_none hmem] at h

theorem bufferAccess_of_busy (hrun : s.run = .busy) (cap i : Nat) (t : State) :
    bufferAccess cap i s t = .refused .bufferAccessWhileBusy := by
  simp [bufferAccess, hrun]

theorem writeMapped_inLen_of_busy (hrun : s.run = .busy) (v : Word) :
    writeMapped .inLen v s = .refused .inLenWriteWhileBusy := by
  simp [writeMapped, hrun]

theorem writeMapped_read_only {r : Reg} (hcmd : r ≠ .cmd) (hlen : r ≠ .inLen) (v : Word) (s : State) :
    writeMapped r v s = .next s := by
  cases r with
  | cmd => exact absurd rfl hcmd
  | inLen => exact absurd rfl hlen
  | status | outLen | errCode | errPos => rfl

theorem writeCommand_of_reserved {e : DecodeRefusal} (h : decodeCommand v = .error e) (s : State) :
    writeCommand v s = .refused .reservedCommand := by
  simp only [writeCommand, decode, h]

theorem writeCommand_refused_of_busy (hrun : s.run = .busy) (v : Word) : ∃ why, writeCommand v s = .refused why := by
  cases hdec : decodeCommand v with
  | ok i => exact ⟨_, (writeCommand_eq_exec hdec s).trans (exec_of_decodeCommand_of_busy hdec hrun)⟩
  | error e => exact ⟨_, writeCommand_of_reserved hdec s⟩

/-- A running operation leaves the host the reads of a register and the writes of a read-only one. -/
theorem hostAct_refused_of_busy {a : HostAction} (hrun : s.run = .busy) (hread : ∀ r : Reg, a ≠ .regRead r.offset)
    (hwrite : ∀ (r : Reg) (v : Word), r ≠ .cmd → r ≠ .inLen → a ≠ .regWrite r.offset v) :
    ∃ why, hostAct a s = .refused why := by
  cases a with
  | regRead off =>
    cases hreg : regAt off with
    | none => exact ⟨_, hostAct_regRead_unmapped hreg s⟩
    | some r => exact absurd (congrArg HostAction.regRead (offset_of_regAt hreg)) (hread r)
  | regWrite off v =>
    cases hreg : regAt off with
    | none => exact ⟨_, hostAct_regWrite_unmapped hreg v s⟩
    | some r =>
      obtain rfl := offset_of_regAt hreg
      rw [hostAct_regWrite]
      by_cases hcmd : r = .cmd
      · subst hcmd
        exact writeCommand_refused_of_busy hrun v
      by_cases hlen : r = .inLen
      · subst hlen
        exact ⟨_, writeMapped_inLen_of_busy hrun v⟩
      exact absurd rfl (hwrite r v hcmd hlen)
  | bbufRead | bbufWrite | wbufRead | wbufWrite => exact ⟨_, bufferAccess_of_busy hrun _ _ _⟩

theorem decodeCommand_of_le_two (h : v.toNat ≤ 2) : ∃ i, decodeCommand v = .ok i := by
  have hv : v.toNat = 0 ∨ v.toNat = 1 ∨ v.toNat = 2 := by omega
  replace hv : v = 0#32 ∨ v = 1#32 ∨ v = 2#32 := by simpa [BitVec.toNat_eq] using hv
  rcases hv with rfl | rfl | rfl <;> exact ⟨_, rfl⟩

theorem statusLayout_state : ∀ lastOp state : BitVec 2,
    (((0#28 ++ lastOp) ++ state).setWidth 32).extractLsb' 0 2 = state := by decide

theorem statusLayout_lastOp : ∀ lastOp state : BitVec 2,
    (((0#28 ++ lastOp) ++ state).setWidth 32).extractLsb' 2 2 = lastOp := by decide

/-- STATUS.STATE (R23). -/
theorem regValue_status_state (s : State) : (s.regValue .status).extractLsb' 0 2 = s.run.code := statusLayout_state _ _

/-- R183: a running operation has discarded the result of the one before. -/
theorem Inv.result_of_busy (h : Inv s) (hrun : s.run = .busy) : s.outLen = 0#32 ∧ s.errCode = none ∧ s.errPos = 0#32 := by
  obtain ⟨hout, herr, -⟩ := h.result
  exact ⟨hout (by simp [hrun]), herr (by simp [hrun])⟩

/-- Settles O15: by the action; the reads of the result registers are what the invariant keeps of them while BUSY. -/
theorem hostPortWhileBusy : Obligations.HostPortWhileBusy := by
  intro s hrun
  refine ⟨fun r => hostAct_regRead r s, fun r v hcmd hlen => ?_, fun v hv => ?_, fun v => ?_,
    fun i => ⟨bufferAccess_of_busy hrun _ i _, bufferAccess_of_busy hrun _ i _⟩,
    fun i b v => ⟨bufferAccess_of_busy hrun _ i _, bufferAccess_of_busy hrun _ i _⟩,
    fun a => hostAct_refused_of_busy hrun, ?_, statusLayout_lastOp _ _, fun hs => ?_⟩
  · exact (hostAct_regWrite r v s).trans (writeMapped_read_only hcmd hlen v s)
  · obtain ⟨i, hdec⟩ := decodeCommand_of_le_two hv
    exact (hostAct_cmd_eq_exec hdec s).trans (exec_of_decodeCommand_of_busy hdec hrun)
  · exact (hostAct_regWrite .inLen v s).trans (writeMapped_inLen_of_busy hrun v)
  · rw [regValue_status_state, hrun]
    rfl
  · obtain ⟨hout, hcode, hpos⟩ := hs.result_of_busy hrun
    refine ⟨hout, ?_, hpos⟩
    rw [State.regValue, State.errCodeWord, hcode]
    rfl

end Sys2Proof.Machine
end

section
/-! PROOFS. How STATE changes (O11, O58): R180, R183, R210 and R235. One lemma says which steps change it, for the CMD write that
starts or clears an operation, and for the operation that never shows IDLE. -/
namespace Sys2Proof.Machine

variable {s t u : State} {v : Word}

/-! ## The dispatch of a CMD write (R180) -/

theorem reservedBits_eq_zero_iff : v >>> 2 = 0#32 ↔ v.extractLsb' 2 30 = 0#30 := by
  simp only [BitVec.toNat_eq, BitVec.toNat_ushiftRight, BitVec.extractLsb'_toNat, BitVec.toNat_ofNat]
  have hlt : v.toNat >>> 2 < 2 ^ 30 := by
    rw [Nat.shiftRight_eq_div_pow]
    omega
  rw [Nat.mod_eq_of_lt hlt]

theorem and_three_eq_iff (op : BitVec 2) : v &&& 3#32 = op.setWidth 32 ↔ v.extractLsb' 0 2 = op := by
  have hmask : v.toNat &&& 3 = v.toNat % 2 ^ 2 := Nat.and_two_pow_sub_one_eq_mod v.toNat 2
  have hop : op.toNat % 2 ^ 32 = op.toNat := Nat.mod_eq_of_lt (by omega)
  simp only [BitVec.toNat_eq, BitVec.toNat_and, BitVec.toNat_setWidth, BitVec.extractLsb'_toNat, BitVec.toNat_ofNat,
    Nat.shiftRight_zero, hop]
  rw [← hmask]

/-- A CMD word that R82 reserves: a bit of [31:2] is set, or OP is 3. -/
abbrev ReservedWord (v : Word) : Prop := v.extractLsb' 2 30 ≠ 0#30 ∨ v.extractLsb' 0 2 = 3#2

theorem decodeCommand_of_reserved (h : ReservedWord v) : decodeCommand v = .error (.reservedCommand v) := by
  by_cases hbits : v >>> 2 = 0#32
  · have hop : v &&& 3#32 = 3#32 :=
      (and_three_eq_iff 3#2).mpr (h.resolve_left (not_not.mpr (reservedBits_eq_zero_iff.mp hbits)))
    simp [decodeCommand, hbits, hop]
  · exact if_pos hbits

theorem decodeCommand_of_not_reserved (h : ¬ReservedWord v) :
    decodeCommand v =
      .ok (if v.extractLsb' 0 2 = 0#2 then .clear else if v.extractLsb' 0 2 = 1#2 then .decode else .encode) := by
  obtain ⟨hbits, hthree⟩ := not_or.mp h
  have hop : ∀ op : BitVec 2, op ≠ 3#2 → op = 0#2 ∨ op = 1#2 ∨ op = 2#2 := by decide
  rw [not_not, ← reservedBits_eq_zero_iff] at hbits
  rcases hop _ hthree with hop | hop | hop <;>
    simp [decodeCommand, hbits, hop, (and_three_eq_iff _).mpr hop]

/-- R180's order: a reserved word, then BUSY, then the command of OP. -/
theorem hostAct_cmd_dispatch (v : Word) (s : State) :
    hostAct (.regWrite 0x00 v) s =
      if ReservedWord v then .refused .reservedCommand
      else if s.run = .busy then .refused .commandWhileBusy
      else if v.extractLsb' 0 2 = 0#2 then exec .clear s
      else if v.extractLsb' 0 2 = 1#2 then exec .decode s
      else exec .encode s := by
  by_cases hres : ReservedWord v
  · rw [if_pos hres]
    exact (hostAct_regWrite .cmd v s).trans (writeCommand_of_reserved (decodeCommand_of_reserved hres) s)
  · have hdec := decodeCommand_of_not_reserved hres
    rw [if_neg hres, hostAct_cmd_eq_exec hdec]
    by_cases hrun : s.run = .busy
    · rw [if_pos hrun]
      exact exec_of_decodeCommand_of_busy hdec hrun
    · rw [if_neg hrun, apply_ite (exec · s), apply_ite (exec · s)]

/-! ## The steps that change STATE (R23, R180) -/

/-- The host's next input is the CMD write of `w`. -/
def State.WritesCommand (s : State) (w : Word) : Prop := ∃ rest, s.inputs = .act (.regWrite 0x00 w) :: rest

/-- The host's next input is the reset input. -/
def State.Resets (s : State) : Prop := ∃ rest, s.inputs = .reset :: rest

/-- STATE stays, goes to BUSY by a DECODE or ENCODE command, or to IDLE by a CLEAR command or the reset input. -/
theorem hostTurn_run (h : hostTurn s = .next t) :
    t.run = s.run ∨ (t.run = .busy ∧ ∃ op : Op, s.WritesCommand (op.code.setWidth 32)) ∨
      (t.run = .idle ∧ (s.WritesCommand 0#32 ∨ s.Resets)) := by
  rcases hostTurn_next h with ⟨-, rfl⟩ | ⟨a, rest, hin, h⟩ | ⟨rest, -, rfl⟩ | ⟨rest, hin, rfl⟩
  · exact .inl rfl
  · rcases hostAct_next h with
      rfl | ⟨r, rfl⟩ | ⟨-, v, rfl⟩ | ⟨-, i, v, -, rfl⟩ | ⟨-, i, v, -, rfl⟩ | ⟨-, rfl, rfl⟩ | ⟨-, op, rfl, -, rfl⟩
    case inr.inr.inr.inr.inr.inl => exact .inr (.inr ⟨rfl, .inl ⟨rest, hin⟩⟩)
    case inr.inr.inr.inr.inr.inr => exact .inr (.inl ⟨rfl, op, rest, hin⟩)
    all_goals exact .inl rfl
  · obtain ⟨inputs, replies, heq⟩ := waitTurn_eq rest s
    rw [heq]
    exact .inl rfl
  · exact .inr (.inr ⟨rfl, .inr ⟨rest, hin⟩⟩)

/-- STATE stays, or the operation completes. -/
theorem microstep_run (h : microstep s = .next t) : t.run = s.run ∨ t.run = .doneOk ∨ t.run = .doneErr := by
  rcases microstep_finishes_raises_or_continues h with rfl | ⟨op, e, rfl⟩ | hsame
  · exact .inr (.inl rfl)
  · exact .inr (.inr rfl)
  · exact .inl hsame.run

/-- Everything a step can do to STATE. -/
theorem step_run (h : step s = .next t) :
    t.run = s.run ∨ (t.run = .busy ∧ ∃ op : Op, s.WritesCommand (op.code.setWidth 32)) ∨
      (t.run = .idle ∧ (s.WritesCommand 0#32 ∨ s.Resets)) ∨ t.run = .doneOk ∨ t.run = .doneErr := by
  rcases step_next h with ⟨-, h⟩ | ⟨-, h⟩
  · have hturn := hostTurn_run h
    simp only [State.WritesCommand, State.Resets, State.afterTurn_run, State.afterTurn_inputs] at hturn
    exact hturn.imp_right (.imp_right .inl)
  · have hmicro := microstep_run h
    rw [State.afterTurn_run] at hmicro
    exact hmicro.imp_right fun hdone => .inr (.inr hdone)

/-- Settles O11: the dispatch by the fields of the word, and the changes of STATE to BUSY and to IDLE. -/
theorem cmdWriteDispatch : Obligations.CmdWriteDispatch := by
  intro s v
  refine ⟨hostAct_cmd_dispatch v s, fun t h hne hbusy => ?_, fun t h hne hidle => ?_⟩
  · rcases step_run h with hsame | ⟨-, op, rest, hin⟩ | ⟨hrun, -⟩ | hrun | hrun
    · exact absurd (hsame.symm.trans hbusy) hne
    · exact ⟨_, rest, hin, by cases op <;> decide⟩
    all_goals rw [hbusy] at hrun; cases hrun
  · rcases step_run h with hsame | ⟨hrun, -⟩ | ⟨-, hcause⟩ | hrun | hrun
    · exact absurd (hsame.symm.trans hidle) hne
    · rw [hidle] at hrun; cases hrun
    · exact hcause
    all_goals rw [hidle] at hrun; cases hrun

/-! ## A started operation never shows IDLE (R183, R235) -/

/-- What every step keeps holds after any number of steps. -/
theorem run_keeps {P : State → Prop} (hkeeps : ∀ s t, P s → step s = .next t → P t) {k : Nat} (hs : P s)
    (h : Host.Core.run core k s = .next u) : P u := by
  induction k generalizing s with
  | zero =>
    cases h
    exact hs
  | succ k ih =>
    cases hstep : step s with
    | next t =>
      rw [run_succ_of_step hstep] at h
      exact ih (hkeeps s t hs hstep) h
    | fault | refused => simp [Host.Core.run, show core.step = step from rfl, hstep] at h

/-- A microstep leaves the host's inputs. -/
theorem microstep_inputs (h : microstep s = .next t) : t.inputs = s.inputs := by
  rcases microstep_next h with ⟨-, rfl⟩ | ⟨-, -, -, rfl⟩ | ⟨-, -, -, -, h⟩ | ⟨-, -, -, h⟩ | ⟨-, -, h⟩ | ⟨-, -, h⟩
  · rfl
  · rfl
  · rcases decLeadStep_next h with ⟨-, rfl⟩ | ⟨-, -, rfl⟩ | ⟨k, -, -, -, rfl⟩ | ⟨k, -, -, -, hseed⟩
    · rfl
    · rfl
    · rfl
    · rcases seedUnit_next hseed with ⟨-, -, rfl⟩ | ⟨-, rfl⟩ <;> rfl
  · rcases decContStep_next h with ⟨-, rfl⟩ | ⟨-, hmerge⟩
    · rfl
    · rcases mergeUnit_next hmerge with ⟨-, -, rfl⟩ | ⟨-, rfl⟩ <;> rfl
  · rcases encLeadStep_next h with ⟨-, rfl⟩ | ⟨-, -, -, rfl⟩ | ⟨k, -, -, -, -, rfl⟩
    · rfl
    · rfl
    · exact placeLead_inputs s k _
  · obtain ⟨-, rfl⟩ := encContStep_next h
    rfl

theorem step_inputs_of_nil (hin : s.inputs = []) (h : step s = .next t) : t.inputs = [] := by
  have hturn : s.afterTurn.inputs = [] := by rwa [State.afterTurn_inputs]
  rcases step_next h with ⟨-, h⟩ | ⟨-, h⟩
  · rw [hostTurn, hturn] at h
    cases h
    exact hturn
  · rw [microstep_inputs h, hturn]

/-- An operation has been started, and the host does nothing more. -/
def LeftToRun (s : State) : Prop := s.run ≠ .idle ∧ s.inputs = []

theorem step_keeps_leftToRun (hs : LeftToRun s) (h : step s = .next t) : LeftToRun t := by
  obtain ⟨hrun, hin⟩ := hs
  obtain ⟨-, -, causes_of_idle⟩ := cmdWriteDispatch s 0#32
  refine ⟨fun hidle => ?_, step_inputs_of_nil hin h⟩
  rcases causes_of_idle t h hrun hidle with ⟨rest, hcause⟩ | ⟨rest, hcause⟩ <;>
    simp [hin] at hcause

theorem startCommand_leftToRun {op : Op} (hin : s.inputs = []) (h : startCommand op s = .next t) : LeftToRun t := by
  obtain ⟨-, -, rfl⟩ := startCommand_next h
  exact ⟨nofun, hin⟩

theorem RunState.code_eq_zero_iff {r : RunState} : r.code = 0#2 ↔ r = .idle := by cases r <;> decide

/-- Settles O58: a started operation is not IDLE, and without an input no step goes to IDLE. -/
theorem startedOperationNeverReadsIdle : Obligations.StartedOperationNeverReadsIdle := by
  intro s t u i k hi hexec hin hrunk
  have ht : LeftToRun t := by
    rcases hi with rfl | rfl
    · exact startCommand_leftToRun (op := .decode) hin hexec
    · exact startCommand_leftToRun (op := .encode) hin hexec
  obtain ⟨hrun, hinu⟩ := run_keeps (fun _ _ => step_keeps_leftToRun) ht hrunk
  refine ⟨?_, hinu⟩
  rwa [regValue_status_state, ne_eq, RunState.code_eq_zero_iff]

end Sys2Proof.Machine
end

section
/-! PROOFS. The sequencer has a step exactly while an operation runs (O16, O56): R184, R186, R187. -/
namespace Sys2Proof.Machine

variable {s : State}

/-! ## No operation runs (R186, R187) -/

theorem nextAgent_of_not_busy (hrun : s.run ≠ .busy) : s.nextAgent = .host := by
  simp [State.nextAgent, hrun]

theorem microstep_of_not_busy (hrun : s.run ≠ .busy) : microstep s = .next s := by
  simp [microstep, hrun]

/-- Either pipeline finishes where its input is used up. -/
theorem microstep_finishes (hrun : s.run = .busy) (hphase : s.phase = .decLead ∨ s.phase = .encLead)
    (hend : s.rdPos = s.nIn) : microstep s = .next (s.finishOk s.wrPos) := by
  rcases hphase with hphase | hphase
  · exact microstep_of_input_used_up hrun hphase hend
  · exact (microstep_eq_encLeadStep hrun hphase).trans (encLeadStep_of_input_used_up hend)

/-- Settles O16: the finish leaves BUSY, so no microstep is enabled after it. -/
theorem inputExhaustedFinishes : Obligations.InputExhaustedFinishes := by
  intro s hrun hphase hend
  exact ⟨_, microstep_finishes hrun hphase hend, rfl, nextAgent_of_not_busy nofun, microstep_of_not_busy nofun⟩

/-! ## A running operation (R184)

The capacity precondition and the positions that the invariant bounds put every access into its buffer. -/

theorem Inv.decLead_answers (hs : Inv s) (hrun : s.run = .busy) (hphase : s.phase = .decLead) :
    ∃ t, microstep s = .next t := by
  obtain ⟨hlast, -, hwr⟩ := hs.decLead hrun hphase
  obtain ⟨hb, hw⟩ := hs.capacity.1 hrun hlast
  have hin : s.rdPos ≠ s.nIn → s.rdPos.toNat < s.cfg.bCap ∧ s.wrPos.toNat < s.cfg.wCap := fun hne => by
    have := hs.fetch_in_input hrun (.inl ⟨hphase, hne⟩)
    omega
  rw [decLeadMicrostep s hrun hphase hin]
  split
  · exact ⟨_, rfl⟩
  · split
    · exact ⟨_, rfl⟩
    · split
      · exact ⟨_, rfl⟩
      · split <;> exact ⟨_, rfl⟩

theorem Inv.decCont_answers (hs : Inv s) (hrun : s.run = .busy) (hphase : s.phase = .decCont) :
    ∃ t, microstep s = .next t := by
  obtain ⟨hlast, hrem, hrd, hwr, -⟩ := hs.decCont hrun hphase
  obtain ⟨hb, hw⟩ := hs.capacity.1 hrun hlast
  obtain ⟨hmicro, -⟩ := decContMicrostep s _ hrun hphase (by omega) (by omega) rfl
  rw [hmicro]
  split
  · exact ⟨_, rfl⟩
  · split <;> exact ⟨_, rfl⟩

theorem Inv.encLead_answers (hs : Inv s) (hrun : s.run = .busy) (hphase : s.phase = .encLead) :
    ∃ t, microstep s = .next t := by
  obtain ⟨hlast, -, -, hwr⟩ := hs.encLead hrun hphase
  obtain ⟨hw, hb⟩ := hs.capacity.2 hrun hlast
  have hin : s.rdPos ≠ s.nIn → s.rdPos.toNat < s.cfg.wCap ∧ s.wrPos.toNat < s.cfg.bCap := fun hne => by
    have := hs.word_in_input hrun hphase hne
    omega
  rw [encLeadMicrostep s _ hrun hphase hin rfl]
  split
  · exact ⟨_, rfl⟩
  · split
    · exact ⟨_, rfl⟩
    · split <;> exact ⟨_, rfl⟩

theorem Inv.encCont_answers (hs : Inv s) (hrun : s.run = .busy) (hphase : s.phase = .encCont) :
    ∃ t, microstep s = .next t := by
  obtain ⟨hlast, hrd, hrem, -, -, hwr, -⟩ := hs.encCont hrun hphase
  obtain ⟨-, hb⟩ := hs.capacity.2 hrun hlast
  exact ⟨_, (microstep_eq_encContStep hrun hphase).trans (encContStep_in_range (by omega))⟩

theorem Inv.microstep_answers (hs : Inv s) (hrun : s.run = .busy) : ∃ t, microstep s = .next t := by
  cases hphase : s.phase with
  | decLead => exact hs.decLead_answers hrun hphase
  | decCont => exact hs.decCont_answers hrun hphase
  | encLead => exact hs.encLead_answers hrun hphase
  | encCont => exact hs.encCont_answers hrun hphase

/-! ## The host's turn never faults (R218) -/

theorem bufferAccess_ne_fault (cap i : Nat) (s t : State) (f : Fault) : bufferAccess cap i s t ≠ .fault f := by
  unfold bufferAccess
  split
  · nofun
  · split <;> nofun

theorem startCommand_ne_fault (op : Op) (s : State) (f : Fault) : startCommand op s ≠ .fault f := by
  unfold startCommand
  split
  · nofun
  · split <;> nofun

theorem execClear_ne_fault (s : State) (f : Fault) : execClear s ≠ .fault f := by
  unfold execClear
  split <;> nofun

theorem writeCommand_ne_fault (v : Word) (s : State) (f : Fault) : writeCommand v s ≠ .fault f := by
  cases hdec : decodeCommand v with
  | error e => simp [writeCommand_of_reserved hdec]
  | ok i =>
    rw [writeCommand_eq_exec hdec]
    rcases decodeCommand_ok hdec with ⟨-, rfl⟩ | ⟨-, rfl⟩ | ⟨-, rfl⟩
    · exact execClear_ne_fault s f
    · exact startCommand_ne_fault .decode s f
    · exact startCommand_ne_fault .encode s f

theorem writeMapped_ne_fault (r : Reg) (v : Word) (s : State) (f : Fault) : writeMapped r v s ≠ .fault f := by
  cases r with
  | cmd => exact writeCommand_ne_fault v s f
  | inLen =>
    unfold writeMapped
    dsimp only
    split <;> nofun
  | status | outLen | errCode | errPos => nofun

theorem hostAct_ne_fault (a : HostAction) (s : State) (f : Fault) : hostAct a s ≠ .fault f := by
  cases a with
  | regRead off =>
    cases hreg : regAt off with
    | none => simp [hostAct_regRead_unmapped hreg]
    | some r => simp [offset_of_regAt hreg, hostAct_regRead]
  | regWrite off v =>
    cases hreg : regAt off with
    | none => simp [hostAct_regWrite_unmapped hreg]
    | some r =>
      rw [offset_of_regAt hreg, hostAct_regWrite]
      exact writeMapped_ne_fault r v s f
  | bbufRead | bbufWrite | wbufRead | wbufWrite => exact bufferAccess_ne_fault _ _ _ _ f

theorem hostTurn_ne_fault (s : State) (f : Fault) : hostTurn s ≠ .fault f := by
  unfold hostTurn
  split
  · nofun
  · exact hostAct_ne_fault _ _ f
  · nofun
  · nofun

/-- Settles O56: the host's turn never faults, and the sequencer's is a microstep of a running operation. -/
theorem sequencerNeverSticks : Obligations.SequencerNeverSticks := by
  intro s
  refine ⟨Inv.microstep_answers, fun hrun => ⟨nextAgent_of_not_busy hrun, microstep_of_not_busy hrun⟩, fun hs f => ?_⟩
  cases hagent : s.nextAgent with
  | host =>
    rw [step_eq_hostTurn hagent]
    exact hostTurn_ne_fault _ f
  | core =>
    obtain ⟨sched, hturn⟩ := afterTurn_eq s
    have hrun : s.run = .busy := nextAgent_core hagent
    obtain ⟨t, ht⟩ := (hs.of_outside s.inLen s.inputs s.replies sched).microstep_answers hrun
    simp [step, hagent, hturn, ht]

end Sys2Proof.Machine
end

section
/-! PROOFS. Raising an error (O21, O22, O28, O29): R201 to R203, R207 and R208 of 60_exceptions.md. -/
namespace Sys2Proof.Machine

variable {s t : State} {b : Byte} {k : LengthClass}

/-! ## Which byte raises which error (R201 to R203) -/

/-- A leading byte whose unit does not fit. -/
theorem consumeByte_short_lead (hrun : s.run = .busy) (hphase : s.phase = .decLead) (hne : s.rdPos ≠ s.nIn)
    (hlen : s.nIn.toNat < s.rdPos.toNat + k.len) (x : Byte) :
    consumeByte (.lead k) x s = .next (s.raise .decode .truncatedSequence s.rdPos) :=
  (consumeByte_decLead hrun hphase _ x).trans (decLeadStep_of_short hne hlen x)

/-- A leading byte whose unit fits leaves the operation running. -/
theorem consumeByte_fitting_lead_run (hrun : s.run = .busy) (hphase : s.phase = .decLead)
    (hlen : s.rdPos.toNat + k.len ≤ s.nIn.toNat) {x : Byte} (h : consumeByte (.lead k) x s = .next t) :
    t.run = .busy := by
  rw [consumeByte_decLead hrun hphase, decLeadStep_of_fits hlen] at h
  exact (seedUnit_sameOperation h).run.trans hrun

/-- Settles O21: a byte of class L and the format of L bytes are consumed alike; the one byte of LEAD1 always fits. -/
theorem shortUnitsRaiseTruncatedSequence : Obligations.ShortUnitsRaiseTruncatedSequence := by
  intro s b x k hrun hphase hne
  refine ⟨fun hk hlen => ?_, fun hlen => consumeByte_short_lead (k := .two) hrun hphase hne hlen x,
    fun hlen => consumeByte_short_lead (k := .three) hrun hphase hne hlen x,
    fun hlen => consumeByte_short_lead (k := .four) hrun hphase hne hlen x,
    fun hrd t h => consumeByte_fitting_lead_run (k := .one) hrun hphase hrd h⟩
  rw [runByte_eq, byteRole_eq_lead_iff_classify.mpr hk, consumeByte_short_lead hrun hphase hne hlen]

/-- Settles O22: by the phase; the four leading formats are no continuation byte. -/
theorem misplacedBytesRaise : Obligations.MisplacedBytesRaise := by
  intro s x hrun
  refine ⟨fun hphase hne => ?_, fun hphase => ?_⟩
  · exact (consumeByte_decLead hrun hphase _ x).trans (decLeadStep_of_not_lead (r := .cont) hne nofun x)
  · have hlead (k : LengthClass) :
        consumeByte (.lead k) x s = .next (s.raise .decode .invalidContinuationByte s.rdPos) :=
      (consumeByte_decCont hrun hphase _ x).trans (decContStep_of_not_cont (r := .lead k) nofun x)
    exact ⟨hlead .one, hlead .two, hlead .three, hlead .four⟩

/-! ## What raising writes and what it leaves (R207, R208) -/

/-- The drop of the output changes the buffers and the draw counter only. -/
theorem State.dropOutput_eq (s : State) (op : Op) :
    s.dropOutput op =
      { s with bbuf := (s.dropOutput op).bbuf, wbuf := (s.dropOutput op).wbuf, draws := (s.dropOutput op).draws } := by
  cases op <;> rfl

/-- Settles O28: the four register writes, over the frame of the drop; DONE_ERR enables no microstep. -/
theorem raisedErrorCompletes : Obligations.RaisedErrorCompletes := by
  rintro s t op e pos rfl
  refine ⟨by cases e <;> rfl, rfl, rfl, rfl, ?_, nextAgent_of_not_busy nofun, microstep_of_not_busy nofun⟩
  simp only [State.raise]
  rw [s.dropOutput_eq op]

/-- Settles O29: the input buffer is not drawn, and the draw of the output buffer ends at the bound. -/
theorem outputAfterAnError : Obligations.OutputAfterAnError := by
  intro s e pos hb hw
  exact ⟨⟨rfl, rfl, Memory.wf_fill _ _ hw, fun j => raise_decode_readWord hw e pos⟩,
    rfl, rfl, Memory.wf_fill _ _ hb, fun j => raise_encode_readByte hb e pos⟩

end Sys2Proof.Machine
end

section
/-! PROOFS. How long a result lasts, and the completion signal (O30, O31): R210 and R212 of 60_exceptions.md. -/
namespace Sys2Proof.Machine

variable {s t : State}

/-! ## What the outside does to a result (R210) -/

/-- The operation and its result stay, or the action is a CMD write that clears the result or starts an operation. -/
theorem hostAct_sameOperation_or_command {a : HostAction} (h : hostAct a s = .next t) :
    SameOperation s t ∨ (a = .regWrite 0x00 0#32 ∧ t.run = .idle) ∨
      ∃ op : Op, a = .regWrite 0x00 (op.code.setWidth 32) ∧ t.run = .busy := by
  rcases hostAct_next h with
    rfl | ⟨r, rfl⟩ | ⟨-, v, rfl⟩ | ⟨-, i, v, -, rfl⟩ | ⟨-, i, v, -, rfl⟩ | ⟨-, rfl, rfl⟩ | ⟨-, op, rfl, -, rfl⟩
  case inr.inr.inr.inr.inr.inl => exact .inr (.inl ⟨rfl, rfl⟩)
  case inr.inr.inr.inr.inr.inr => exact .inr (.inr ⟨op, rfl, rfl⟩)
  all_goals exact .inl ⟨rfl, rfl, rfl, rfl, rfl, rfl, rfl⟩

/-- The operation and its result stay, or the turn is such a CMD write or the reset input. -/
theorem hostTurn_sameOperation_or_leaves (h : hostTurn s = .next t) :
    SameOperation s t ∨ (s.WritesCommand 0#32 ∧ t.run = .idle) ∨
      (∃ op : Op, s.WritesCommand (op.code.setWidth 32) ∧ t.run = .busy) ∨ (s.Resets ∧ t.run = .idle) := by
  rcases hostTurn_next h with ⟨-, rfl⟩ | ⟨a, rest, hin, h⟩ | ⟨rest, -, rfl⟩ | ⟨rest, hin, rfl⟩
  · exact .inl ⟨rfl, rfl, rfl, rfl, rfl, rfl, rfl⟩
  · rcases hostAct_sameOperation_or_command h with hsame | ⟨rfl, hrun⟩ | ⟨op, rfl, hrun⟩
    · exact .inl ⟨hsame.cfg, hsame.run, hsame.lastOp, hsame.nIn, hsame.outLen, hsame.errCode, hsame.errPos⟩
    · exact .inr (.inl ⟨⟨rest, hin⟩, hrun⟩)
    · exact .inr (.inr (.inl ⟨op, ⟨rest, hin⟩, hrun⟩))
  · obtain ⟨inputs, replies, heq⟩ := waitTurn_eq rest s
    rw [heq]
    exact .inl ⟨rfl, rfl, rfl, rfl, rfl, rfl, rfl⟩
  · exact .inr (.inr (.inr ⟨⟨rest, hin⟩, rfl⟩))

theorem step_eq_hostTurn_of_not_busy (hrun : s.run ≠ .busy) : step s = hostTurn s := by
  rw [step_eq_hostTurn (nextAgent_of_not_busy hrun), s.afterTurn_of_not_busy (s.not_busy_iff.mpr hrun)]

/-- Settles O30: a running operation refuses both starts, and in DONE_ERR and DONE_OK every step is the outside's. -/
theorem resultsLastUntilCleared : Obligations.ResultsLastUntilCleared := by
  refine ⟨fun s t hrun => ?_, fun s t hdone h => ?_⟩
  · obtain ⟨hrefused, -⟩ := commandsRefused s
    simp [hrefused hrun]
  · have hrun : s.run ≠ .busy := by rcases hdone with hrun | hrun <;> simp [hrun]
    rw [step_eq_hostTurn_of_not_busy hrun] at h
    rcases hostTurn_sameOperation_or_leaves h with hsame | ⟨⟨rest, hin⟩, ht⟩ | ⟨op, ⟨rest, hin⟩, ht⟩ |
      ⟨⟨rest, hin⟩, ht⟩
    · exact .inl ⟨hsame.run, hsame.lastOp, hsame.errCode, hsame.errPos, hsame.outLen⟩
    · exact .inr (.inl ⟨rest, hin, ht⟩)
    · exact .inr (.inr (.inl ⟨_, rest, hin, by cases op <;> decide, ht⟩))
    · exact .inr (.inr (.inr ⟨rest, hin, ht⟩))

/-! ## The completion signal (R212) -/

theorem State.doneIrq_iff : s.doneIrq = true ↔ s.run = .doneOk ∨ s.run = .doneErr := by
  simp [State.doneIrq]

theorem doneIrq_eq_of_run_eq (h : t.run = s.run) : t.doneIrq = s.doneIrq := by
  rw [State.doneIrq, State.doneIrq, h]

/-- A turn of the outside completes no operation. -/
theorem hostTurn_keeps_doneIrq_low (hlow : s.doneIrq = false) (h : hostTurn s = .next t) : t.doneIrq = false := by
  rcases hostTurn_run h with hsame | ⟨hrun, -⟩ | ⟨hrun, -⟩
  · exact (doneIrq_eq_of_run_eq hsame).trans hlow
  · simp [State.doneIrq, hrun]
  · simp [State.doneIrq, hrun]

/-- Settles O31: the outside does not raise the signal, and it falls where a result ends (`resultsLastUntilCleared`). -/
theorem doneIrqRisesAndFalls : Obligations.DoneIrqRisesAndFalls := by
  intro s t
  refine ⟨State.doneIrq_iff, fun h hlow hhigh => ?_, fun h hhigh hlow => ?_⟩
  · rcases step_next h with ⟨-, h⟩ | ⟨hagent, -⟩
    · have hturn : s.afterTurn.doneIrq = false := (doneIrq_eq_of_run_eq s.afterTurn_run).trans hlow
      simp [hostTurn_keeps_doneIrq_low hturn h] at hhigh
    · exact hagent
  · rcases resultsLastUntilCleared.2 s t (State.doneIrq_iff.mp hhigh).symm h with
      ⟨hrun, -⟩ | ⟨rest, hin, -⟩ | ⟨w, rest, hin, rfl | rfl, -⟩ | ⟨rest, hin, -⟩
    · simp [doneIrq_eq_of_run_eq hrun, hhigh] at hlow
    · exact .inl ⟨_, rest, hin, by decide⟩
    · exact .inl ⟨_, rest, hin, by decide⟩
    · exact .inl ⟨_, rest, hin, by decide⟩
    · exact .inr ⟨rest, hin⟩

end Sys2Proof.Machine
end

section
/-! PROOFS. The duties of the host (O32): R218 of 60_exceptions.md. Each operation of the host port answers a next state
just where its duty is kept. -/
namespace Sys2Proof.Machine

/-- The names of R218's table. -/
abbrev Refusal.dutyNames : List Refusal :=
  [.reservedCommand, .commandWhileBusy, .inLenWriteWhileBusy, .bufferAccessWhileBusy, .capacityExceeded,
    .unmappedOffset, .indexOutOfRange]

/-- A next state where the duty is kept, a refusal by a name of R218's table where it is broken. -/
def AnswersByDuty (kept : Bool) (o : Outcome) : Prop :=
  (kept = true → ∃ t, o = .next t) ∧ (kept = false → ∃ why, o = .refused why ∧ why ∈ Refusal.dutyNames)

theorem answersByDuty_next (t : State) : AnswersByDuty true (.next t) := ⟨fun _ => ⟨t, rfl⟩, nofun⟩

theorem answersByDuty_refused {why : Refusal} (h : why ∈ Refusal.dutyNames) : AnswersByDuty false (.refused why) :=
  ⟨nofun, fun _ => ⟨why, rfl, h⟩⟩

theorem bufferAccess_answersByDuty (cap i : Nat) (s t : State) :
    AnswersByDuty (!s.busy && decide (i < cap)) (bufferAccess cap i s t) := by
  unfold bufferAccess
  cases s.busy with
  | true => exact answersByDuty_refused (by decide)
  | false =>
    by_cases hi : i < cap
    · simpa [hi] using answersByDuty_next t
    · simpa [hi] using answersByDuty_refused (why := .indexOutOfRange) (by decide)

theorem startCommand_answersByDuty (op : Op) (s : State) :
    AnswersByDuty (!s.busy && s.fits op) (startCommand op s) := by
  unfold startCommand
  cases s.busy with
  | true => exact answersByDuty_refused (by decide)
  | false =>
    cases s.fits op with
    | true => exact answersByDuty_next _
    | false => exact answersByDuty_refused (by decide)

theorem execClear_answersByDuty (s : State) : AnswersByDuty (!s.busy) (execClear s) := by
  unfold execClear
  cases s.busy with
  | true => exact answersByDuty_refused (by decide)
  | false => exact answersByDuty_next _

theorem writeCommand_answersByDuty (v : Word) (s : State) : AnswersByDuty (s.commandAllowed v) (writeCommand v s) := by
  cases hdec : decodeCommand v with
  | error e =>
    rw [State.commandAllowed, hdec, writeCommand_of_reserved hdec]
    exact answersByDuty_refused (by decide)
  | ok i =>
    rw [State.commandAllowed, hdec, writeCommand_eq_exec hdec]
    rcases decodeCommand_ok hdec with ⟨-, rfl⟩ | ⟨-, rfl⟩ | ⟨-, rfl⟩
    · exact execClear_answersByDuty s
    · exact startCommand_answersByDuty .decode s
    · exact startCommand_answersByDuty .encode s

theorem regRead_answersByDuty (off : Nat) (s : State) :
    AnswersByDuty ((HostAction.regRead off).allowed s) (hostAct (.regRead off) s) := by
  cases hreg : regAt off with
  | none =>
    rw [HostAction.allowed, hreg, hostAct_regRead_unmapped hreg]
    exact answersByDuty_refused (by decide)
  | some r =>
    rw [HostAction.allowed, hreg, offset_of_regAt hreg, hostAct_regRead]
    exact answersByDuty_next _

theorem regWrite_answersByDuty (off : Nat) (v : Word) (s : State) :
    AnswersByDuty ((HostAction.regWrite off v).allowed s) (hostAct (.regWrite off v) s) := by
  cases hreg : regAt off with
  | none =>
    rw [HostAction.allowed, hreg, hostAct_regWrite_unmapped hreg]
    exact answersByDuty_refused (by decide)
  | some r =>
    rw [HostAction.allowed, hreg, offset_of_regAt hreg, hostAct_regWrite]
    cases r with
    | cmd => exact writeCommand_answersByDuty v s
    | inLen =>
      unfold writeMapped
      cases s.busy with
      | true => exact answersByDuty_refused (by decide)
      | false => exact answersByDuty_next _
    | status | outLen | errCode | errPos => exact answersByDuty_next s

/-- Settles O32: by the action. -/
theorem refusedExactlyWhereADutyIsBroken : Obligations.RefusedExactlyWhereADutyIsBroken := by
  intro s a
  change AnswersByDuty (a.allowed s) (hostAct a s)
  cases a with
  | regRead off => exact regRead_answersByDuty off s
  | regWrite off v => exact regWrite_answersByDuty off v s
  | bbufRead | bbufWrite | wbufRead | wbufWrite => exact bufferAccess_answersByDuty _ _ _ _

end Sys2Proof.Machine
end

section
/-! PROOFS. The order of the errors (O42, O43): R205 and R206 of 60_exceptions.md. Within a unit the loop over the
continuation bytes stops at the first that is none; across units what has been converted only shifts the result of the
rest. -/
namespace Sys2Proof.Machine

variable {b c : Byte} {bs s : List Byte} {k : LengthClass} {acc : AccWord} {out : List Word} {n j pos fuel : Nat}

/-! ## Within a unit (R205) -/

/-- The first byte awaited that is no continuation byte is the one reported. -/
theorem takeConts_first_error (hj : j < n) (hc : s[j]? = some c) (hbad : isCont c = false)
    (hbefore : ∀ i d, i < j → s[i]? = some d → isCont d = true) : takeConts n s pos acc = .error (pos + j) := by
  induction s generalizing n j pos acc with
  | nil => simp at hc
  | cons d s ih =>
    obtain ⟨n, rfl⟩ := Nat.exists_eq_add_one.mpr (Nat.zero_lt_of_lt hj)
    cases j with
    | zero =>
      obtain rfl : d = c := by simpa using hc
      simp [takeConts, hbad]
    | succ j =>
      have hd : isCont d = true := hbefore 0 d (Nat.zero_lt_succ j) rfl
      have hrest : ∀ i e, i < j → s[i]? = some e → isCont e = true := fun i e hi =>
        hbefore (i + 1) e (Nat.succ_lt_succ hi)
      rw [takeConts, if_pos hd, ih (Nat.lt_of_succ_lt_succ hj) hc hrest, Nat.add_right_comm, Nat.add_assoc]

/-- Settles O42: the three checks are made in this order, the last of them by `takeConts_first_error`. -/
theorem checksWithinAUnit : Obligations.ChecksWithinAUnit := by
  intro fuel pos b s out
  refine ⟨fun hk => ?_, fun k hk hlen => ?_, fun k j c hk hlen hj1 hjk hc hbad hbefore => ?_⟩
  · simp only [decodeUnits, hk]
  · simp only [decodeUnits, hk, if_pos hlen]
  · obtain ⟨j, rfl⟩ := Nat.exists_eq_add_one.mpr hj1
    have htake : takeConts (k.len - 1) s (pos + 1) (leadPayload b k) = .error (pos + 1 + j) :=
      takeConts_first_error (by omega) hc hbad fun i d hi => hbefore (i + 1) d (by omega) (by omega)
    simp only [decodeUnits, hk, if_neg (Nat.not_lt.mpr hlen), htake, Nat.add_assoc, Nat.add_comm 1 j]

/-! ## Across units (R206) -/

/-- The result of the rest of an input, after `n` elements that converted to `pre`. -/
def CodecResult.after {α : Type} (pre : List α) (n : Nat) : CodecResult α → CodecResult α
  | .ok out => .ok (pre ++ out)
  | .err e pos => .err e (n + pos)

/-- A unit's continuation bytes are reported at their place. -/
theorem takeConts_shift (m n : Nat) (s : List Byte) (pos : Nat) (acc : AccWord) :
    takeConts n s (m + pos) acc = (takeConts n s pos acc).mapError (m + ·) := by
  induction n generalizing s pos acc with
  | zero => rfl
  | succ n ih =>
    cases s with
    | nil => rfl
    | cons b s =>
      simp only [takeConts, Nat.add_assoc, ih]
      split <;> rfl

/-- Where the loop over units starts, and with what output, only shifts its result. -/
theorem decodeUnits_shift (pre : List Word) (m fuel : Nat) (s : List Byte) (pos : Nat) (out : List Word) :
    decodeUnits fuel s (m + pos) (pre ++ out) = (decodeUnits fuel s pos out).after pre m := by
  induction fuel generalizing s pos out with
  | zero => cases s <;> rfl
  | succ fuel ih =>
    cases s with
    | nil => rfl
    | cons b s =>
      simp only [decodeUnits]
      cases classify b with
      | none => rfl
      | some k =>
        dsimp only
        split
        · rfl
        · rw [Nat.add_assoc m pos 1, takeConts_shift]
          cases takeConts (k.len - 1) s (pos + 1) (leadPayload b k) with
          | error p => rfl
          | ok r => simp only [Except.mapError, Nat.add_assoc, List.append_assoc, ih]

/-- A unit's continuation bytes are taken before the bytes after them. -/
theorem decodeInside_append (hbs : ∀ c ∈ bs, isCont c = true) (rest : List Byte) (pos : Nat) (acc : AccWord)
    (out : List Word) :
    decodeInside bs.length (bs ++ rest) pos acc out =
      decodeFrom rest (pos + bs.length) (out ++ [accEmit (mergeConts acc bs)]) := by
  have htake : takeConts bs.length (bs ++ rest) pos acc = .ok (mergeConts acc bs, rest) :=
    takeConts_eq_ok_iff.mpr ⟨bs, rfl, rfl, hbs, rfl⟩
  simp only [decodeInside, htake]

/-- After a sequence of units the rest decides. -/
theorem Decodes.decodeFrom_append {ks : List LengthClass} {ws : List Word} (h : Decodes s ks ws) (rest : List Byte)
    (pos : Nat) (out : List Word) : decodeFrom (s ++ rest) pos out = decodeFrom rest (pos + s.length) (out ++ ws) := by
  induction h generalizing pos out with
  | nil => simp
  | @unit k b conts units ks ws hunit hrest ih =>
    have hpos := class_len_pos k
    have hlen := hunit.length
    rw [List.cons_append, List.append_assoc, decodeFrom_of_fits hunit.lead (by simp; omega), ← hlen,
      decodeInside_append hunit.conts, ih]
    simp only [List.append_assoc, List.length_cons, List.length_append]
    congr 1
    omega

/-- The encoder's loop over an input that converts goes on with the rest. -/
theorem encodeWords_append {cps : List Word} {i : Nat} {out out' : List Byte} (h : encodeWords cps i out = .ok out')
    (rest : List Word) : encodeWords (cps ++ rest) i out = encodeWords rest (i + cps.length) out' := by
  induction cps generalizing i out with
  | nil =>
    cases h
    rfl
  | cons cp cps ih =>
    simp only [encodeWords, List.cons_append] at h ⊢
    cases hk : magClass cp with
    | none => simp [hk] at h
    | some k =>
      simp only [hk] at h ⊢
      rw [ih h, List.length_cons, Nat.add_assoc, Nat.add_comm 1]

/-- Where the encoder's loop starts, and with what output, only shifts its result. -/
theorem encodeWords_shift (pre : List Byte) (m : Nat) (cps : List Word) (i : Nat) (out : List Byte) :
    encodeWords cps (m + i) (pre ++ out) = (encodeWords cps i out).after pre m := by
  induction cps generalizing i out with
  | nil => rfl
  | cons cp cps ih =>
    simp only [encodeWords]
    cases magClass cp with
    | none => rfl
    | some k => simp only [Nat.add_assoc, List.append_assoc, ih]

/-- After bytes that convert, the rest decides. -/
theorem decodeFn_append {a : List Byte} (h : decodeFn a = .ok out) (bs : List Byte) :
    decodeFn (a ++ bs) = (decodeFn bs).after out a.length := by
  calc decodeFn (a ++ bs) = decodeFrom bs (0 + a.length) ([] ++ out) :=
        (decodes_of_decodeFn h).decodeFrom_append bs 0 []
    _ = decodeUnits bs.length bs (a.length + 0) (out ++ []) := by simp [decodeFrom]
    _ = (decodeFn bs).after out a.length := decodeUnits_shift out a.length _ bs 0 []

/-- After words that convert, the rest decides. -/
theorem encodeFn_append {a : List Word} {out : List Byte} (h : encodeFn a = .ok out) (cps : List Word) :
    encodeFn (a ++ cps) = (encodeFn cps).after out a.length := by
  calc encodeFn (a ++ cps) = encodeWords cps (0 + a.length) out := encodeWords_append h cps
    _ = encodeWords cps (a.length + 0) (out ++ []) := by simp
    _ = (encodeFn cps).after out a.length := encodeWords_shift out a.length cps 0 []

/-- Settles O43: for both functions what has been converted only shifts the result of the rest. -/
theorem firstErrorInInputOrder : Obligations.FirstErrorInInputOrder :=
  ⟨fun _ b _ h => (decodeFn_append h b).trans (by cases decodeFn b <;> rfl),
    fun _ b _ h => (encodeFn_append h b).trans (by cases encodeFn b <;> rfl)⟩

end Sys2Proof.Machine
end

section
/-! PROOFS. Reset, and host writes after completion (O40, O41, O54): R230, R236 of 70_reset_and_hazards.md. -/
namespace Sys2Proof.Machine

variable {s : State}

/-! ## The registers after reset (R230) -/

/-- R230's value of every field that a register shows. -/
structure RegistersCleared (s : State) : Prop where
  run : s.run = .idle
  lastOp : s.lastOp = none
  inLen : s.inLen = 0#32
  outLen : s.outLen = 0#32
  errCode : s.errCode = none
  errPos : s.errPos = 0#32

theorem registersCleared_reset : RegistersCleared State.reset := ⟨rfl, rfl, rfl, rfl, rfl, rfl⟩

theorem registersCleared_resetInput (s : State) : RegistersCleared s.resetInput := ⟨rfl, rfl, rfl, rfl, rfl, rfl⟩

theorem RegistersCleared.not_busy (h : RegistersCleared s) : s.run ≠ .busy := by simp [h.run]

theorem RegistersCleared.doneIrq (h : RegistersCleared s) : s.doneIrq = false := by simp [State.doneIrq, h.run]

/-- STATUS and ERR_CODE read 0 as well: 0 is the code of IDLE, of no LASTOP and of no error (R23, R26). -/
theorem RegistersCleared.regValue (h : RegistersCleared s) (r : Reg) : s.regValue r = 0#32 := by
  cases r with
  | cmd => rfl
  | status =>
    rw [State.regValue, State.statusWord_eq, h.run, h.lastOp]
    rfl
  | inLen => exact h.inLen
  | outLen => exact h.outLen
  | errCode =>
    rw [State.regValue, State.errCodeWord_eq, h.errCode]
    rfl
  | errPos => exact h.errPos

theorem hostTurn_eq_resetInput {rest : List Input} (h : s.inputs = .reset :: rest) :
    hostTurn s = .next { s with inputs := rest }.resetInput := by
  simp only [hostTurn, h]

/-- Settles O41: the turn is the reset input, from BUSY too, and it leaves the registers as State.reset has them. -/
theorem resetInputClearsTheRegisters : Obligations.ResetInputClearsTheRegisters := by
  refine ⟨fun s rest hagent hinputs => ?_, registersCleared_reset.run, registersCleared_reset.lastOp,
    registersCleared_reset.regValue, registersCleared_reset.doneIrq⟩
  have hstep : step s = .next { s.afterTurn with inputs := rest }.resetInput :=
    (step_eq_hostTurn hagent).trans (hostTurn_eq_resetInput (by simpa using hinputs))
  have hclear := registersCleared_resetInput { s.afterTurn with inputs := rest }
  exact ⟨_, hstep, hclear.run, hclear.lastOp, hclear.regValue, hclear.doneIrq, s.afterTurn_cfg, rfl,
    nextAgent_of_not_busy hclear.not_busy, microstep_of_not_busy hclear.not_busy⟩

theorem buffersOk_reset : BuffersOk State.reset := ⟨rfl, Memory.wf_reset.1, Memory.wf_reset.2, rfl, rfl⟩

/-- Settles O54: no operation runs, so only the empty buffers and the cleared result registers are left to show. -/
theorem resetMeetsTheInvariant : Obligations.ResetMeetsTheInvariant :=
  .of_not_busy registersCleared_reset.not_busy buffersOk_reset (by simp [ResultOk, State.reset])
    (by simp [OutcomeOk, State.reset])

/-! ## Host writes after completion (R236) -/

/-- A register shows no buffer entry. -/
theorem State.writeByte_regValue (s : State) (i : Nat) (v : Byte) (r : Reg) :
    (s.writeByte i v).regValue r = s.regValue r := by cases r <;> rfl

theorem State.writeWord_regValue (s : State) (i : Nat) (v : Word) (r : Reg) :
    (s.writeWord i v).regValue r = s.regValue r := by cases r <;> rfl

/-- IN_LEN shows in no other register. -/
theorem regValue_update_inLen (s : State) (v : Word) {r : Reg} (hr : r ≠ .inLen) :
    State.regValue { s with inLen := v } r = s.regValue r := by
  cases r with
  | inLen => exact absurd rfl hr
  | cmd | status | outLen | errCode | errPos => rfl

/-- A command that starts samples IN_LEN (R183). -/
theorem startCommand_nIn {t : State} {op : Op} (h : startCommand op s = .next t) : t.nIn = s.inLen := by
  obtain ⟨-, -, rfl⟩ := startCommand_next h
  rfl

/-- Settles O40: after completion no operation runs, so each write is taken as in IDLE and reaches its own field only. -/
theorem writesAfterCompletion : Obligations.WritesAfterCompletion := by
  intro s v b i r hdone
  have hrun : s.run ≠ .busy := by rcases hdone with hdone | hdone <;> simp [hdone]
  refine ⟨((inLenIsTheHosts s s).1 v hrun).1, regValue_update_inLen s v, fun hi => ?_, fun hi => ?_, fun t h => ?_⟩
  · exact ⟨s.writeByte i b, bufferAccess_in_range hrun hi _, s.writeByte_regValue i b r, rfl⟩
  · exact ⟨s.writeWord i v, bufferAccess_in_range hrun hi _, s.writeWord_regValue i v r, rfl⟩
  · exact h.elim startCommand_nIn startCommand_nIn

end Sys2Proof.Machine
end
